-- ==== Sys2Proof/Word.lean ====
section
/-! DEFINITION. The words of ELSTER-RXF: a command word (R90), a byte, the 16-bit values of the CRC unit and of the
length field, and the widest value of the TIME input (R10: TS_W is at most 64). -/

namespace Sys2Proof

/-- One command word of the host interface (R90). -/
abbrev Word := BitVec 32

/-- A raw byte or a frame byte (R19). -/
abbrev Byte := BitVec 8

/-- The `ch` field of a command (R91): a channel number 0..255. -/
abbrev ChanNo := BitVec 8

/-- A 16-bit value: the CRC register (R32), a checksum (R123), a length value (R41). -/
abbrev Half := BitVec 16

/-- A value of the TIME input. The block reads its low TS_W bits (R96, R154); TS_W is at most 64 (R10). -/
abbrev Time := BitVec 64

/-- The search window register `sh`: PAT_W bits, at most 64 (R10, R35), zero above bit PAT_W - 1. -/
abbrev Window := BitVec 64

end Sys2Proof
end

