-- ==== Sys2Proof/Config.lean ====
section
/-! DEFINITION. The implementation parameters of R10, the constraints on them (R10, R12), and the one configuration that
`State.reset` is instantiated with. The parameters are DATA: a state carries its configuration, so every statement about a
state holds for every configuration. -/

namespace Sys2Proof

/-- MANCH_POL (R10): which line bit of a Manchester pair carries the data bit. -/
inductive ManchPol where
  | first
  | second
deriving DecidableEq, Repr

/-- BIT_ORDER (R10, R73): the order of data bits within a raw byte. -/
inductive BitOrder where
  | msbFirst
  | lsbFirst
deriving DecidableEq, Repr

/-- LEN_ORDER (R10, R75): the byte order of the 2-byte direct length field. -/
inductive LenOrder where
  | big
  | little
deriving DecidableEq, Repr

/-- The build-time parameters of R10. They are fixed for the life of the hardware, and no command changes them. -/
structure Config where
  /-- N_CH, the number of channels (OPEN). -/
  nCh : Nat
  /-- PREAMBLE, the PREAMBLE_W = 32 line bits before a sync word, first-arriving bit most significant (OPEN). -/
  preamble : BitVec 32
  /-- SYNC_W, the width of each sync word in line bits (OPEN). -/
  syncW : Nat
  /-- SYNC_A, in its low SYNC_W bits (OPEN). -/
  syncA : BitVec 32
  /-- SYNC_B, in its low SYNC_W bits (OPEN). -/
  syncB : BitVec 32
  manchPol : ManchPol
  bitOrder : BitOrder
  lenOrder : LenOrder
  /-- MIN_BODY, the least accepted length value. -/
  minBody : Nat
  /-- MAX_BODY, the greatest accepted length value. -/
  maxBody : Nat
  /-- TS_W, the width of the TIME input and of frame timestamps. -/
  tsW : Nat
deriving DecidableEq, Repr

/-- PREAMBLE_W: 32 line bits (R10). -/
def Config.preambleW : Nat := 32

/-- FRAME_MAX, the capacity of each frame buffer in bytes (R10). -/
def Config.frameMax (cfg : Config) : Nat := 2 + cfg.maxBody + 2

/-- The ranges of R10 and the two constraints of R12. A configuration outside them is refused (R12). -/
abbrev Config.Wf (cfg : Config) : Prop :=
  (1 ≤ cfg.nCh ∧ cfg.nCh ≤ 256) ∧
  (1 ≤ cfg.syncW ∧ cfg.syncW ≤ 32) ∧
  (cfg.syncA.toNat < 2 ^ cfg.syncW ∧ cfg.syncB.toNat < 2 ^ cfg.syncW) ∧
  cfg.syncA ≠ cfg.syncB ∧
  (cfg.minBody ≤ cfg.maxBody ∧ cfg.maxBody ≤ 65535) ∧
  (1 ≤ cfg.tsW ∧ cfg.tsW ≤ 64)

/-- The configuration of `State.reset`: the defaults of R10 and, for the OPEN parameters, the values of TESTCFG
(95_test_vectors.md). DESIGN CHOICE (notes/assumptions/1.md), unsafe: no source gives a radio's values, and no statement
rests on these. -/
def Config.initial : Config where
  nCh := 2
  preamble := 0x55555555
  syncW := 16
  syncA := 0x3C5A
  syncB := 0xC3A5
  manchPol := .first
  bitOrder := .msbFirst
  lenOrder := .big
  minBody := 0
  maxBody := 255
  tsW := 64

end Sys2Proof
end

