-- ==== Sys2Proof/Syntax.lean ====
section
/-! DEFINITION. The instructions: one constructor per row of spec/opcode_table.json. Ten rows are command words (format
cmd32); eight are the symbols that the line decoders recognise in the bits of LBIT commands on one channel (formats
line_pattern, man_pair and dir_bit). -/

namespace Sys2Proof

inductive Instr where
  /-- LBIT: one line bit `b` for channel `c` (R180). -/
  | lbit (c : ChanNo) (b : Bool)
  /-- EOS: end of stream on channel `c` (R221). -/
  | eos (c : ChanNo)
  /-- CLRC: clear the counters of channel `c` (R223). -/
  | clrc (c : ChanNo)
  /-- RDREG: read register `idx` of channel `c` (R224). -/
  | rdreg (c : ChanNo) (idx : BitVec 3)
  /-- CINIT: reset the standalone CRC register (R130). -/
  | cinit
  /-- CBYTE: fold one byte into the standalone CRC register (R131). -/
  | cbyte (data : Byte)
  /-- CRD: read the checksum of the bytes folded so far (R132). -/
  | crd
  /-- ILLEGAL_OP7: a word whose op is 7, with its other 28 bits (R228). -/
  | illegalOp7 (rest : BitVec 28)
  /-- ILLEGAL_OP8_F: a word whose op is 8 to 15, with its other 31 bits (R228). -/
  | illegalOp8F (rest : BitVec 31)
  /-- ILLEGAL_OTHER: a word with op 0 to 6 that is not legal (R93, R228). -/
  | illegalOther (cmd : Word)
  /-- SYNC_A: the window of channel `c` holds PREAMBLE followed by SYNC_A (R152). -/
  | syncA (c : ChanNo)
  /-- SYNC_B: the window of channel `c` holds PREAMBLE followed by SYNC_B (R152). -/
  | syncB (c : ChanNo)
  /-- MAN_PAIR_10: the Manchester pair 1, 0 on channel `c` (R160). -/
  | manPair10 (c : ChanNo)
  /-- MAN_PAIR_01: the Manchester pair 0, 1 on channel `c` (R160). -/
  | manPair01 (c : ChanNo)
  /-- MAN_PAIR_00: the colliding pair 0, 0 on channel `c` (R160, R166). -/
  | manPair00 (c : ChanNo)
  /-- MAN_PAIR_11: the colliding pair 1, 1 on channel `c` (R160, R166). -/
  | manPair11 (c : ChanNo)
  /-- DIR_BIT_0: the direct line bit 0 on channel `c` (R161). -/
  | dirBit0 (c : ChanNo)
  /-- DIR_BIT_1: the direct line bit 1 on channel `c` (R161). -/
  | dirBit1 (c : ChanNo)
deriving DecidableEq, Repr

end Sys2Proof
end

