-- ==== Sys2Proof/WellFormed.lean ====
section
/-! DEFINITION. Which instructions are well formed under a configuration. The command rows of spec/opcode_table.json stand
here as data (mask, pattern, and whether `ch` must be a channel), so that "matches no row" is read from the table itself;
Decode.lean reads legality from R93 instead, and Laws/Decode.lean proves that the two agree. -/

namespace Sys2Proof

/-- One command row of spec/opcode_table.json. -/
structure OpRow where
  mask : Word
  pattern : Word
  /-- The row is legal only if ch < N_CH. -/
  onChannel : Bool
deriving DecidableEq, Repr

/-- The rows LBIT, EOS, CLRC, RDREG, CINIT, CBYTE, CRD of spec/opcode_table.json. -/
def opRows : List OpRow :=
  [⟨0xFF00FFFE, 0x00000000, true⟩,
   ⟨0xFF00FFFF, 0x10000000, true⟩,
   ⟨0xFF00FFFF, 0x20000000, true⟩,
   ⟨0xFF00FFF8, 0x30000000, true⟩,
   ⟨0xFFFFFFFF, 0x40000000, false⟩,
   ⟨0xFFFFFF00, 0x50000000, false⟩,
   ⟨0xFFFFFFFF, 0x60000000, false⟩]

/-- The word is one of the row. -/
def OpRow.covers (row : OpRow) (nCh : Nat) (w : Word) : Bool :=
  (w &&& row.mask) == row.pattern && (!row.onChannel || decide ((w.extractLsb' 16 8).toNat < nCh))

/-- The word is one of a command row of the table. -/
def inCommandRow (nCh : Nat) (w : Word) : Bool :=
  opRows.any fun row => row.covers nCh w

/-- The channel exists. -/
abbrev Config.hasChan (cfg : Config) (c : ChanNo) : Prop := c.toNat < cfg.nCh

/-- An instruction that some input of the block stands for: its channel exists (R92, R93), and an `illegalOther` word has op 0
to 6 and matches no command row (ILLEGAL_OTHER's note). -/
def Instr.wf (cfg : Config) : Instr → Bool
  | .lbit c _ => decide (cfg.hasChan c)
  | .eos c => decide (cfg.hasChan c)
  | .clrc c => decide (cfg.hasChan c)
  | .rdreg c _ => decide (cfg.hasChan c)
  | .cinit => true
  | .cbyte _ => true
  | .crd => true
  | .illegalOp7 _ => true
  | .illegalOp8F _ => true
  | .illegalOther w => decide ((w.extractLsb' 28 4).toNat ≤ 6) && !inCommandRow cfg.nCh w
  | .syncA c => decide (cfg.hasChan c)
  | .syncB c => decide (cfg.hasChan c)
  | .manPair10 c => decide (cfg.hasChan c)
  | .manPair01 c => decide (cfg.hasChan c)
  | .manPair00 c => decide (cfg.hasChan c)
  | .manPair11 c => decide (cfg.hasChan c)
  | .dirBit0 c => decide (cfg.hasChan c)
  | .dirBit1 c => decide (cfg.hasChan c)

end Sys2Proof
end

