-- ==== Sys2Proof/Decode.lean ====
section
/-! DEFINITION. Decoding, written from 30_encoding.md: the fields of a command word (R91), legality (R93), the total decoder of
command words (R107), the search patterns (R150) and the decoder of line symbols (R98, R99, R152); then the encoder, written
from the same rules. -/

namespace Sys2Proof

/-! ## The fields of a command word (R90, R91) -/

def opField (w : Word) : BitVec 4 := w.extractLsb' 28 4
def rsv1Field (w : Word) : BitVec 4 := w.extractLsb' 24 4
def chField (w : Word) : ChanNo := w.extractLsb' 16 8
def rsv2Field (w : Word) : BitVec 8 := w.extractLsb' 8 8
def argField (w : Word) : BitVec 8 := w.extractLsb' 0 8
/-- `b = arg[0]`, the line bit of LBIT. -/
def bitField (w : Word) : Bool := w.getLsbD 0
/-- `idx = arg[2:0]`, the register index of RDREG. -/
def idxField (w : Word) : BitVec 3 := w.extractLsb' 0 3

/-- R93: the condition of the op's row in R92. -/
def legalOperands (nCh : Nat) (w : Word) : Bool :=
  match (opField w).toNat with
  | 0 => decide ((chField w).toNat < nCh) && (argField w).extractLsb' 1 7 == 0
  | 1 => decide ((chField w).toNat < nCh) && argField w == 0
  | 2 => decide ((chField w).toNat < nCh) && argField w == 0
  | 3 => decide ((chField w).toNat < nCh) && (argField w).extractLsb' 3 5 == 0
  | 4 => chField w == 0 && argField w == 0
  | 5 => chField w == 0
  | 6 => chField w == 0 && argField w == 0
  | _ => false

/-- R93: a command word is legal. -/
def legal (nCh : Nat) (w : Word) : Bool :=
  decide ((opField w).toNat ≤ 6) && rsv1Field w == 0 && rsv2Field w == 0 && legalOperands nCh w

/-- The command of a legal word (R92), by its op. -/
def decodeLegal (w : Word) : Instr :=
  match (opField w).toNat with
  | 0 => .lbit (chField w) (bitField w)
  | 1 => .eos (chField w)
  | 2 => .clrc (chField w)
  | 3 => .rdreg (chField w) (idxField w)
  | 4 => .cinit
  | 5 => .cbyte (argField w)
  | _ => .crd

/-- An illegal word, named by its row of spec/opcode_table.json (R94, R227). -/
def decodeIllegal (w : Word) : Instr :=
  if (opField w).toNat = 7 then .illegalOp7 (w.extractLsb' 0 28)
  else if 8 ≤ (opField w).toNat then .illegalOp8F (w.extractLsb' 0 31)
  else .illegalOther w

/-- R107: every 32-bit word decodes, by the word and N_CH alone. -/
def decode (nCh : Nat) (w : Word) : Instr :=
  if legal nCh w then decodeLegal w else decodeIllegal w

/-! ## The search patterns (R10, R14, R150) -/

/-- PAT_W, the width of the searched pattern. -/
def Config.patW (cfg : Config) : Nat := Config.preambleW + cfg.syncW

/-- `PREAMBLE ‖ sync`, first-arriving bit most significant. -/
def Config.pattern (cfg : Config) (sync : BitVec 32) : Window :=
  (cfg.preamble.setWidth 64 <<< cfg.syncW) ||| sync.setWidth 64

/-- PAT_A (R150). -/
def Config.patA (cfg : Config) : Window := cfg.pattern cfg.syncA

/-- PAT_B (R150). -/
def Config.patB (cfg : Config) : Window := cfg.pattern cfg.syncB

/-- The low `n` bits of `w` as line bits in arrival order, the most significant first (R14). -/
def bitsMsbFirst (w : Window) : Nat → List Bool
  | 0 => []
  | n + 1 => w.getLsbD n :: bitsMsbFirst w n

/-! ## Line symbols and the encoder -/

/-- What an instruction looks like at the block's input: a command word, or line bits of one channel in arrival order, in one of
the three line formats of spec/opcode_table.json. -/
inductive Code where
  | cmd (w : Word)
  | pattern (c : ChanNo) (bits : List Bool)
  | pair (c : ChanNo) (p1 p2 : Bool)
  | bit (c : ChanNo) (q : Bool)
deriving DecidableEq, Repr

/-- Why line bits stand for no symbol. -/
inductive DecodeError where
  /-- The channel number is N_CH or more. -/
  | noSuchChannel (c : ChanNo)
  /-- The bits are neither PREAMBLE followed by SYNC_A nor PREAMBLE followed by SYNC_B. -/
  | noSyncPattern
deriving DecidableEq, Repr

/-- The symbol of a Manchester pair (R98). -/
def decodePair (c : ChanNo) : Bool → Bool → Instr
  | true, false => .manPair10 c
  | false, true => .manPair01 c
  | false, false => .manPair00 c
  | true, true => .manPair11 c

/-- The symbol of a direct line bit (R99). -/
def decodeBit (c : ChanNo) : Bool → Instr
  | false => .dirBit0 c
  | true => .dirBit1 c

/-- The sync word that a searched pattern ends in, A before B (R152, R153). -/
def decodePattern (cfg : Config) (c : ChanNo) (bits : List Bool) : Except DecodeError Instr :=
  if bits = bitsMsbFirst cfg.patA cfg.patW then .ok (.syncA c)
  else if bits = bitsMsbFirst cfg.patB cfg.patW then .ok (.syncB c)
  else .error .noSyncPattern

/-- Decoding of any input. A command word always decodes (R107); line bits of a channel that does not exist, or a pattern that is
not a search pattern, are rejected by name. -/
def decodeCode (cfg : Config) : Code → Except DecodeError Instr
  | .cmd w => .ok (decode cfg.nCh w)
  | .pattern c bits => if cfg.hasChan c then decodePattern cfg c bits else .error (.noSuchChannel c)
  | .pair c p1 p2 => if cfg.hasChan c then .ok (decodePair c p1 p2) else .error (.noSuchChannel c)
  | .bit c q => if cfg.hasChan c then .ok (decodeBit c q) else .error (.noSuchChannel c)

/-- A command word from its fields (R90), the reserved fields 0. -/
def cmdWord (op : BitVec 4) (c : ChanNo) (arg : BitVec 8) : Word :=
  op ++ 0#4 ++ c ++ 0#8 ++ arg

/-- The encoding of an instruction (R90, R92 for command words; R98, R99, R102 for line symbols). -/
def encode (cfg : Config) : Instr → Code
  | .lbit c b => .cmd (cmdWord 0#4 c (0#7 ++ BitVec.ofBool b))
  | .eos c => .cmd (cmdWord 1#4 c 0#8)
  | .clrc c => .cmd (cmdWord 2#4 c 0#8)
  | .rdreg c idx => .cmd (cmdWord 3#4 c (0#5 ++ idx))
  | .cinit => .cmd (cmdWord 4#4 0#8 0#8)
  | .cbyte data => .cmd (cmdWord 5#4 0#8 data)
  | .crd => .cmd (cmdWord 6#4 0#8 0#8)
  | .illegalOp7 rest => .cmd (7#4 ++ rest)
  | .illegalOp8F rest => .cmd (1#1 ++ rest)
  | .illegalOther w => .cmd w
  | .syncA c => .pattern c (bitsMsbFirst cfg.patA cfg.patW)
  | .syncB c => .pattern c (bitsMsbFirst cfg.patB cfg.patW)
  | .manPair10 c => .pair c true false
  | .manPair01 c => .pair c false true
  | .manPair00 c => .pair c false false
  | .manPair11 c => .pair c true true
  | .dirBit0 c => .bit c false
  | .dirBit1 c => .bit c true

/-! ## Words as spec/opcode_table.json numbers their bits -/

/-- The input that a table row's word stands for. A row of 32 bits is a command word. A row of fewer bits is a line symbol, read on
channel 0: one bit is a `dir_bit`, more are a `man_pair` whose first line bit is bit 1 and second bit 0 (a value that has more bits is none).
A whole byte cannot tell the two formats apart and is read as a pair (notes/assumptions/4.md). -/
def tableCode (nbits w : Nat) : Option Code :=
  if 32 ≤ nbits then some (.cmd (BitVec.ofNat 32 w))
  else if nbits = 1 then (if w < 2 then some (.bit 0 (w.testBit 0)) else none)
  else if w < 4 then some (.pair 0 (w.testBit 1) (w.testBit 0))
  else none

/-- The instruction this decoder reads from a table row's word, under `Config.initial`. -/
def decodeTableWord (nbits w : Nat) : Option Instr :=
  match tableCode nbits w with
  | some code => (decodeCode Config.initial code).toOption
  | none => none

end Sys2Proof
end

