-- ==== Sys2Proof/Machine/State.lean ====
section
/-! DEFINITION. The state of ELSTER-RXF as plain data: the global state `g` (R32), the state of each channel (R33 to R45), the
configuration (R10), and the inputs the host has supplied and the block has not yet taken (R8, R96); the reasons a step can
stop; and the state after reset (R53, R280). -/

namespace Sys2Proof.Machine

/-- The framer state `st` (R17, R33). -/
inductive FramerState where
  | search
  | len
  | body
deriving DecidableEq, Repr

/-- The line protocol `lp` (R17, R34). -/
inductive LineProtocol where
  | man
  | dir
deriving DecidableEq, Repr

/-- The outcome of a candidate, as the field `last` holds it (R17, R45). -/
inductive CandOutcome where
  | none
  | ok
  | crcFail
  | manchErr
  | lenErr
deriving DecidableEq, Repr

/-- An output record (R97). -/
inductive Record where
  | frame (ch : ChanNo) (ts : Time) (n : BitVec 17) (bytes : List Byte)
  | rdata (ch : ChanNo) (idx : BitVec 3) (value : BitVec 32)
  | crcv (value : Half)
deriving DecidableEq, Repr

/-- What the host supplies: a command word with the TIME value of its step (R8, R96), the reset input RST (R96, R280), or a moment
at which the host takes no record, so that the block takes no command (R88). -/
inductive Event where
  | cmd (word : Word) (now : Time)
  | rst
  | hold
deriving DecidableEq, Repr

/-- The state of one channel, R33 to R45. -/
structure Channel where
  /-- R33. -/
  st : FramerState
  /-- R34. -/
  lp : LineProtocol
  /-- R35: the search window, newest bit at bit 0. -/
  sh : Window
  /-- R35: how many line bits `sh` holds since the search restarted. -/
  fill : Nat
  /-- R36: the first half of a Manchester pair is held in `hb`. -/
  hv : Bool
  /-- R36. -/
  hb : Bool
  /-- R37: the data bits of the byte in progress. -/
  acc : Byte
  /-- R37: how many of them have arrived. -/
  nb : Nat
  /-- R39: the sticky Manchester-pair-collision flag. -/
  coll : Bool
  /-- R40: how many length-field bytes have been completed. -/
  lcnt : Nat
  /-- R40: the length-field bytes assembled so far. -/
  lenb : Half
  /-- R41: `L`, the decoded length value. -/
  len : Half
  /-- R41: how many frame bytes are still to be collected. -/
  rem : Nat
  /-- R42: the frame buffer, entries 0, 1, ..., FRAME_MAX - 1. -/
  buf : List Byte
  /-- R42: the index of the next write, which is how many frame bytes the candidate has. -/
  wptr : Nat
  /-- R43: the arrival timestamp, TS_W bits. -/
  ts : Time
  /-- R44. -/
  cntOk : BitVec 32
  /-- R44. -/
  cntCrc : BitVec 32
  /-- R44. -/
  cntMan : BitVec 32
  /-- R44. -/
  cntLen : BitVec 32
  /-- R45. -/
  last : CandOutcome
deriving DecidableEq, Repr

/-- A channel after reset (R53). R42 and R53 leave the FRAME_MAX entries of the buffer unspecified, and U1 lets a model zero them: they
are 0. DESIGN CHOICE (notes/assumptions/9.md), unsafe: no statement rests on these values. -/
def Channel.reset (cfg : Config) : Channel where
  st := .search
  lp := .man
  sh := 0#64
  fill := 0
  hv := false
  hb := false
  acc := 0#8
  nb := 0
  coll := false
  lcnt := 0
  lenb := 0#16
  len := 0#16
  rem := 0
  buf := List.replicate cfg.frameMax 0#8
  wptr := 0
  ts := 0#64
  cntOk := 0#32
  cntCrc := 0#32
  cntMan := 0#32
  cntLen := 0#32
  last := .none

/-- The machine. -/
structure State where
  /-- The build-time parameters (R10). -/
  cfg : Config
  /-- `g.crc_s` (R32). -/
  crcS : Half
  /-- `g.ill` (R32). -/
  ill : Bool
  /-- The output record stream, in production order (R32). -/
  out : List Record
  /-- The channels 0, 1, ..., N_CH - 1. -/
  chans : List Channel
  /-- What the host has supplied and the block has not yet taken, next first (R8). -/
  input : List Event
  /-- The value on the TIME input in the step being taken (R96). -/
  now : Time
  /-- RST has been asserted since power-on (R282). -/
  started : Bool
deriving DecidableEq, Repr

/-- No command, line bit or record stops the block with a fault: R250 and R264 say that none exists, so the type has no
constructor. -/
inductive Fault
deriving DecidableEq, Repr

/-- Why a step has no meaning. -/
inductive Refusal where
  /-- Raised by an arm of `exec` that has no meaning yet. No arm does. Safe. -/
  | notModelled (mnemonic : String)
  /-- Raised by `step` under a configuration outside R10 and R12, which must not be instantiated (R12, U12). Safe. -/
  | illegalConfig
  /-- Raised by `step` for a command before the first reset, to which no meaning may be given (R282, U3). Safe. -/
  | beforeReset
deriving DecidableEq, Repr

/-- The machine of a configuration right after reset (R53, R280), with nothing supplied and no record produced yet. -/
def State.resetOf (cfg : Config) : State where
  cfg := cfg
  crcS := 0xFFFF#16
  ill := false
  out := []
  chans := List.replicate cfg.nCh (Channel.reset cfg)
  input := []
  now := 0#64
  started := true

/-- The machine right after reset, under `Config.initial`. -/
def State.reset : State := State.resetOf Config.initial

end Sys2Proof.Machine
end

