-- ==== Sys2Proof/Machine/Operands.lean ====
section
/-! DEFINITION. The values that rules read: the constants of a line protocol (R18), numeric codes (R17), truncation to a
parameter's width, and the register view that RDREG reads (R46 to R48). -/

namespace Sys2Proof.Machine

/-! ## Line-protocol constants (R18) -/

/-- Line bits per data bit. -/
def LineProtocol.bpd : LineProtocol → Nat
  | .man => 2
  | .dir => 1

/-- LW, the length-field bytes. -/
def LineProtocol.lw : LineProtocol → Nat
  | .man => 1
  | .dir => 2

/-- MASK, the whitening mask (R100). -/
def LineProtocol.mask : LineProtocol → Byte
  | .man => 0x55#8
  | .dir => 0xAA#8

/-! ## Numeric codes (R17) -/

def FramerState.code : FramerState → BitVec 2
  | .search => 0#2
  | .len => 1#2
  | .body => 2#2

def LineProtocol.code : LineProtocol → BitVec 1
  | .man => 0#1
  | .dir => 1#1

def CandOutcome.code : CandOutcome → BitVec 3
  | .none => 0#3
  | .ok => 1#3
  | .crcFail => 2#3
  | .manchErr => 3#3
  | .lenErr => 4#3

/-! ## Widths -/

/-- `v[n-1:0]`, zero-extended to the carrier's 64 bits (R13). -/
def lowBits (n : Nat) (v : BitVec 64) : BitVec 64 := (v.setWidth n).setWidth 64

/-! ## The register view (R46) -/

/-- STATE, idx 4 (R47). -/
def Channel.stateReg (ch : Channel) : BitVec 32 :=
  0#25 ++ ch.last.code ++ 0#1 ++ ch.lp.code ++ ch.st.code

/-- GSTATUS, idx 7 (R48). -/
def State.gstatus (s : State) : BitVec 32 :=
  BitVec.ofNat 16 s.cfg.maxBody ++ BitVec.ofNat 8 (s.cfg.nCh - 1) ++ 0#7 ++ BitVec.ofBool s.ill

/-- Channel `c`. A number that is no channel reads as a channel after reset; no command the decoder accepts has one. -/
def State.chan (s : State) (c : ChanNo) : Channel := s.chans.getD c.toNat (Channel.reset s.cfg)

/-- The register at (c, idx), as RDREG reads it (R46, R224). -/
def State.regView (s : State) (c : ChanNo) (idx : BitVec 3) : BitVec 32 :=
  match idx.toNat with
  | 0 => (s.chan c).cntOk
  | 1 => (s.chan c).cntCrc
  | 2 => (s.chan c).cntMan
  | 3 => (s.chan c).cntLen
  | 4 => (s.chan c).stateReg
  | 5 => 0#32
  | 6 => 0#32
  | _ => s.gstatus

end Sys2Proof.Machine
end

