-- ==== Sys2Proof/Machine/Flags.lean ====
section
/-! DEFINITION. The flags of R49 (`coll` and `hv` of a channel, and `g.ill`), the outcome counters of R44 and the field `last` of
R45: each place where a rule writes one of them. -/

namespace Sys2Proof.Machine

/-- R160: the second half of a pair ends the pair, and two equal halves set the sticky collision flag. -/
def Channel.pairFlags (p1 p2 : Bool) (ch : Channel) : Channel :=
  { ch with hv := false, coll := ch.coll || p1 == p2 }

/-- R228: `g.ill <- 1`. -/
def State.setIll (s : State) : State := { s with ill := true }

/-- R225: `g.ill <- 0`. -/
def State.clearIll (s : State) : State := { s with ill := false }

/-- R191: the counter of an outcome, modulo 2^32, and `last`. No candidate ends with NONE. -/
def Channel.count (k : CandOutcome) (ch : Channel) : Channel :=
  match k with
  | .none => { ch with last := .none }
  | .ok => { ch with cntOk := ch.cntOk + 1#32, last := .ok }
  | .crcFail => { ch with cntCrc := ch.cntCrc + 1#32, last := .crcFail }
  | .manchErr => { ch with cntMan := ch.cntMan + 1#32, last := .manchErr }
  | .lenErr => { ch with cntLen := ch.cntLen + 1#32, last := .lenErr }

/-- R223: the four counters and `last` are cleared. -/
def Channel.clearCounts (ch : Channel) : Channel :=
  { ch with cntOk := 0#32, cntCrc := 0#32, cntMan := 0#32, cntLen := 0#32, last := .none }

end Sys2Proof.Machine
end

