-- ==== Sys2Proof/Machine/Ops.lean ====
section
/-! DEFINITION. The named operations over the state that several rules share: `emit`, a change of one channel, `append`,
`restart_search`, the end of a candidate `outcome`, `illegal` and the reset event. ELSTER-RXF takes no exception and returns
from none (R250, R255, R256); the end of a candidate (R191) is its nearest analogue and stands here once, for every rule that
ends one. -/

namespace Sys2Proof.Machine

/-- `emit(R)` (R16, R32). -/
def State.emit (s : State) (r : Record) : State := { s with out := s.out ++ [r] }

/-- The record a rule produced, if it produced one. -/
def State.emitOpt (s : State) : Option Record → State
  | some r => s.emit r
  | none => s

/-- Channel `c` becomes `ch`. -/
def State.setChan (s : State) (c : ChanNo) (ch : Channel) : State :=
  { s with chans := s.chans.set c.toNat ch }

/-- A rule of channel `c` reads and writes channel `c` alone, and may produce one record (R38). -/
def State.onChan (s : State) (c : ChanNo) (f : Channel → Channel × Option Record) : State :=
  (s.setChan c (f (s.chan c)).1).emitOpt (f (s.chan c)).2

/-- `append(c, y)` (R16, R42): the entry at `wptr` is written and `wptr` moves past it. No rule appends with `wptr` beyond the last
entry (R42); there no entry would be written. -/
def Channel.append (y : Byte) (ch : Channel) : Channel :=
  { ch with buf := ch.buf.set ch.wptr y, wptr := ch.wptr + 1 }

/-- The candidate's frame bytes `buf[c][0..wptr-1]` (R181). -/
def Channel.frame (ch : Channel) : List Byte := ch.buf.take ch.wptr

/-- `restart_search(c)` (R192). -/
def Channel.restart (ch : Channel) : Channel :=
  { ch with
    st := .search
    sh := 0#64, fill := 0
    hv := false, hb := false
    acc := 0#8, nb := 0
    coll := false
    lcnt := 0, lenb := 0#16
    rem := 0
    wptr := 0 }

/-- `outcome(c, k)` (R191): count, note, and search again. -/
def Channel.outcome (k : CandOutcome) (ch : Channel) : Channel := (ch.count k).restart

/-- `illegal()` (R228): the whole effect of an illegal word. -/
def State.illegal (s : State) : State := s.setIll

/-- The reset event (R280): every field of `g` and of every channel takes its value of R53. Records already produced stay (R281), and
so does what the host has supplied. -/
def State.rst (s : State) : State :=
  { s with
    crcS := 0xFFFF#16
    ill := false
    chans := List.replicate s.cfg.nCh (Channel.reset s.cfg)
    started := true }

end Sys2Proof.Machine
end

