-- ==== Sys2Proof/Machine/HostCommands.lean ====
section
/-! DEFINITION. The meanings of the host commands EOS, CLRC and RDREG (R221 to R226) and of illegal words (R228). -/

namespace Sys2Proof.Machine

/-- EOS (R221). -/
def execEos (c : ChanNo) (s : State) : Host.Outcome State Fault Refusal := .next (s.setChan c (s.chan c).restart)

/-- CLRC (R223). -/
def execClrc (c : ChanNo) (s : State) : Host.Outcome State Fault Refusal := .next (s.setChan c (s.chan c).clearCounts)

/-- RDREG (R224): the record holds the register as it was; a read of GSTATUS then clears `g.ill` (R225). -/
def execRdreg (c : ChanNo) (idx : BitVec 3) (s : State) : Host.Outcome State Fault Refusal :=
  let s' := s.emit (.rdata c idx (s.regView c idx))
  .next (if idx = 7#3 then s'.clearIll else s')

/-- ILLEGAL_OP7 (R228). The word's other bits have no effect. -/
def execIllegalOp7 (_rest : BitVec 28) (s : State) : Host.Outcome State Fault Refusal := .next s.illegal

/-- ILLEGAL_OP8_F (R228). The word's other bits have no effect. -/
def execIllegalOp8F (_rest : BitVec 31) (s : State) : Host.Outcome State Fault Refusal := .next s.illegal

/-- ILLEGAL_OTHER (R228). The word's other bits have no effect. -/
def execIllegalOther (_cmd : Word) (s : State) : Host.Outcome State Fault Refusal := .next s.illegal

end Sys2Proof.Machine
end

