-- ==== Sys2Proof/Machine/Crc.lean ====
section
/-! DEFINITION. The CRC-X25 validator (R120 to R126) and the meanings of CINIT, CBYTE and CRD (R130 to R132). -/

namespace Sys2Proof.Machine

/-- `crc_bit(c, m)` (R121). -/
def crcBit (c : Half) (m : Bool) : Half :=
  if c.getLsbD 0 ^^ m then (c >>> 1) ^^^ 0x8408#16 else c >>> 1

/-- The bits of a byte, bit 0 first (R76, R122). -/
def byteBits (d : Byte) : List Bool := [0, 1, 2, 3, 4, 5, 6, 7].map d.getLsbD

/-- `crc_byte(c, d)` (R122). -/
def crcByte (c : Half) (d : Byte) : Half := (byteBits d).foldl crcBit c

/-- The register after a byte sequence, without the final complement. -/
def crcBytes (c : Half) (s : List Byte) : Half := s.foldl crcByte c

/-- `checksum(s)` (R123). -/
def checksum (s : List Byte) : Half := crcBytes 0xFFFF#16 s ^^^ 0xFFFF#16

/-- `ser(v)` (R124): the low byte first. -/
def ser (v : Half) : List Byte := [v.extractLsb' 0 8, v.extractLsb' 8 8]

/-- The 16-bit value of two serialised bytes, the low byte first (R125). -/
def deser (lo hi : Byte) : Half := (hi.setWidth 16 <<< 8) ||| lo.setWidth 16

/-- `valid(F)` (R125, R126). -/
def valid (f : List Byte) : Bool :=
  decide (2 ≤ f.length) &&
    checksum (f.take (f.length - 2)) == deser (f.getD (f.length - 2) 0#8) (f.getD (f.length - 1) 0#8)

/-- CINIT (R130). -/
def execCinit (s : State) : Host.Outcome State Fault Refusal := .next { s with crcS := 0xFFFF#16 }

/-- CBYTE (R131). -/
def execCbyte (data : Byte) (s : State) : Host.Outcome State Fault Refusal :=
  .next { s with crcS := crcByte s.crcS data }

/-- CRD (R132). -/
def execCrd (s : State) : Host.Outcome State Fault Refusal := .next (s.emit (.crcv (s.crcS ^^^ 0xFFFF#16)))

end Sys2Proof.Machine
end

