-- ==== Sys2Proof/Machine/Framer.lean ====
section
/-! DEFINITION. The length-prefixed frame extractor: what a completed frame byte does (R181 to R189). A function that may produce
a record answers it beside the new channel. -/

namespace Sys2Proof.Machine

/-- The FRAME record of the candidate of channel `c` (R189). -/
def Channel.frameRecord (c : ChanNo) (ch : Channel) : Record :=
  .frame c ch.ts (BitVec.ofNat 17 ch.frame.length) ch.frame

/-- `enter_body(c)` (R185). -/
def Channel.enterBody (ch : Channel) : Channel := { ch with st := .body, rem := ch.len.toNat + 2 }

/-- R184: the length value is acceptable. -/
def lenAccepted (cfg : Config) (len : Half) : Bool :=
  decide (cfg.minBody ≤ len.toNat) && decide (len.toNat ≤ cfg.maxBody)

/-- `length_done(c)` (R184): MANCH_ERR, then LEN_ERR, then the body. -/
def Channel.lengthDone (cfg : Config) (ch : Channel) : Channel :=
  if ch.coll then ch.outcome .manchErr
  else if lenAccepted cfg ch.lenb then { ch with len := ch.lenb }.enterBody
  else { ch with len := ch.lenb }.outcome .lenErr

/-- R182: `lenb` with the length-field byte `y`, which is byte number `lcnt` of the field, added. -/
def addLengthByte (cfg : Config) (lp : LineProtocol) (lcnt : Nat) (lenb : Half) (y : Byte) : Half :=
  if cfg.lenOrder = .big ∨ lp.lw = 1 then (lenb <<< 8) ||| y.setWidth 16
  else lenb ||| (y.setWidth 16 <<< (8 * lcnt))

/-- `length_byte(c, y)` (R182). -/
def Channel.lengthByte (cfg : Config) (y : Byte) (ch : Channel) : Channel :=
  let ch' := { ch with lcnt := ch.lcnt + 1, lenb := addLengthByte cfg ch.lp ch.lcnt ch.lenb y }
  if ch'.lcnt = ch'.lp.lw then ch'.lengthDone cfg else ch'

/-- `body_done(c)` (R188): MANCH_ERR, then OK or CRC_FAIL. -/
def Channel.bodyDone (c : ChanNo) (ch : Channel) : Channel × Option Record :=
  if ch.coll then (ch.outcome .manchErr, none)
  else if valid ch.frame then (ch.outcome .ok, some (ch.frameRecord c))
  else (ch.outcome .crcFail, none)

/-- `body_byte(c)` (R187). -/
def Channel.bodyByte (c : ChanNo) (ch : Channel) : Channel × Option Record :=
  let ch' := { ch with rem := ch.rem - 1 }
  if ch'.rem = 0 then ch'.bodyDone c else (ch', none)

/-- `frame_byte(c, y)` (R181). -/
def Channel.frameByte (cfg : Config) (c : ChanNo) (y : Byte) (ch : Channel) : Channel × Option Record :=
  let ch' := ch.append y
  if ch'.st = .len then (ch'.lengthByte cfg y, none) else ch'.bodyByte c

end Sys2Proof.Machine
end

