-- ==== Sys2Proof/Machine/LineCode.lean ====
section
/-! DEFINITION. The preamble and sync-word detector, the line decoders and byte assembly (R150 to R167); the LBIT command that
drives them (R180); and the meanings of the line symbols: the two sync words, the four Manchester pairs and the two direct line
bits. LBIT and the line symbols run over the same channel operations. -/

namespace Sys2Proof.Machine

/-! ## Searching (R151 to R154) -/

/-- R151: the search shift. -/
def Channel.searchShift (cfg : Config) (b : Bool) (ch : Channel) : Channel :=
  { ch with
    sh := lowBits cfg.patW ((ch.sh <<< 1) ||| (BitVec.ofBool b).setWidth 64)
    fill := min (ch.fill + 1) cfg.patW }

/-- R152: the window is full and holds the pattern. -/
def Channel.windowIs (cfg : Config) (pat : Window) (ch : Channel) : Bool :=
  ch.fill == cfg.patW && ch.sh == pat

/-- `sync_match(c, p)` (R154). -/
def Channel.syncMatch (cfg : Config) (now : Time) (p : LineProtocol) (ch : Channel) : Channel :=
  { ch with
    lp := p
    st := .len
    hv := false, hb := false
    acc := 0#8, nb := 0
    coll := false
    lcnt := 0, lenb := 0#16
    wptr := 0
    ts := lowBits cfg.tsW now }

/-- The match test (R152), sync word A first (R153). -/
def Channel.matchTest (cfg : Config) (now : Time) (ch : Channel) : Channel :=
  if ch.windowIs cfg cfg.patA then ch.syncMatch cfg now .man
  else if ch.windowIs cfg cfg.patB then ch.syncMatch cfg now .dir
  else ch

/-! ## Byte assembly (R163, R164) -/

/-- R163: the byte in progress with the data bit `d` added. -/
def addDataBit (order : BitOrder) (acc : Byte) (d : Bool) : Byte :=
  match order with
  | .msbFirst => (acc <<< 1) ||| (BitVec.ofBool d).setWidth 8
  | .lsbFirst => (acc >>> 1) ||| ((BitVec.ofBool d).setWidth 8 <<< 7)

/-- Byte assembly on delivery of data bit `d` (R163); a completed raw byte is de-whitened (R164) and becomes a frame byte. -/
def Channel.deliver (cfg : Config) (c : ChanNo) (d : Bool) (ch : Channel) : Channel × Option Record :=
  let acc := addDataBit cfg.bitOrder ch.acc d
  if ch.nb + 1 = 8 then { ch with acc := 0#8, nb := 0 }.frameByte cfg c (acc ^^^ ch.lp.mask)
  else ({ ch with acc := acc, nb := ch.nb + 1 }, none)

/-! ## Line decoders (R158 to R161) -/

/-- The data bit of a Manchester pair (R98). A colliding pair has none, and R160 delivers 0 in its place. -/
def pairData (pol : ManchPol) (p1 p2 : Bool) : Bool :=
  if p1 = p2 then false
  else
    match pol with
    | .first => p1
    | .second => p2

/-- R160, first half of a pair: latched, no data bit. -/
def Channel.latch (b : Bool) (ch : Channel) : Channel := { ch with hb := b, hv := true }

/-- R160, a pair is complete. -/
def Channel.pair (cfg : Config) (c : ChanNo) (p1 p2 : Bool) (ch : Channel) : Channel × Option Record :=
  (ch.pairFlags p1 p2).deliver cfg c (pairData cfg.manchPol p1 p2)

/-- The Manchester decoder (R160). -/
def Channel.manchester (cfg : Config) (c : ChanNo) (b : Bool) (ch : Channel) : Channel × Option Record :=
  if ch.hv then ch.pair cfg c ch.hb b else (ch.latch b, none)

/-- The direct decoder (R161): inverted. -/
def Channel.direct (cfg : Config) (c : ChanNo) (b : Bool) (ch : Channel) : Channel × Option Record :=
  ch.deliver cfg c (!b)

/-- LBIT on one channel (R180). -/
def Channel.lineBit (cfg : Config) (c : ChanNo) (now : Time) (b : Bool) (ch : Channel) : Channel × Option Record :=
  match ch.st with
  | .search => ((ch.searchShift cfg b).matchTest cfg now, none)
  | .len | .body =>
    match ch.lp with
    | .man => ch.manchester cfg c b
    | .dir => ch.direct cfg c b

/-- LBIT (R180). -/
def execLbit (c : ChanNo) (b : Bool) (s : State) : Host.Outcome State Fault Refusal :=
  .next (s.onChan c (Channel.lineBit s.cfg c s.now b))

/-! ## Line symbols

A line symbol is recognised in the line bits of one channel, within the LBIT that completes it: a sync word by the match test when
the window holds its pattern, a Manchester pair by the Manchester decoder when the latch holds its first half, and a direct bit by
the direct decoder. On a channel where its decoder is not at that point a symbol is not recognised, and nothing changes
(notes/assumptions/3.md). -/

/-- A sync word on channel `c`: the window holds `PREAMBLE ‖ SYNC` of the protocol (R152). Sync word A takes priority (R153). -/
def Channel.syncSymbol (cfg : Config) (now : Time) (p : LineProtocol) (ch : Channel) : Channel :=
  match p with
  | .man => if ch.st = .search ∧ ch.windowIs cfg cfg.patA then ch.syncMatch cfg now .man else ch
  | .dir =>
    if ch.st = .search ∧ ch.windowIs cfg cfg.patB ∧ !ch.windowIs cfg cfg.patA then ch.syncMatch cfg now .dir else ch

/-- The Manchester decoder is at the second half of a pair whose first half is `p1` (R158, R160). -/
def Channel.pairDue (p1 : Bool) (ch : Channel) : Bool :=
  ch.st != .search && ch.lp == .man && ch.hv && ch.hb == p1

/-- A Manchester pair on one channel (R160). -/
def Channel.pairSymbol (cfg : Config) (c : ChanNo) (p1 p2 : Bool) (ch : Channel) : Channel × Option Record :=
  if ch.pairDue p1 then ch.pair cfg c p1 p2 else (ch, none)

/-- The direct decoder runs (R158). -/
def Channel.directDue (ch : Channel) : Bool := ch.st != .search && ch.lp == .dir

/-- A direct line bit on one channel (R161). -/
def Channel.directSymbol (cfg : Config) (c : ChanNo) (q : Bool) (ch : Channel) : Channel × Option Record :=
  if ch.directDue then ch.direct cfg c q else (ch, none)

/-- SYNC_A (R152, R154). -/
def execSyncA (c : ChanNo) (s : State) : Host.Outcome State Fault Refusal :=
  .next (s.setChan c ((s.chan c).syncSymbol s.cfg s.now .man))

/-- SYNC_B (R152, R154). -/
def execSyncB (c : ChanNo) (s : State) : Host.Outcome State Fault Refusal :=
  .next (s.setChan c ((s.chan c).syncSymbol s.cfg s.now .dir))

/-- MAN_PAIR_10 (R160). -/
def execManPair10 (c : ChanNo) (s : State) : Host.Outcome State Fault Refusal :=
  .next (s.onChan c (Channel.pairSymbol s.cfg c true false))

/-- MAN_PAIR_01 (R160). -/
def execManPair01 (c : ChanNo) (s : State) : Host.Outcome State Fault Refusal :=
  .next (s.onChan c (Channel.pairSymbol s.cfg c false true))

/-- MAN_PAIR_00, a collision (R160, R166). -/
def execManPair00 (c : ChanNo) (s : State) : Host.Outcome State Fault Refusal :=
  .next (s.onChan c (Channel.pairSymbol s.cfg c false false))

/-- MAN_PAIR_11, a collision (R160, R166). -/
def execManPair11 (c : ChanNo) (s : State) : Host.Outcome State Fault Refusal :=
  .next (s.onChan c (Channel.pairSymbol s.cfg c true true))

/-- DIR_BIT_0 (R161). -/
def execDirBit0 (c : ChanNo) (s : State) : Host.Outcome State Fault Refusal :=
  .next (s.onChan c (Channel.directSymbol s.cfg c false))

/-- DIR_BIT_1 (R161). -/
def execDirBit1 (c : ChanNo) (s : State) : Host.Outcome State Fault Refusal :=
  .next (s.onChan c (Channel.directSymbol s.cfg c true))

end Sys2Proof.Machine
end

