-- ==== Sys2Proof/Machine/Dispatch.lean ====
section
/-! DEFINITION. One arm per instruction. -/

namespace Sys2Proof.Machine

def exec (i : Instr) (s : State) : Host.Outcome State Fault Refusal :=
  match i with
  | .lbit c b => Sys2Proof.Machine.execLbit c b s
  | .eos c => Sys2Proof.Machine.execEos c s
  | .clrc c => Sys2Proof.Machine.execClrc c s
  | .rdreg c idx => Sys2Proof.Machine.execRdreg c idx s
  | .cinit => Sys2Proof.Machine.execCinit s
  | .cbyte data => Sys2Proof.Machine.execCbyte data s
  | .crd => Sys2Proof.Machine.execCrd s
  | .illegalOp7 rest => Sys2Proof.Machine.execIllegalOp7 rest s
  | .illegalOp8F rest => Sys2Proof.Machine.execIllegalOp8F rest s
  | .illegalOther cmd => Sys2Proof.Machine.execIllegalOther cmd s
  | .syncA c => Sys2Proof.Machine.execSyncA c s
  | .syncB c => Sys2Proof.Machine.execSyncB c s
  | .manPair10 c => Sys2Proof.Machine.execManPair10 c s
  | .manPair01 c => Sys2Proof.Machine.execManPair01 c s
  | .manPair00 c => Sys2Proof.Machine.execManPair00 c s
  | .manPair11 c => Sys2Proof.Machine.execManPair11 c s
  | .dirBit0 c => Sys2Proof.Machine.execDirBit0 c s
  | .dirBit1 c => Sys2Proof.Machine.execDirBit1 c s

end Sys2Proof.Machine
end

