-- ==== Sys2Proof/Machine/Step.lean ====
section
/-! DEFINITION. One step: the block takes the next thing the host has supplied (R8, R220), and the placing of an instruction where
the next step takes it. -/

namespace Sys2Proof.Machine

/-- One step. A configuration outside R10 and R12 is refused, and so is a command before the first reset (R282). With nothing
supplied the block waits (R263). -/
def step (s : State) : Host.Outcome State Fault Refusal :=
  if s.cfg.Wf then
    match s.input with
    | [] => .next s
    | .hold :: rest => .next { s with input := rest }
    | .rst :: rest => .next { s with input := rest }.rst
    | .cmd w now :: rest =>
      if s.started then exec (decode s.cfg.nCh w) { s with input := rest, now := now } else .refused .beforeReset
  else .refused .illegalConfig

/-- The command word placed first in the host's command stream, its TIME value 0, on a block that has been reset. -/
def State.supply (s : State) (w : Word) : State := { s with input := .cmd w 0#64 :: s.input, started := true }

/-- The LBIT command that completes the line symbol of `code` on its channel, the channel standing where its decoder is due to
recognise the symbol: a candidate in its length field, of the symbol's line protocol, with the pair's first half latched. -/
def State.supplySymbol (s : State) (code : Code) : State :=
  match code with
  | .cmd w => s.supply w
  | .pair c p1 p2 =>
    (s.setChan c { s.chan c with st := .len, lp := .man, hv := true, hb := p1 }).supply (cmdWord 0#4 c (if p2 then 1#8 else 0#8))
  | .bit c q => (s.setChan c { s.chan c with st := .len, lp := .dir }).supply (cmdWord 0#4 c (if q then 1#8 else 0#8))
  | .pattern _ _ => s

/-- `s` with a table row's instruction where `step` takes its next one. -/
def State.withFetchWord (s : State) (nbits w : Nat) : State :=
  match tableCode nbits w with
  | some code => s.supplySymbol code
  | none => s

end Sys2Proof.Machine
end

