-- ==== Sys2Proof/Machine/Asm.lean ====
section
/-! DEFINITION. The sending side of the line (R98 to R102) and the spec's assembler (R105, R106): the line bits of a frame, the
expansion of every command form and pseudo-instruction into command words, and the text syntax. The machine does not use this
file; statements about whole frames are made in its terms. -/

namespace Sys2Proof.Machine

/-! ## On-air layout (R98 to R102) -/

/-- The 8 data bits of a raw byte in BIT_ORDER, first sent first (R73, R102). -/
def dataBits (order : BitOrder) (r : Byte) : List Bool :=
  match order with
  | .msbFirst => (byteBits r).reverse
  | .lsbFirst => byteBits r

/-- The line bits of one data bit: a Manchester pair (R98), or one inverted bit (R99). -/
def codeBit (pol : ManchPol) (lp : LineProtocol) (d : Bool) : List Bool :=
  match lp, pol with
  | .man, .first => [d, !d]
  | .man, .second => [!d, d]
  | .dir, _ => [!d]

/-- `LC(y)`, the line coding of frame byte `y` (R102). -/
def lineCode (cfg : Config) (lp : LineProtocol) (y : Byte) : List Bool :=
  (dataBits cfg.bitOrder (y ^^^ lp.mask)).flatMap (codeBit cfg.manchPol lp)

/-- The preamble and the sync word that selects `lp`, in arrival order (R102). -/
def header (cfg : Config) (lp : LineProtocol) : List Bool :=
  match lp with
  | .man => bitsMsbFirst cfg.patA cfg.patW
  | .dir => bitsMsbFirst cfg.patB cfg.patW

/-- The length field of a frame with `k` body bytes (R101). -/
def lenBytes (cfg : Config) (lp : LineProtocol) (k : Nat) : List Byte :=
  match lp, cfg.lenOrder with
  | .man, _ => [BitVec.ofNat 8 k]
  | .dir, .big => [BitVec.ofNat 8 (k / 256), BitVec.ofNat 8 k]
  | .dir, .little => [BitVec.ofNat 8 k, BitVec.ofNat 8 (k / 256)]

/-- The frame of a body: length field, body and serialised checksum of the two (R101). -/
def frameOf (cfg : Config) (lp : LineProtocol) (body : List Byte) : List Byte :=
  let m := lenBytes cfg lp body.length ++ body
  m ++ ser (checksum m)

/-- The on-air layout of the frame of a body (R102). -/
def airBits (cfg : Config) (lp : LineProtocol) (body : List Byte) : List Bool :=
  header cfg lp ++ (frameOf cfg lp body).flatMap (lineCode cfg lp)

/-! ## Assembler (R105, R106) -/

/-- One line of assembler: a command form or the raw directive (R105), or a pseudo-instruction (R106). -/
inductive Asm where
  | lbit (c b : Nat)
  | eos (c : Nat)
  | clrc (c : Nat)
  | rdreg (c idx : Nat)
  | cinit
  | cbyte (d : Nat)
  | crd
  | word (w : Nat)
  | lbits (c : Nat) (bits : List Bool)
  | lhdr (c : Nat) (lp : LineProtocol)
  | mframe (c : Nat) (body : List Nat)
  | dframe (c : Nat) (body : List Nat)
  | cbytes (ds : List Nat)
  | crcof (ds : List Nat)
  | rdall (c : Nat)
deriving DecidableEq, Repr

/-- The LBIT words of line bits on a channel. -/
def lbitWords (c : ChanNo) (bits : List Bool) : List Word :=
  bits.map fun b => cmdWord 0#4 c (0#7 ++ BitVec.ofBool b)

/-- The CBYTE words of bytes. -/
def cbyteWords (ds : List Byte) : List Word := ds.map (cmdWord 5#4 0#8)

/-- A channel operand: in range, or an assembly error (R105). -/
def chanOperand (cfg : Config) (c : Nat) : Option ChanNo :=
  if c < cfg.nCh then some (BitVec.ofNat 8 c) else none

/-- Byte operands: in range, or an assembly error (R105). -/
def byteOperands (ds : List Nat) : Option (List Byte) :=
  if ds.all (decide <| · < 256) then some (ds.map (BitVec.ofNat 8)) else none

/-- The words of one line (R105, R106); none is an assembly error. -/
def assemble (cfg : Config) : Asm → Option (List Word)
  | .lbit c b =>
    match chanOperand cfg c with
    | some c => if b < 2 then some (lbitWords c [b == 1]) else none
    | none => none
  | .eos c => (chanOperand cfg c).map fun c => [cmdWord 1#4 c 0#8]
  | .clrc c => (chanOperand cfg c).map fun c => [cmdWord 2#4 c 0#8]
  | .rdreg c idx =>
    match chanOperand cfg c with
    | some c => if idx < 8 then some [cmdWord 3#4 c (BitVec.ofNat 8 idx)] else none
    | none => none
  | .cinit => some [cmdWord 4#4 0#8 0#8]
  | .cbyte d => (byteOperands [d]).map cbyteWords
  | .crd => some [cmdWord 6#4 0#8 0#8]
  | .word w => if w < 2 ^ 32 then some [BitVec.ofNat 32 w] else none
  | .lbits c bits => (chanOperand cfg c).map fun c => lbitWords c bits
  | .lhdr c lp => (chanOperand cfg c).map fun c => lbitWords c (header cfg lp)
  | .mframe c body =>
    match chanOperand cfg c, byteOperands body with
    | some c, some body => if body.length ≤ 255 then some (lbitWords c (airBits cfg .man body)) else none
    | _, _ => none
  | .dframe c body =>
    match chanOperand cfg c, byteOperands body with
    | some c, some body => if body.length ≤ 65535 then some (lbitWords c (airBits cfg .dir body)) else none
    | _, _ => none
  | .cbytes ds => (byteOperands ds).map cbyteWords
  | .crcof ds => (byteOperands ds).map fun ds => cmdWord 4#4 0#8 0#8 :: cbyteWords ds ++ [cmdWord 6#4 0#8 0#8]
  | .rdall c => (chanOperand cfg c).map fun c => [cmdWord 3#4 c 0#8, cmdWord 3#4 c 1#8, cmdWord 3#4 c 2#8, cmdWord 3#4 c 3#8, cmdWord 3#4 c 4#8]

/-! ## Text syntax (R105) -/

/-- The value of a digit in a base of at most 16. -/
def digitValue (base : Nat) (ch : Char) : Option Nat :=
  let v :=
    if '0' ≤ ch ∧ ch ≤ '9' then ch.toNat - '0'.toNat
    else if 'a' ≤ ch ∧ ch ≤ 'f' then ch.toNat - 'a'.toNat + 10
    else if 'A' ≤ ch ∧ ch ≤ 'F' then ch.toNat - 'A'.toNat + 10
    else base
  if v < base then some v else none

/-- Digits read left to right onto `acc`. -/
def readDigits (base : Nat) (acc : Nat) : List Char → Option Nat
  | [] => some acc
  | ch :: rest => do
    let v ← digitValue base ch
    readDigits base (acc * base + v) rest

/-- A number: decimal, or hexadecimal after `0x`. -/
def readNumber : List Char → Option Nat
  | [] => none
  | ['0', 'x'] => none
  | '0' :: 'x' :: digits => readDigits 16 0 digits
  | digits => readDigits 10 0 digits

/-- Without blanks at either end. -/
def trimBlanks (text : List Char) : List Char :=
  ((text.dropWhile Char.isWhitespace).reverse.dropWhile Char.isWhitespace).reverse

/-- The line bits of a quoted string; blanks and `_` are ignored (R106). -/
def readBits : List Char → Option (List Bool)
  | [] => some []
  | ch :: rest =>
    if ch = '0' then (readBits rest).map (false :: ·)
    else if ch = '1' then (readBits rest).map (true :: ·)
    else if ch = ' ' ∨ ch = '_' then readBits rest
    else none

/-- A string in double quotes. -/
def readQuoted (text : List Char) : Option (List Char) :=
  if 2 ≤ text.length ∧ text.head? = some '"' ∧ text.getLast? = some '"' then some (text.tail.dropLast) else none

/-- A line of the mnemonic `name` with its operands, or none where no form has them. -/
def readForm (name : List Char) (operands : List (List Char)) : Option Asm :=
  let numbers := operands.mapM readNumber
  if name = ['l', 'b', 'i', 't'] then numbers.bind fun | [c, b] => some (.lbit c b) | _ => none
  else if name = ['e', 'o', 's'] then numbers.bind fun | [c] => some (.eos c) | _ => none
  else if name = ['c', 'l', 'r', 'c'] then numbers.bind fun | [c] => some (.clrc c) | _ => none
  else if name = ['r', 'd', 'r', 'e', 'g'] then numbers.bind fun | [c, i] => some (.rdreg c i) | _ => none
  else if name = ['c', 'i', 'n', 'i', 't'] then numbers.bind fun | [] => some .cinit | _ => none
  else if name = ['c', 'b', 'y', 't', 'e'] then numbers.bind fun | [d] => some (.cbyte d) | _ => none
  else if name = ['c', 'r', 'd'] then numbers.bind fun | [] => some .crd | _ => none
  else if name = ['.', 'w', 'o', 'r', 'd'] then numbers.bind fun | [w] => some (.word w) | _ => none
  else if name = ['m', 'f', 'r', 'a', 'm', 'e'] then numbers.bind fun | c :: bs => some (.mframe c bs) | [] => none
  else if name = ['d', 'f', 'r', 'a', 'm', 'e'] then numbers.bind fun | c :: bs => some (.dframe c bs) | [] => none
  else if name = ['c', 'b', 'y', 't', 'e', 's'] then numbers.map .cbytes
  else if name = ['c', 'r', 'c', 'o', 'f'] then numbers.map .crcof
  else if name = ['r', 'd', 'a', 'l', 'l'] then numbers.bind fun | [c] => some (.rdall c) | _ => none
  else if name = ['l', 'b', 'i', 't', 's'] then
    match operands with
    | [c, q] => do
      let c ← readNumber c
      let bits ← (readQuoted q).bind readBits
      some (.lbits c bits)
    | _ => none
  else if name = ['l', 'h', 'd', 'r'] then
    match operands with
    | [c, ['A']] => (readNumber c).map (.lhdr · .man)
    | [c, ['B']] => (readNumber c).map (.lhdr · .dir)
    | _ => none
  else none

/-- One line of text: a comment runs from `;` to the end of the line, and a line that holds nothing else gives no words (R105). -/
def assembleLine (cfg : Config) (line : List Char) : Option (List Word) :=
  let code := trimBlanks (line.takeWhile (· ≠ ';'))
  if code = [] then some []
  else
    let name := code.takeWhile fun ch => !ch.isWhitespace
    let rest := trimBlanks (code.drop name.length)
    let operands := if rest = [] then [] else (rest.splitOn ',').map trimBlanks
    (readForm name operands).bind (assemble cfg)

/-- A text of one command a line. -/
def assembleText (cfg : Config) (text : List Char) : Option (List Word) :=
  ((text.splitOn '\n').mapM (assembleLine cfg)).map List.flatten

end Sys2Proof.Machine
end

