-- ==== Sys2Proof/Safety.lean ====
section
/-! DEFINITION. The terms that statements use: the invariants of R52 and of the fields' own rules, the channel an instruction
concerns, runs of several steps, and the commands that carry line bits or bytes. -/

namespace Sys2Proof.Machine

/-! ## Invariants (R52) -/

/-- R52, "In SEARCH", with `hb` from R36. -/
abbrev Channel.SearchInv (ch : Channel) : Prop :=
  ch.hv = false ∧ ch.hb = false ∧ ch.nb = 0 ∧ ch.acc = 0#8 ∧ ch.coll = false ∧ ch.lcnt = 0 ∧ ch.lenb = 0#16 ∧ ch.wptr = 0 ∧ ch.rem = 0

/-- R52, "In LEN", and what `lenb` holds of the bytes received (R40, R182). -/
abbrev Channel.LenInv (ch : Channel) : Prop :=
  ch.lcnt < ch.lp.lw ∧ ch.wptr = ch.lcnt ∧ ch.rem = 0 ∧
  (ch.lcnt = 0 → ch.lenb = 0#16) ∧ (ch.lcnt = 1 → ch.lenb = (ch.buf.getD 0 0#8).setWidth 16)

/-- R52, "In BODY", and that the buffer begins with the length field of the value `L` (R101, R181). -/
abbrev Channel.BodyInv (cfg : Config) (ch : Channel) : Prop :=
  ch.lcnt = ch.lp.lw ∧ 1 ≤ ch.rem ∧ ch.rem ≤ ch.len.toNat + 2 ∧ ch.wptr = ch.lp.lw + (ch.len.toNat + 2 - ch.rem) ∧
  cfg.minBody ≤ ch.len.toNat ∧ ch.len.toNat ≤ cfg.maxBody ∧
  ch.buf.take ch.lp.lw = lenBytes cfg ch.lp ch.len.toNat ∧ (ch.lp = .man → ch.len.toNat ≤ 255)

/-- R52, "Always", and the ranges of R36, R37, R42, R43; a direct candidate never collides (R161). -/
abbrev Channel.AlwaysInv (cfg : Config) (ch : Channel) : Prop :=
  ch.fill ≤ cfg.patW ∧ ch.sh.toNat < 2 ^ ch.fill ∧ ch.nb ≤ 7 ∧ ch.ts.toNat < 2 ^ cfg.tsW ∧
  ch.wptr ≤ cfg.frameMax ∧ ch.buf.length = cfg.frameMax ∧
  (ch.lp = .dir → ch.hv = false ∧ ch.hb = false ∧ ch.coll = false)

/-- The invariant of one channel. -/
abbrev Channel.Inv (cfg : Config) (ch : Channel) : Prop :=
  ch.AlwaysInv cfg ∧ (ch.st = .search → ch.SearchInv) ∧ (ch.st = .len → ch.LenInv) ∧ (ch.st = .body → ch.BodyInv cfg)

/-- The invariant of the machine: a configuration of R10, one channel state for each of the N_CH channels, each with its own
invariant. -/
abbrev State.Inv (s : State) : Prop :=
  s.cfg.Wf ∧ s.chans.length = s.cfg.nCh ∧ ∀ ch ∈ s.chans, ch.Inv s.cfg

/-! ## Instructions and channels -/

/-- The channel whose state an instruction concerns; none for an instruction of the global state. -/
def instrChan : Instr → Option ChanNo
  | .lbit c _ | .eos c | .clrc c | .rdreg c _ => some c
  | .cinit | .cbyte _ | .crd | .illegalOp7 _ | .illegalOp8F _ | .illegalOther _ => none
  | .syncA c | .syncB c | .manPair10 c | .manPair01 c | .manPair00 c | .manPair11 c | .dirBit0 c | .dirBit1 c => some c

/-- The instruction stands for an illegal word. -/
def isIllegal : Instr → Bool
  | .illegalOp7 _ | .illegalOp8F _ | .illegalOther _ => true
  | _ => false

/-- The instruction takes a line bit of its channel, or the pair or direct bit that one completes; these alone complete frame bytes
(R180, R97). -/
def takesLineBit : Instr → Bool
  | .lbit _ _ | .manPair10 _ | .manPair01 _ | .manPair00 _ | .manPair11 _ | .dirBit0 _ | .dirBit1 _ => true
  | .eos _ | .clrc _ | .rdreg _ _ | .cinit | .cbyte _ | .crd | .illegalOp7 _ | .illegalOp8F _ | .illegalOther _ | .syncA _ | .syncB _ =>
    false

/-! ## Frames and results -/

/-- The channel states of the configuration stand, and `c` is the number of one. -/
abbrev State.Has (s : State) (c : ChanNo) : Prop := s.chans.length = s.cfg.nCh ∧ s.cfg.hasChan c

/-- What an instruction or a run of channel `c` leaves alone: the configuration, the global state but for the output stream, and
every other channel (R38). -/
abbrev State.SameRest (c : ChanNo) (s t : State) : Prop :=
  t.cfg = s.cfg ∧ t.crcS = s.crcS ∧ t.ill = s.ill ∧ t.started = s.started ∧ t.chans.length = s.chans.length ∧
  ∀ d, d ≠ c → t.chan d = s.chan d

/-- One instruction of channel `c` leaves alone what `SameRest` says, and the inputs. -/
abbrev State.OnlyChan (c : ChanNo) (s t : State) : Prop := s.SameRest c t ∧ t.input = s.input ∧ t.now = s.now

/-- The reset values of R53; the buffer has none. -/
abbrev Channel.AtReset (ch : Channel) : Prop :=
  ch.st = .search ∧ ch.lp = .man ∧ ch.sh = 0#64 ∧ ch.fill = 0 ∧ ch.hv = false ∧ ch.hb = false ∧ ch.acc = 0#8 ∧ ch.nb = 0 ∧
  ch.coll = false ∧ ch.lcnt = 0 ∧ ch.lenb = 0#16 ∧ ch.len = 0#16 ∧ ch.rem = 0 ∧ ch.wptr = 0 ∧ ch.ts = 0#64 ∧
  ch.cntOk = 0#32 ∧ ch.cntCrc = 0#32 ∧ ch.cntMan = 0#32 ∧ ch.cntLen = 0#32 ∧ ch.last = .none

/-- The value of the pattern that selects a protocol (R150): the preamble above the SYNC_W bits of the sync word. -/
abbrev patternValue (cfg : Config) (p : LineProtocol) : Nat :=
  cfg.preamble.toNat * 2 ^ cfg.syncW + (match p with | .man => cfg.syncA.toNat | .dir => cfg.syncB.toNat)

/-- From `ch` a candidate of protocol `p` has begun with timestamp `stamp` (R154); the search window is the new channel's. -/
abbrev Channel.Matched (p : LineProtocol) (stamp : Nat) (ch t : Channel) : Prop :=
  t.ts.toNat = stamp ∧
  t = { ch with
    lp := p, st := .len, hv := false, hb := false, acc := 0#8, nb := 0, coll := false, lcnt := 0, lenb := 0#16, wptr := 0
    sh := t.sh, fill := t.fill, ts := t.ts }

/-- The value of the byte in progress with the data bit `d` (0 or 1) added: at bit 0 from the right, or at bit 7 from the left (R163). -/
abbrev Channel.nextAcc (order : BitOrder) (d : Nat) (ch : Channel) : Nat :=
  match order with
  | .msbFirst => (2 * ch.acc.toNat + d) % 256
  | .lsbFirst => ch.acc.toNat / 2 + 128 * d

/-- From `ch` the byte in progress has taken the data bit `d` and goes on (R163). -/
abbrev Channel.TookDataBit (order : BitOrder) (d : Nat) (ch t : Channel) : Prop :=
  t.acc.toNat = ch.nextAcc order d ∧
  t = { ch with acc := t.acc, nb := ch.nb + 1 }

/-- The counter values after an outcome `k` (R191): its own counter is one more, modulo 2^32, and the others are the same. -/
abbrev Channel.Counted (k : CandOutcome) (ch t : Channel) : Prop :=
  t.cntOk.toNat = (ch.cntOk.toNat + (if k = .ok then 1 else 0)) % 2 ^ 32 ∧
  t.cntCrc.toNat = (ch.cntCrc.toNat + (if k = .crcFail then 1 else 0)) % 2 ^ 32 ∧
  t.cntMan.toNat = (ch.cntMan.toNat + (if k = .manchErr then 1 else 0)) % 2 ^ 32 ∧
  t.cntLen.toNat = (ch.cntLen.toNat + (if k = .lenErr then 1 else 0)) % 2 ^ 32 ∧
  t.last = k

/-- The four counters and `last` are the same. -/
abbrev Channel.SameCounts (ch t : Channel) : Prop :=
  t.cntOk = ch.cntOk ∧ t.cntCrc = ch.cntCrc ∧ t.cntMan = ch.cntMan ∧ t.cntLen = ch.cntLen ∧ t.last = ch.last

/-- The candidate of `ch` has ended with outcome `k`, and the search restarts (R191, R192). -/
abbrev Channel.Ended (k : CandOutcome) (ch t : Channel) : Prop :=
  ch.Counted k t ∧ t.st = .search ∧ t.sh = 0#64 ∧ t.fill = 0 ∧ t.hv = false ∧ t.hb = false ∧ t.acc = 0#8 ∧ t.nb = 0 ∧
  t.coll = false ∧ t.lcnt = 0 ∧ t.lenb = 0#16 ∧ t.rem = 0 ∧ t.wptr = 0 ∧ t.lp = ch.lp ∧ t.ts = ch.ts

/-- The two channels differ at most in what no output can show: buffer entries beyond the candidate's bytes (R42), and, once the
candidate has collided, its bytes (R166). -/
abbrev Channel.Alike (ch ch' : Channel) : Prop :=
  ch' = { ch with buf := ch'.buf, acc := ch'.acc, lenb := ch'.lenb } ∧ ch'.buf.length = ch.buf.length ∧
  (ch.coll = true ∨ (ch'.acc = ch.acc ∧ ch'.lenb = ch.lenb ∧ ch'.frame = ch.frame))

/-- The event is a reset or a command of channel `c`. -/
def eventConcerns (nCh : Nat) (c : ChanNo) : Event → Bool
  | .cmd w _ => instrChan (decode nCh w) == some c
  | .rst => true
  | .hold => false

/-- The record is a frame of channel `c`. -/
def Record.isFrameOf (c : ChanNo) : Record → Bool
  | .frame ch _ _ _ => ch == c
  | .rdata _ _ _ => false
  | .crcv _ => false

/-! ## Runs -/

/-- `n` steps, stopping at the first that gives no next state. -/
def steps : Nat → State → Host.Outcome State Fault Refusal
  | 0, s => .next s
  | n + 1, s =>
    match step s with
    | .next t => steps n t
    | .fault r => .fault r
    | .refused r => .refused r

/-- The LBIT commands of line bits on a channel, each with its TIME value. -/
def lbitEvents (c : ChanNo) (bits : List (Bool × Time)) : List Event :=
  bits.map fun p => .cmd (cmdWord 0#4 c (0#7 ++ BitVec.ofBool p.1)) p.2

/-- Commands, each with its TIME value. -/
def cmdEvents (ws : List (Word × Time)) : List Event := ws.map fun p => .cmd p.1 p.2

/-- LBITs on one channel, one after another, on the channel alone: the channel after them and the records they produced. -/
def Channel.lineBits (cfg : Config) (c : ChanNo) : List (Bool × Time) → Channel → Channel × List Record
  | [], ch => (ch, [])
  | p :: rest, ch =>
    let r := ch.lineBit cfg c p.2 p.1
    let q := Channel.lineBits cfg c rest r.1
    (q.1, r.2.toList ++ q.2)

/-- A byte sequence with bit `k` (bit `k % 8` of byte `k / 8`) flipped. -/
def flipBit (f : List Byte) (k : Nat) : List Byte := f.modify (k / 8) fun y => y ^^^ (1#8 <<< (k % 8))

end Sys2Proof.Machine
end

