-- ==== Sys2Proof/Certificates/Slice0/Obligations.lean ====
section
/-! DEFINITION. The statements for the provers, in the order of the spec's files: encoding, the step and its inputs, the CRC unit, the
search, the line decoders, the frame extractor, the host commands, and rules of the whole machine. -/

open Sys2Proof Sys2Proof.Machine

/-! ## Encoding (30_encoding.md) -/

/-- R95: the words of the encoding examples, each for every N_CH under which its channel exists. -/
def Obligations.EncodingExamplesDecode : Prop :=
  ∀ nCh : Nat,
    (0 < nCh → decode nCh 0x00000001#32 = .lbit 0#8 true) ∧
    (1 < nCh → decode nCh 0x00010000#32 = .lbit 1#8 false) ∧
    (3 < nCh → decode nCh 0x00030001#32 = .lbit 3#8 true) ∧
    (2 < nCh → decode nCh 0x10020000#32 = .eos 2#8) ∧
    (1 < nCh → decode nCh 0x20010000#32 = .clrc 1#8) ∧
    (0 < nCh → decode nCh 0x30000004#32 = .rdreg 0#8 4#3) ∧
    (1 < nCh → decode nCh 0x30010007#32 = .rdreg 1#8 7#3) ∧
    decode nCh 0x40000000#32 = .cinit ∧
    decode nCh 0x50000031#32 = .cbyte 0x31#8 ∧
    decode nCh 0x60000000#32 = .crd ∧
    decode nCh 0x70000000#32 = .illegalOp7 0#28 ∧
    decode nCh 0x00000002#32 = .illegalOther 0x00000002#32 ∧
    decode nCh 0x50010031#32 = .illegalOther 0x50010031#32

/-- R90 to R93: which words are each command, as numbers. -/
def Obligations.LegalWordsDecodeToTheirCommand : Prop :=
  ∀ (nCh : Nat) (w : Word),
    (∀ c b, decode nCh w = .lbit c b ↔ c.toNat < nCh ∧ w.toNat = c.toNat * 0x10000 + b.toNat) ∧
    (∀ c, decode nCh w = .eos c ↔ c.toNat < nCh ∧ w.toNat = 0x10000000 + c.toNat * 0x10000) ∧
    (∀ c, decode nCh w = .clrc c ↔ c.toNat < nCh ∧ w.toNat = 0x20000000 + c.toNat * 0x10000) ∧
    (∀ c idx, decode nCh w = .rdreg c idx ↔ c.toNat < nCh ∧ w.toNat = 0x30000000 + c.toNat * 0x10000 + idx.toNat) ∧
    (decode nCh w = .cinit ↔ w.toNat = 0x40000000) ∧
    (∀ d, decode nCh w = .cbyte d ↔ w.toNat = 0x50000000 + d.toNat) ∧
    (decode nCh w = .crd ↔ w.toNat = 0x60000000)

/-- R227 (and R93, of which it is the negation): the illegal words are the listed ones, and all have the one effect of R228. -/
def Obligations.IllegalWordsAreTheListedOnes : Prop :=
  ∀ (nCh : Nat) (w : Word),
    let op := w.toNat / 2 ^ 28
    let rsv1 := w.toNat / 2 ^ 24 % 16
    let ch := w.toNat / 2 ^ 16 % 256
    let rsv2 := w.toNat / 2 ^ 8 % 256
    let arg := w.toNat % 256
    (isIllegal (decode nCh w) = true ↔
      7 ≤ op ∨ rsv1 ≠ 0 ∨ rsv2 ≠ 0 ∨ (op ≤ 3 ∧ nCh ≤ ch) ∨ (4 ≤ op ∧ op ≤ 6 ∧ ch ≠ 0) ∨ (op = 0 ∧ arg / 2 ≠ 0) ∨
      ((op = 1 ∨ op = 2 ∨ op = 4 ∨ op = 6) ∧ arg ≠ 0) ∨ (op = 3 ∧ arg / 8 ≠ 0)) ∧
    (isIllegal (decode nCh w) = true → ∀ s, exec (decode nCh w) s = .next { s with ill := true })

/-- The command rows of the opcode table, as masks and patterns, cover exactly the legal words, and no word is covered twice. -/
def Obligations.TableRowsCoverLegalWordsOnce : Prop :=
  ∀ (nCh : Nat) (w : Word),
    (inCommandRow nCh w = true ↔ isIllegal (decode nCh w) = false) ∧
    (opRows.filter fun row => row.covers nCh w).length ≤ 1

/-- Decoding undoes encoding for every instruction: command words and line symbols, every operand. -/
def Obligations.DecodeOfEncodeIsTheInstruction : Prop :=
  ∀ (cfg : Config) (i : Instr), cfg.Wf → i.wf cfg = true → decodeCode cfg (encode cfg i) = .ok i

/-- R107: every command word decodes, to a well-formed instruction whose encoding it is; no two words decode alike. -/
def Obligations.EncodeOfDecodeIsTheWord : Prop :=
  ∀ (cfg : Config) (w : Word), (decode cfg.nCh w).wf cfg = true ∧ encode cfg (decode cfg.nCh w) = .cmd w

/-! ## Configuration, reset and the step (00_scope.md, 43_host_commands.md section 1, 70_reset_and_hazards.md) -/

/-- R12: the two constraints, what the first says of the searched patterns, and the refusal. -/
def Obligations.IllegalConfigurationsAreRefused : Prop :=
  (∀ cfg : Config, 1 ≤ cfg.syncW → cfg.syncW ≤ 32 → cfg.syncA.toNat < 2 ^ cfg.syncW → cfg.syncB.toNat < 2 ^ cfg.syncW →
    (cfg.patA = cfg.patB ↔ cfg.syncA = cfg.syncB)) ∧
  (∀ s : State, s.cfg.syncA = s.cfg.syncB ∨ s.cfg.maxBody < s.cfg.minBody → step s = .refused .illegalConfig) ∧
  (∀ (cfg : Config) (now : Time) (ch : Channel), cfg.patA = cfg.patB →
    ch.matchTest cfg now = ch ∨ ch.matchTest cfg now = ch.syncMatch cfg now .man)

/-- R53 and R280: the reset event. R53 gives the buffer's entries no value, so only their number (R42) is stated. -/
def Obligations.ResetEventGivesResetValues : Prop :=
  ∀ (s : State) (rest : List Event), s.cfg.Wf → s.input = .rst :: rest →
    ∃ t, step s = .next t ∧ t.crcS = 0xFFFF#16 ∧ t.ill = false ∧
      t.chans.length = s.cfg.nCh ∧ (∀ c, s.cfg.hasChan c → (t.chan c).AtReset ∧ (t.chan c).buf.length = s.cfg.frameMax) ∧
      t.out = s.out ∧ t.cfg = s.cfg ∧ t.input = rest ∧ t.started = true

/-- The state after reset has the values of R53 and the register values of R46 under every configuration. `State.reset` takes
`Config.initial`, which is the model's choice (notes/assumptions/1.md), and so is its empty output stream, of which no rule gives a
value at reset (notes/assumptions/16.md). -/
def Obligations.ResetStateHasResetValues : Prop :=
  State.reset = State.resetOf Config.initial ∧
  ∀ cfg : Config, cfg.Wf →
    (State.resetOf cfg).cfg = cfg ∧ (State.resetOf cfg).crcS = 0xFFFF#16 ∧ (State.resetOf cfg).ill = false ∧
    (State.resetOf cfg).out = [] ∧ (State.resetOf cfg).chans.length = cfg.nCh ∧
    ∀ c, cfg.hasChan c → ((State.resetOf cfg).chan c).AtReset ∧ ((State.resetOf cfg).chan c).buf.length = cfg.maxBody + 4 ∧
      ∀ idx : BitVec 3, ((State.resetOf cfg).regView c idx).toNat =
        if idx = 7#3 then cfg.maxBody * 2 ^ 16 + (cfg.nCh - 1) * 2 ^ 8 else 0

/-- R220: with a command word next, a step of a block that has been reset is the decoded instruction, on the state whose input has
moved past the command and whose TIME is the command's. -/
def Obligations.StepRunsTheDecodedCommand : Prop :=
  ∀ (s : State) (w : Word) (now : Time) (rest : List Event), s.cfg.Wf → s.started = true → s.input = .cmd w now :: rest →
    step s = exec (decode s.cfg.nCh w) { s with input := rest, now := now }

/-- R282: a command before the first reset has no meaning; the model's runs start after reset. -/
def Obligations.CommandBeforeResetIsRefused : Prop :=
  (∀ (s : State) (w : Word) (now : Time) (rest : List Event), s.cfg.Wf → s.started = false → s.input = .cmd w now :: rest →
    step s = .refused .beforeReset) ∧
  State.reset.started = true

/-- R263 and R88: with nothing supplied the block waits, and while the host takes no record it takes no command. That waiting and a
stall are steps at all is the model's choice (notes/assumptions/5.md). -/
def Obligations.WaitingChangesNothing : Prop :=
  ∀ s : State, s.cfg.Wf →
    (s.input = [] → step s = .next s) ∧
    (∀ rest, s.input = .hold :: rest → step s = .next { s with input := rest })

/-- R250, R264, R281, R10: after any number of steps on any input the block still runs; it has taken that many inputs, its
configuration is the same, and the records it has produced are those it had and at most one more for each step. -/
def Obligations.TheBlockNeverStops : Prop :=
  ∀ (n : Nat) (s : State), s.cfg.Wf → s.started = true →
    ∃ t, steps n s = .next t ∧ t.input = s.input.drop n ∧ t.cfg = s.cfg ∧ t.started = true ∧
      ∃ new, t.out = s.out ++ new ∧ new.length ≤ n

/-! ## CRC (40_crc.md) -/

/-- R121. -/
def Obligations.CrcBitStep : Prop :=
  (∀ (c : Half) (m : Bool), (crcBit c m).toNat =
    if (c.toNat % 2 + m.toNat) % 2 = 1 then (c.toNat / 2) ^^^ 0x8408 else c.toNat / 2) ∧
  crcBit 0xFFFF#16 true = 0x7FFF#16 ∧ crcBit 0x7FFF#16 false = 0xBBF7#16

/-- R122: a byte's bits, bit 0 first, with the corner cases and the worked example. -/
def Obligations.CrcByteStep : Prop :=
  (∀ (c : Half) (d : Byte), crcByte c d =
    crcBit (crcBit (crcBit (crcBit (crcBit (crcBit (crcBit (crcBit c (d.getLsbD 0)) (d.getLsbD 1)) (d.getLsbD 2)) (d.getLsbD 3))
      (d.getLsbD 4)) (d.getLsbD 5)) (d.getLsbD 6)) (d.getLsbD 7)) ∧
  crcByte 0x0000#16 0x00#8 = 0x0000#16 ∧ crcByte 0x0000#16 0x80#8 = 0x8408#16 ∧ crcByte 0x0000#16 0x01#8 = 0x1189#16 ∧
  crcByte 0xFFFF#16 0x00#8 = 0x0F87#16 ∧ crcByte 0xFFFF#16 0xFF#8 = 0x00FF#16 ∧
  crcByte 0xFFFF#16 0x31#8 = 0x2F8D#16 ∧
  (byteBits 0x31#8).scanl crcBit 0xFFFF#16 =
    [0xFFFF#16, 0x7FFF#16, 0xBBF7#16, 0xD9F3#16, 0xE8F1#16, 0x7478#16, 0xBE34#16, 0x5F1A#16, 0x2F8D#16]

/-- R123, R124: the checksum and its serialisation, with the corner cases and the worked examples. -/
def Obligations.ChecksumAndSerialisation : Prop :=
  (∀ s : List Byte, checksum s = s.foldl crcByte 0xFFFF#16 ^^^ 0xFFFF#16) ∧
  checksum [] = 0x0000#16 ∧ checksum [0x00#8] = 0xF078#16 ∧ checksum [0xFF#8] = 0xFF00#16 ∧
  checksum [0x31#8, 0x32#8, 0x33#8, 0x34#8, 0x35#8, 0x36#8, 0x37#8, 0x38#8, 0x39#8] = 0x906E#16 ∧
  (∀ v : Half, (ser v).map BitVec.toNat = [v.toNat % 256, v.toNat / 256]) ∧
  ser 0x906E#16 = [0x6E#8, 0x90#8]

/-- R125, R126: what a valid frame is, in numbers, with the worked example. -/
def Obligations.FrameValidity : Prop :=
  (∀ f : List Byte, valid f = true ↔
    2 ≤ f.length ∧
      (checksum (f.take (f.length - 2))).toNat =
        (f.getD (f.length - 1) 0#8).toNat * 256 + (f.getD (f.length - 2) 0#8).toNat) ∧
  (∀ f : List Byte, f.length < 2 → valid f = false) ∧
  valid [0x03#8, 0x01#8, 0x02#8, 0x03#8, 0xE4#8, 0x82#8] = true

/-- R127: every message with its checksum is valid, and with any one bit flipped it is not. -/
def Obligations.RoundTripAndSingleBitErrors : Prop :=
  ∀ m : List Byte,
    valid (m ++ ser (checksum m)) = true ∧
    ∀ k, k < 8 * (m.length + 2) → valid (flipBit (m ++ ser (checksum m)) k) = false

/-- R128: the residue form of validity. -/
def Obligations.ResidueFormAgrees : Prop :=
  (∀ m : List Byte, (m ++ ser (checksum m)).foldl crcByte 0xFFFF#16 = 0xF0B8#16) ∧
  (∀ f : List Byte, 2 ≤ f.length → (valid f = true ↔ f.foldl crcByte 0xFFFF#16 = 0xF0B8#16))

/-- R133: the register trace of CBYTE over "123456789". -/
def Obligations.CbyteRegisterTrace : Prop :=
  ∀ s : State, s.crcS = 0xFFFF#16 →
    ∃ t1 t2 t3 t4 t5 t6 t7 t8 t9,
      exec (.cbyte 0x31#8) s = .next t1 ∧ t1.crcS = 0x2F8D#16 ∧ exec (.cbyte 0x32#8) t1 = .next t2 ∧ t2.crcS = 0x4D53#16 ∧
      exec (.cbyte 0x33#8) t2 = .next t3 ∧ t3.crcS = 0x634B#16 ∧ exec (.cbyte 0x34#8) t3 = .next t4 ∧ t4.crcS = 0x8B13#16 ∧
      exec (.cbyte 0x35#8) t4 = .next t5 ∧ t5.crcS = 0x44BF#16 ∧ exec (.cbyte 0x36#8) t5 = .next t6 ∧ t6.crcS = 0x198D#16 ∧
      exec (.cbyte 0x37#8) t6 = .next t7 ∧ t7.crcS = 0x1AC8#16 ∧ exec (.cbyte 0x38#8) t7 = .next t8 ∧ t8.crcS = 0xF795#16 ∧
      exec (.cbyte 0x39#8) t8 = .next t9 ∧ t9.crcS = 0x6F91#16 ∧ t9.crcS ^^^ 0xFFFF#16 = 0x906E#16

/-- R130 to R132: the three commands of the standalone CRC unit, each a whole next state. -/
def Obligations.CrcCommandsAct : Prop :=
  ∀ s : State,
    exec .cinit s = .next { s with crcS := 0xFFFF#16 } ∧
    (∀ d, exec (.cbyte d) s = .next { s with crcS := crcByte s.crcS d }) ∧
    exec .crd s = .next { s with out := s.out ++ [.crcv (s.crcS ^^^ 0xFFFF#16)] }

/-- R132's procedure: CINIT, a CBYTE for each byte and CRD, each with any TIME value, give the checksum of the bytes, and change
nothing else. -/
def Obligations.StandaloneUnitComputesTheChecksum : Prop :=
  ∀ (s : State) (bytes : List Byte) (cmds : List (Word × Time)) (rest : List Event), s.cfg.Wf → s.started = true →
    cmds.map Prod.fst = 0x40000000#32 :: bytes.map (fun d => 0x50000000#32 ||| d.setWidth 32) ++ [0x60000000#32] →
    s.input = cmdEvents cmds ++ rest →
    ∃ t, steps (bytes.length + 2) s = .next t ∧ t.out = s.out ++ [.crcv (checksum bytes)] ∧
      t.crcS = checksum bytes ^^^ 0xFFFF#16 ∧ t.chans = s.chans ∧ t.ill = s.ill ∧ t.cfg = s.cfg ∧ t.input = rest

/-! ## Search (41_linecode.md section 1) -/

/-- R151, R152, R153: LBIT in SEARCH shifts the window and applies the match test, in numbers; a match starts a candidate with the
values of R154. -/
def Obligations.LbitInSearchShiftsAndTests : Prop :=
  ∀ (s : State) (c : ChanNo) (b : Bool), s.cfg.Wf → s.Has c → (s.chan c).st = .search →
    let ch := s.chan c
    let patW := 32 + s.cfg.syncW
    let sh := (2 * ch.sh.toNat + b.toNat) % 2 ^ patW
    let fill := min (ch.fill + 1) patW
    ∃ t, exec (.lbit c b) s = .next t ∧ s.OnlyChan c t ∧ t.out = s.out ∧ (t.chan c).sh.toNat = sh ∧ (t.chan c).fill = fill ∧
      (if fill = patW ∧ sh = patternValue s.cfg .man then ch.Matched .man (s.now.toNat % 2 ^ s.cfg.tsW) (t.chan c)
       else if fill = patW ∧ sh = patternValue s.cfg .dir then ch.Matched .dir (s.now.toNat % 2 ^ s.cfg.tsW) (t.chan c)
       else t.chan c = { ch with sh := (t.chan c).sh, fill := (t.chan c).fill })

/-- R152, R154: the symbols SYNC_A and SYNC_B, on a channel in SEARCH whose window holds their pattern, start a candidate. That they are
instructions of their own, on a window that already holds the pattern, is the model's choice (notes/assumptions/3.md): R152 tests the
window within the LBIT that completes the pattern. -/
def Obligations.SyncSymbolsStartCandidates : Prop :=
  ∀ (s : State) (c : ChanNo), s.cfg.Wf → s.Has c → (s.chan c).st = .search → (s.chan c).fill = 32 + s.cfg.syncW →
    ((s.chan c).sh.toNat = patternValue s.cfg .man →
      ∃ t, exec (.syncA c) s = .next t ∧ s.OnlyChan c t ∧ t.out = s.out ∧
        (s.chan c).Matched .man (s.now.toNat % 2 ^ s.cfg.tsW) (t.chan c) ∧
        (t.chan c).sh = (s.chan c).sh ∧ (t.chan c).fill = (s.chan c).fill) ∧
    ((s.chan c).sh.toNat = patternValue s.cfg .dir →
      ∃ t, exec (.syncB c) s = .next t ∧ s.OnlyChan c t ∧ t.out = s.out ∧
        (s.chan c).Matched .dir (s.now.toNat % 2 ^ s.cfg.tsW) (t.chan c) ∧
        (t.chan c).sh = (s.chan c).sh ∧ (t.chan c).fill = (s.chan c).fill)

/-- R155, R180's first corner case: fewer than PAT_W line bits after a restart of the search match nothing. -/
def Obligations.NoMatchBeforeTheWindowIsFull : Prop :=
  ∀ (cfg : Config) (c : ChanNo) (bits : List (Bool × Time)) (ch : Channel), cfg.Wf → ch.st = .search →
    ch.fill + bits.length < 32 + cfg.syncW →
    ∃ sh : Window, Channel.lineBits cfg c bits ch = ({ ch with sh := sh, fill := ch.fill + bits.length }, [])

/-- R102, R150, R154: the preamble and a sync word, from an empty window, start a candidate of the word's protocol, stamped with
the TIME of the last bit. -/
def Obligations.HeaderStartsACandidate : Prop :=
  ∀ (s : State) (c : ChanNo) (lp : LineProtocol) (bits : List (Bool × Time)) (last : Bool × Time) (rest : List Event),
    s.cfg.Wf → s.started = true → s.Has c → s.input = lbitEvents c (bits ++ [last]) ++ rest →
    (bits ++ [last]).map Prod.fst = header s.cfg lp → (s.chan c).st = .search → (s.chan c).fill = 0 →
    ∃ t, steps (32 + s.cfg.syncW) s = .next t ∧ t.input = rest ∧ s.SameRest c t ∧ t.out = s.out ∧
      (s.chan c).Matched lp (last.2.toNat % 2 ^ s.cfg.tsW) (t.chan c)

/-- How the line symbols of the opcode table act in a command stream: the LBIT that completes one is the symbol's instruction. That
the symbols are instructions of their own is the model's choice (notes/assumptions/3.md). -/
def Obligations.LbitCompletesLineSymbols : Prop :=
  ∀ (s : State) (c : ChanNo) (b : Bool), s.Has c →
    ((s.chan c).st = .search →
      let u := s.setChan c ((s.chan c).searchShift s.cfg b)
      ((u.chan c).windowIs s.cfg s.cfg.patA = true → exec (.lbit c b) s = exec (.syncA c) u) ∧
      ((u.chan c).windowIs s.cfg s.cfg.patA = false → (u.chan c).windowIs s.cfg s.cfg.patB = true →
        exec (.lbit c b) s = exec (.syncB c) u) ∧
      ((u.chan c).windowIs s.cfg s.cfg.patA = false → (u.chan c).windowIs s.cfg s.cfg.patB = false → exec (.lbit c b) s = .next u)) ∧
    (∀ p1, (s.chan c).pairDue p1 = true → exec (.lbit c b) s = exec (decodePair c p1 b) s) ∧
    ((s.chan c).directDue = true → exec (.lbit c b) s = exec (decodeBit c b) s)

/-- A line symbol where its decoder is not due to recognise it changes nothing: a sync symbol outside SEARCH, with a window that is not
full, or with another value than its pattern in it, a pair whose first half is not held, a direct bit outside a direct candidate. This
is the model's choice (notes/assumptions/3.md). -/
def Obligations.SymbolsNotDueChangeNothing : Prop :=
  ∀ (s : State) (c : ChanNo),
    ((s.chan c).st ≠ .search → exec (.syncA c) s = .next s ∧ exec (.syncB c) s = .next s) ∧
    ((s.chan c).fill ≠ 32 + s.cfg.syncW → exec (.syncA c) s = .next s ∧ exec (.syncB c) s = .next s) ∧
    (s.cfg.Wf → (s.chan c).sh.toNat ≠ patternValue s.cfg .man → exec (.syncA c) s = .next s) ∧
    (s.cfg.Wf → (s.chan c).sh.toNat ≠ patternValue s.cfg .dir → exec (.syncB c) s = .next s) ∧
    (∀ p1 p2, (s.chan c).pairDue p1 = false → exec (decodePair c p1 p2) s = .next s) ∧
    (∀ q, (s.chan c).directDue = false → exec (decodeBit c q) s = .next s)

/-! ## Line decoders and byte assembly (41_linecode.md sections 2 and 3) -/

/-- R160, first half of a pair: only the latch changes. -/
def Obligations.FirstHalfIsLatched : Prop :=
  ∀ (s : State) (c : ChanNo) (b : Bool), s.Has c → (s.chan c).st ≠ .search → (s.chan c).lp = .man → (s.chan c).hv = false →
    ∃ t, exec (.lbit c b) s = .next t ∧ s.OnlyChan c t ∧ t.out = s.out ∧ t.chan c = { s.chan c with hv := true, hb := b }

/-- R98, R160: the four pairs, at a data bit that does not complete a byte. That a colliding pair's data bit is 0 is the model's choice
among the values that R166 and U2 leave open (notes/assumptions/10.md: it is the placeholder of R160's pseudocode). That pairs are
instructions of their own is the model's choice too (notes/assumptions/3.md). -/
def Obligations.ManchesterPairsDeliverTheirDataBit : Prop :=
  ∀ (s : State) (c : ChanNo), s.Has c → (s.chan c).st ≠ .search → (s.chan c).lp = .man → (s.chan c).hv = true → (s.chan c).nb < 7 →
    let ch := s.chan c
    let first : Nat := if s.cfg.manchPol = .first then 1 else 0
    (ch.hb = true → ∃ t, exec (.manPair10 c) s = .next t ∧ s.OnlyChan c t ∧ t.out = s.out ∧
      ({ ch with hv := false } : Channel).TookDataBit s.cfg.bitOrder first (t.chan c)) ∧
    (ch.hb = false → ∃ t, exec (.manPair01 c) s = .next t ∧ s.OnlyChan c t ∧ t.out = s.out ∧
      ({ ch with hv := false } : Channel).TookDataBit s.cfg.bitOrder (1 - first) (t.chan c)) ∧
    (ch.hb = false → ∃ t, exec (.manPair00 c) s = .next t ∧ s.OnlyChan c t ∧ t.out = s.out ∧
      ({ ch with hv := false, coll := true } : Channel).TookDataBit s.cfg.bitOrder 0 (t.chan c)) ∧
    (ch.hb = true → ∃ t, exec (.manPair11 c) s = .next t ∧ s.OnlyChan c t ∧ t.out = s.out ∧
      ({ ch with hv := false, coll := true } : Channel).TookDataBit s.cfg.bitOrder 0 (t.chan c))

/-- R99, R161: a direct line bit, at a data bit that does not complete a byte, is inverted. That direct bits are instructions of their
own is the model's choice (notes/assumptions/3.md). -/
def Obligations.DirectBitsDeliverTheirInverse : Prop :=
  ∀ (s : State) (c : ChanNo), s.Has c → (s.chan c).st ≠ .search → (s.chan c).lp = .dir → (s.chan c).nb < 7 →
    (∃ t, exec (.dirBit0 c) s = .next t ∧ s.OnlyChan c t ∧ t.out = s.out ∧
      (s.chan c).TookDataBit s.cfg.bitOrder 1 (t.chan c)) ∧
    (∃ t, exec (.dirBit1 c) s = .next t ∧ s.OnlyChan c t ∧ t.out = s.out ∧
      (s.chan c).TookDataBit s.cfg.bitOrder 0 (t.chan c))

/-- R163, R164: the eighth data bit completes a raw byte, which is de-whitened and is the next frame byte. For a colliding pair the data
bit is 0, and so the frame byte is fixed, by the model's choice among the values that R166 and U2 leave open
(notes/assumptions/10.md: it is the placeholder of R160's pseudocode). That pairs and direct bits are instructions of their own is the
model's choice too (notes/assumptions/3.md). -/
def Obligations.EighthDataBitCompletesAFrameByte : Prop :=
  ∀ (s : State) (c : ChanNo), s.Has c → (s.chan c).st ≠ .search → (s.chan c).nb = 7 →
    let ch := s.chan c
    ((s.chan c).lp = .man → (s.chan c).hv = true → ∀ p2, ∃ (t : State) (y : Byte),
      let d : Nat := if ch.hb = p2 then 0 else if s.cfg.manchPol = .first then ch.hb.toNat else p2.toNat
      let r := ({ ch with hv := false, coll := ch.coll || ch.hb == p2, acc := 0#8, nb := 0 } : Channel).frameByte s.cfg c y
      exec (decodePair c ch.hb p2) s = .next t ∧ y.toNat = ch.nextAcc s.cfg.bitOrder d ^^^ 0x55 ∧
      s.OnlyChan c t ∧ t.chan c = r.1 ∧ t.out = s.out ++ r.2.toList) ∧
    ((s.chan c).lp = .dir → ∀ q, ∃ (t : State) (y : Byte),
      let r := ({ ch with acc := 0#8, nb := 0 } : Channel).frameByte s.cfg c y
      exec (decodeBit c q) s = .next t ∧ y.toNat = ch.nextAcc s.cfg.bitOrder (1 - q.toNat) ^^^ 0xAA ∧
      s.OnlyChan c t ∧ t.chan c = r.1 ∧ t.out = s.out ++ r.2.toList)

/-- R73, R163: eight data bits assembled from an empty byte, in numbers. -/
def Obligations.DataBitOrderOfAByte : Prop :=
  ∀ d0 d1 d2 d3 d4 d5 d6 d7 : Bool,
    let ds := [d0, d1, d2, d3, d4, d5, d6, d7]
    (ds.foldl (addDataBit .msbFirst) 0#8).toNat =
      128 * d0.toNat + 64 * d1.toNat + 32 * d2.toNat + 16 * d3.toNat + 8 * d4.toNat + 4 * d5.toNat + 2 * d6.toNat + d7.toNat ∧
    (ds.foldl (addDataBit .lsbFirst) 0#8).toNat =
      d0.toNat + 2 * d1.toNat + 4 * d2.toNat + 8 * d3.toNat + 16 * d4.toNat + 32 * d5.toNat + 64 * d6.toNat + 128 * d7.toNat

/-- R165: a direct frame byte is the byte of its line bits XOR 0x55, in either bit order, with the worked example. -/
def Obligations.DirectByteIsLineByteXor55 : Prop :=
  (∀ (order : BitOrder) (q : List Bool), q.length = 8 →
    (q.map (!·)).foldl (addDataBit order) 0#8 ^^^ LineProtocol.dir.mask = q.foldl (addDataBit order) 0#8 ^^^ 0x55#8) ∧
  [false, true, false, true, false, true, true, true].foldl (addDataBit .msbFirst) 0#8 = 0x57#8 ∧
  ([false, true, false, true, false, true, true, true].map (!·)).foldl (addDataBit .msbFirst) 0#8 ^^^ LineProtocol.dir.mask = 0x02#8

/-! ## Frame extractor (42_framer.md) -/

/-- R183: the length field ends with the sixteenth line bit after the sync word, in both protocols. -/
def Obligations.LengthFieldTakesSixteenLineBits : Prop :=
  ∀ (cfg : Config) (c : ChanNo) (now : Time) (p : LineProtocol) (ch : Channel) (bits : List (Bool × Time)),
    let r := Channel.lineBits cfg c bits (ch.syncMatch cfg now p)
    (bits.length < 16 → r.1.st = .len ∧ r.1.lcnt < p.lw ∧ r.2 = []) ∧
    (bits.length = 16 → r.1.st ≠ .len ∧ r.2 = [] ∧ (r.1.st = .body → r.1.lcnt = (match p with | .man => 1 | .dir => 2)))

/-- R75, R181, R182, R184, R185: a frame byte in LEN. -/
def Obligations.LengthByteOutcomes : Prop :=
  ∀ (cfg : Config) (c : ChanNo) (y : Byte) (ch : Channel), ch.Inv cfg → ch.st = .len →
    let len : Nat :=
      match ch.lp, cfg.lenOrder with
      | .man, _ => y.toNat
      | .dir, .big => ch.lenb.toNat * 256 + y.toNat
      | .dir, .little => y.toNat * 256 + ch.lenb.toNat
    let t := (ch.frameByte cfg c y).1
    (ch.frameByte cfg c y).2 = none ∧
    (if ch.lp = .dir ∧ ch.lcnt = 0 then
       t = { ch with buf := t.buf, wptr := 1, lcnt := 1, lenb := y.setWidth 16 } ∧ t.frame = [y]
     else if ch.coll = true then ch.Ended .manchErr t ∧ t.len = ch.len
     else if len < cfg.minBody ∨ cfg.maxBody < len then ch.Ended .lenErr t ∧ t.len.toNat = len
     else
       t = { ch with st := .body, buf := t.buf, wptr := ch.wptr + 1, lcnt := ch.lcnt + 1, lenb := t.len, len := t.len, rem := len + 2 } ∧
       t.len.toNat = len ∧ t.frame = ch.frame ++ [y])

/-- R181, R187, R188, R189: a frame byte in BODY. -/
def Obligations.BodyByteOutcomes : Prop :=
  ∀ (cfg : Config) (c : ChanNo) (y : Byte) (ch : Channel), ch.Inv cfg → ch.st = .body →
    let f := ch.frame ++ [y]
    let t := (ch.frameByte cfg c y).1
    let r := (ch.frameByte cfg c y).2
    if 1 < ch.rem then
      r = none ∧ t = { ch with buf := t.buf, wptr := ch.wptr + 1, rem := ch.rem - 1 } ∧ t.frame = f
    else
      f.length = ch.lp.lw + ch.len.toNat + 2 ∧ t.len = ch.len ∧
      (if ch.coll = true then r = none ∧ ch.Ended .manchErr t
       else if valid f = true then r = some (.frame c ch.ts (BitVec.ofNat 17 f.length) f) ∧ ch.Ended .ok t
       else r = none ∧ ch.Ended .crcFail t)

/-- R191, R192: an outcome counts, notes itself and restarts the search. -/
def Obligations.OutcomeCountsAndRestarts : Prop :=
  ∀ (k : CandOutcome) (ch : Channel), k ≠ .none →
    ch.Ended k (ch.outcome k) ∧ (ch.outcome k).len = ch.len ∧ (ch.outcome k).buf = ch.buf

/-- R156, R195: inside a candidate an LBIT leaves the search window, the protocol and the timestamp alone, until the candidate ends
with an outcome and the search restarts. -/
def Obligations.CandidateRunsToItsOutcome : Prop :=
  ∀ (s : State) (c : ChanNo) (b : Bool), s.Has c → (s.chan c).st ≠ .search →
    ∃ t, exec (.lbit c b) s = .next t ∧ s.OnlyChan c t ∧
      (((t.chan c).st = .search ∧ ∃ k, k ≠ .none ∧ (s.chan c).Ended k (t.chan c)) ∨
       ((t.chan c).st ≠ .search ∧ t.out = s.out ∧ (s.chan c).SameCounts (t.chan c) ∧ (t.chan c).sh = (s.chan c).sh ∧
        (t.chan c).fill = (s.chan c).fill ∧ (t.chan c).lp = (s.chan c).lp ∧ (t.chan c).ts = (s.chan c).ts ∧
        ((s.chan c).st = .body → (t.chan c).st = .body)))

/-- R166, R193: a candidate that has collided goes on without a record and can end as MANCH_ERR only. -/
def Obligations.CollidedCandidateEndsAsManchErr : Prop :=
  ∀ (s : State) (c : ChanNo) (b : Bool), s.Has c → (s.chan c).st ≠ .search → (s.chan c).coll = true →
    ∃ t, exec (.lbit c b) s = .next t ∧ s.OnlyChan c t ∧ t.out = s.out ∧
      ((s.chan c).Ended .manchErr (t.chan c) ∨
       ((t.chan c).st = (s.chan c).st ∧ (t.chan c).coll = true ∧ (s.chan c).SameCounts (t.chan c)))

/-- R166, R42 (U1, U2): neither the data bit of a collided pair nor a buffer entry beyond the candidate's bytes can reach an output:
channels that are alike stay alike and produce the same records, whatever line bits come. -/
def Obligations.PlaceholderAndStaleBytesAreUnobservable : Prop :=
  (∀ (cfg : Config) (c : ChanNo) (bits : List (Bool × Time)) (ch ch' : Channel), ch.Alike ch' →
    (Channel.lineBits cfg c bits ch).1.Alike (Channel.lineBits cfg c bits ch').1 ∧
    (Channel.lineBits cfg c bits ch).2 = (Channel.lineBits cfg c bits ch').2) ∧
  (∀ (cfg : Config) (c : ChanNo) (p d : Bool) (ch : Channel), ch.st ≠ .search →
    ((ch.pair cfg c p p).1).Alike (((ch.pairFlags p p).deliver cfg c d).1) ∧
    (ch.pair cfg c p p).2 = ((ch.pairFlags p p).deliver cfg c d).2)

/-- R101, R102, R189: a frame on the air, from an empty search window, is emitted whole, stamped with the TIME of the last bit of its
sync word, and counted. The channel's buffer has FRAME_MAX entries (R42), as the invariant of R52 has it in every state of a run. -/
def Obligations.FrameOnTheAirIsEmitted : Prop :=
  ∀ (s : State) (c : ChanNo) (lp : LineProtocol) (body : List Byte) (bits : List (Bool × Time)) (stamp : Bool × Time)
    (rest : List Event),
    s.cfg.Wf → s.started = true → s.Has c → (s.chan c).st = .search → (s.chan c).fill = 0 →
    (s.chan c).buf.length = s.cfg.frameMax → s.cfg.minBody ≤ body.length → body.length ≤ s.cfg.maxBody → (lp = .man → body.length ≤ 255) →
    bits.map Prod.fst = airBits s.cfg lp body → bits[31 + s.cfg.syncW]? = some stamp → s.input = lbitEvents c bits ++ rest →
    ∃ (t : State) (ts : Time) (n : BitVec 17), steps bits.length s = .next t ∧ t.input = rest ∧ s.SameRest c t ∧
      t.out = s.out ++ [.frame c ts n (frameOf s.cfg lp body)] ∧
      ts.toNat = stamp.2.toNat % 2 ^ s.cfg.tsW ∧ n.toNat = lp.lw + body.length + 2 ∧
      ({ s.chan c with lp := lp, ts := ts } : Channel).Ended .ok (t.chan c) ∧ (t.chan c).len.toNat = body.length

/-- R101, R188, R189: an emitted frame is the frame of a body of accepted length, in the protocol and with the timestamp of its
candidate, and it is valid. -/
def Obligations.EmittedFramesAreFramesOfABody : Prop :=
  ∀ (s t : State) (c : ChanNo) (ts : Time) (n : BitVec 17) (bytes : List Byte), s.Inv → step s = .next t →
    t.out = s.out ++ [.frame c ts n bytes] →
    s.cfg.hasChan c ∧ ts = (s.chan c).ts ∧ (s.chan c).st = .body ∧ valid bytes = true ∧ n.toNat = bytes.length ∧
    ∃ body : List Byte, bytes = frameOf s.cfg (s.chan c).lp body ∧
      s.cfg.minBody ≤ body.length ∧ body.length ≤ s.cfg.maxBody

/-- R102, R106, R196: how many line bits a frame takes on the air, and how many commands its pseudo-instruction. -/
def Obligations.FrameLengthOnTheAir : Prop :=
  ∀ (cfg : Config) (body : List Byte),
    (airBits cfg .man body).length = 32 + cfg.syncW + 16 * (body.length + 3) ∧
    (airBits cfg .dir body).length = 32 + cfg.syncW + 8 * (body.length + 4) ∧
    ∀ (c : Nat) (ds : List Nat) (ws : List Word),
      (assemble cfg (.mframe c ds) = some ws → ws.length = 32 + cfg.syncW + 16 * (ds.length + 3)) ∧
      (assemble cfg (.dframe c ds) = some ws → ws.length = 32 + cfg.syncW + 8 * (ds.length + 4))

/-- R105: only the raw directive can spell an illegal word. -/
def Obligations.AssemblerSpellsLegalWords : Prop :=
  ∀ (cfg : Config) (line : Asm) (ws : List Word), assemble cfg line = some ws → (∀ w, line ≠ .word w) →
    ∀ w ∈ ws, legal cfg.nCh w = true

/-! ## Host commands (43_host_commands.md) -/

/-- R192, R221: EOS empties the search of its channel, whatever its state, counts nothing, and a second one changes nothing. -/
def Obligations.EosRestartsTheSearch : Prop :=
  ∀ (s : State) (c : ChanNo), s.Has c →
    ∃ t, exec (.eos c) s = .next t ∧ s.OnlyChan c t ∧ t.out = s.out ∧
      t.chan c = { s.chan c with
        st := .search, sh := 0#64, fill := 0, hv := false, hb := false, acc := 0#8, nb := 0, coll := false
        lcnt := 0, lenb := 0#16, rem := 0, wptr := 0 } ∧
      exec (.eos c) t = .next t

/-- R223: CLRC clears the four counters and `last` of its channel and nothing else, and a second one changes nothing. -/
def Obligations.ClrcClearsTheCounters : Prop :=
  ∀ (s : State) (c : ChanNo), s.Has c →
    ∃ t, exec (.clrc c) s = .next t ∧ s.OnlyChan c t ∧ t.out = s.out ∧
      t.chan c = { s.chan c with cntOk := 0#32, cntCrc := 0#32, cntMan := 0#32, cntLen := 0#32, last := .none } ∧
      exec (.clrc c) t = .next t

/-- R224, R46 to R48: RDREG emits the register's value and, for GSTATUS alone, clears ILL; nothing else changes. -/
def Obligations.RdregReadsTheRegisterView : Prop :=
  ∀ (s : State) (c : ChanNo) (idx : BitVec 3), s.cfg.Wf → s.Has c →
    let ch := s.chan c
    ∃ value : BitVec 32,
      exec (.rdreg c idx) s = .next { s with
        out := s.out ++ [.rdata c idx value]
        ill := if idx = 7#3 then false else s.ill } ∧
      (idx = 0#3 → value = ch.cntOk) ∧ (idx = 1#3 → value = ch.cntCrc) ∧ (idx = 2#3 → value = ch.cntMan) ∧
      (idx = 3#3 → value = ch.cntLen) ∧
      (idx = 4#3 → value.toNat =
        (match ch.last with | .none => 0 | .ok => 1 | .crcFail => 2 | .manchErr => 3 | .lenErr => 4) * 16 +
        (match ch.lp with | .man => 0 | .dir => 1) * 4 + (match ch.st with | .search => 0 | .len => 1 | .body => 2)) ∧
      (idx = 5#3 → value.toNat = 0) ∧ (idx = 6#3 → value.toNat = 0) ∧
      (idx = 7#3 → value.toNat = s.cfg.maxBody * 2 ^ 16 + (s.cfg.nCh - 1) * 2 ^ 8 + s.ill.toNat)

/-- R225: the value of a GSTATUS read has ILL as it was, ILL is then 0, a second read has ILL = 0, and one after an illegal command
has ILL = 1. -/
def Obligations.GstatusReadClearsIll : Prop :=
  ∀ (s : State) (c d : ChanNo) (w : Word), isIllegal (decode s.cfg.nCh w) = true →
    ∃ (t t2 u u2 : State) (v v2 v3 : BitVec 32),
      exec (.rdreg c 7#3) s = .next t ∧ t.out = s.out ++ [.rdata c 7#3 v] ∧ v.getLsbD 0 = s.ill ∧ t.ill = false ∧
      exec (.rdreg d 7#3) t = .next t2 ∧ t2.out = t.out ++ [.rdata d 7#3 v2] ∧ v2.getLsbD 0 = false ∧
      exec (decode s.cfg.nCh w) t = .next u ∧
      exec (.rdreg d 7#3) u = .next u2 ∧ u2.out = t.out ++ [.rdata d 7#3 v3] ∧ v3.getLsbD 0 = true ∧ u2.ill = false

/-- R228: the three rows of illegal words set ILL, and change and emit nothing else. -/
def Obligations.IllegalWordsSetIllOnly : Prop :=
  ∀ s : State,
    (∀ r, exec (.illegalOp7 r) s = .next { s with ill := true }) ∧
    (∀ r, exec (.illegalOp8F r) s = .next { s with ill := true }) ∧
    (∀ w, exec (.illegalOther w) s = .next { s with ill := true })

/-! ## The whole machine -/

/-- R38, R97, R129: every instruction answers a next state and leaves alone every channel but its own, the CRC register unless it is
CINIT or CBYTE, ILL unless it is an illegal word or a GSTATUS read, and the configuration and inputs. -/
def Obligations.InstructionsLeaveTheRestAlone : Prop :=
  ∀ (i : Instr) (s : State), ∃ t, exec i s = .next t ∧
    t.cfg = s.cfg ∧ t.input = s.input ∧ t.now = s.now ∧ t.started = s.started ∧ t.chans.length = s.chans.length ∧
    (∀ c, instrChan i ≠ some c → t.chan c = s.chan c) ∧
    (i ≠ .cinit → (∀ d, i ≠ .cbyte d) → t.crcS = s.crcS) ∧
    (isIllegal i = false → (∀ c, i ≠ .rdreg c 7#3) → t.ill = s.ill)

/-- R97, R220: which instructions produce which records; the others produce none. A FRAME comes from LBIT, or from the pair or direct bit
that an LBIT completes, where these are instructions of their own (the model's choice, notes/assumptions/3.md). -/
def Obligations.RecordsComeFromTheirCommands : Prop :=
  ∀ (i : Instr) (s : State), ∃ t, exec i s = .next t ∧
    (t.out = s.out ∨ ∃ r, t.out = s.out ++ [r] ∧
      (match r with
       | .frame c _ _ _ => takesLineBit i = true ∧ instrChan i = some c ∧ (s.chan c).st = .body
       | .rdata c idx _ => i = .rdreg c idx
       | .crcv _ => i = .crd))

/-- R38: what an instruction of channel `c` does to channel `c`, and the record it produces, are fixed by channel `c` itself, the
configuration and TIME, and for a GSTATUS read by ILL; it writes no other channel, not the CRC register, and ILL only as a GSTATUS
read. -/
def Obligations.ChannelsAreIndependent : Prop :=
  ∀ (i : Instr) (s s' : State) (c : ChanNo), instrChan i = some c → s.Has c → s'.Has c → s'.cfg = s.cfg → s'.now = s.now →
    s'.chan c = s.chan c → (i = .rdreg c 7#3 → s'.ill = s.ill) →
    ∃ (t t' : State) (r : Option Record), exec i s = .next t ∧ exec i s' = .next t' ∧ t'.chan c = t.chan c ∧
      t.out = s.out ++ r.toList ∧ t'.out = s'.out ++ r.toList ∧
      t.crcS = s.crcS ∧ t.ill = (if i = .rdreg c 7#3 then false else s.ill) ∧ t.cfg = s.cfg ∧ t.started = s.started ∧
      (∀ d, d ≠ c → t.chan d = s.chan d ∧ t'.chan d = s'.chan d)

/-- R83: a channel's state and its frames depend only on the resets and the commands of that channel, with their TIME values. -/
def Obligations.ChannelSeesOnlyItsOwnCommands : Prop :=
  ∀ (s : State) (c : ChanNo), s.cfg.Wf → s.started = true → s.Has c →
    let own := s.input.filter (eventConcerns s.cfg.nCh c)
    ∃ t t', steps s.input.length s = .next t ∧ steps own.length { s with input := own } = .next t' ∧
      t'.chan c = t.chan c ∧ t'.out.filter (Record.isFrameOf c) = t.out.filter (Record.isFrameOf c)

/-- R129: the framer neither reads nor writes the standalone CRC register, and its commands change no channel. -/
def Obligations.FramerAndCrcUnitAreSeparate : Prop :=
  ∀ (i : Instr) (s t : State), exec i s = .next t →
    ((∃ c, instrChan i = some c) → t.crcS = s.crcS ∧ ∀ v, exec i { s with crcS := v } = .next { t with crcS := v }) ∧
    (i = .cinit ∨ (∃ d, i = .cbyte d) ∨ i = .crd → t.chans = s.chans ∧
      ∀ chs, exec i { s with chans := chs } = .next { t with chans := chs })

/-- R49, R32: ILL goes to 1 only by an illegal command word, and to 0 only by a GSTATUS read or reset. -/
def Obligations.IllChangesOnlyAsStated : Prop :=
  ∀ s t : State, step s = .next t → t.ill ≠ s.ill →
    (t.ill = true ∧ ∃ w now rest, s.input = .cmd w now :: rest ∧ isIllegal (decode s.cfg.nCh w) = true) ∨
    (t.ill = false ∧
      ((∃ rest, s.input = .rst :: rest) ∨
       ∃ c w now rest, s.input = .cmd w now :: rest ∧ decode s.cfg.nCh w = .rdreg c 7#3))

/-- R34, R104: the line protocol changes only where a candidate starts, or by reset. -/
def Obligations.ProtocolChangesOnlyAtAMatch : Prop :=
  ∀ (s t : State) (c : ChanNo), step s = .next t → (t.chan c).lp ≠ (s.chan c).lp →
    (∃ rest, s.input = .rst :: rest) ∨
    ((s.chan c).st = .search ∧ (t.chan c).st = .len ∧
      ∃ b w now rest, s.input = .cmd w now :: rest ∧ decode s.cfg.nCh w = .lbit c b)

/-- R44, R45, R191: a channel's counters and `last` change only by CLRC, or by the one outcome of the candidate that the instruction
ends. -/
def Obligations.CountersChangeOnlyAsStated : Prop :=
  ∀ (i : Instr) (s : State) (c : ChanNo), s.Has c → ∃ t, exec i s = .next t ∧
    ((s.chan c).SameCounts (t.chan c) ∨
     (i = .clrc c ∧ (t.chan c).cntOk = 0#32 ∧ (t.chan c).cntCrc = 0#32 ∧ (t.chan c).cntMan = 0#32 ∧ (t.chan c).cntLen = 0#32 ∧
       (t.chan c).last = .none) ∨
     (instrChan i = some c ∧ (s.chan c).st ≠ .search ∧ (t.chan c).st = .search ∧
       ∃ k, k ≠ .none ∧ (s.chan c).Counted k (t.chan c)))

/-- The invariant of R52 holds after reset, under every configuration of R10 and R12. -/
def Obligations.InvariantHoldsAtReset : Prop :=
  (∀ cfg : Config, cfg.Wf → (State.resetOf cfg).Inv) ∧ State.reset.Inv

/-- R52: the rules keep the invariants, over every step from every state that has them. -/
def Obligations.EveryStepKeepsTheInvariant : Prop :=
  ∀ s t : State, s.Inv → step s = .next t → t.Inv
end

