-- ==== Sys2Proof/Laws/ChannelFields.lean ====
section
/-! SUPPORT. One lemma per field for each update of a channel. -/

namespace Sys2Proof.Machine

/-! ## append -/

@[simp] theorem Channel.append_st (ch : Channel) (y : Byte) : (ch.append y).st = ch.st := rfl
@[simp] theorem Channel.append_lp (ch : Channel) (y : Byte) : (ch.append y).lp = ch.lp := rfl
@[simp] theorem Channel.append_sh (ch : Channel) (y : Byte) : (ch.append y).sh = ch.sh := rfl
@[simp] theorem Channel.append_fill (ch : Channel) (y : Byte) : (ch.append y).fill = ch.fill := rfl
@[simp] theorem Channel.append_hv (ch : Channel) (y : Byte) : (ch.append y).hv = ch.hv := rfl
@[simp] theorem Channel.append_hb (ch : Channel) (y : Byte) : (ch.append y).hb = ch.hb := rfl
@[simp] theorem Channel.append_acc (ch : Channel) (y : Byte) : (ch.append y).acc = ch.acc := rfl
@[simp] theorem Channel.append_nb (ch : Channel) (y : Byte) : (ch.append y).nb = ch.nb := rfl
@[simp] theorem Channel.append_coll (ch : Channel) (y : Byte) : (ch.append y).coll = ch.coll := rfl
@[simp] theorem Channel.append_lcnt (ch : Channel) (y : Byte) : (ch.append y).lcnt = ch.lcnt := rfl
@[simp] theorem Channel.append_lenb (ch : Channel) (y : Byte) : (ch.append y).lenb = ch.lenb := rfl
@[simp] theorem Channel.append_len (ch : Channel) (y : Byte) : (ch.append y).len = ch.len := rfl
@[simp] theorem Channel.append_rem (ch : Channel) (y : Byte) : (ch.append y).rem = ch.rem := rfl
@[simp] theorem Channel.append_wptr (ch : Channel) (y : Byte) : (ch.append y).wptr = ch.wptr + 1 := rfl
@[simp] theorem Channel.append_ts (ch : Channel) (y : Byte) : (ch.append y).ts = ch.ts := rfl
@[simp] theorem Channel.append_cntOk (ch : Channel) (y : Byte) : (ch.append y).cntOk = ch.cntOk := rfl
@[simp] theorem Channel.append_cntCrc (ch : Channel) (y : Byte) : (ch.append y).cntCrc = ch.cntCrc := rfl
@[simp] theorem Channel.append_cntMan (ch : Channel) (y : Byte) : (ch.append y).cntMan = ch.cntMan := rfl
@[simp] theorem Channel.append_cntLen (ch : Channel) (y : Byte) : (ch.append y).cntLen = ch.cntLen := rfl
@[simp] theorem Channel.append_last (ch : Channel) (y : Byte) : (ch.append y).last = ch.last := rfl

/-! ## restart -/

@[simp] theorem Channel.restart_st (ch : Channel) : (ch.restart).st = .search := rfl
@[simp] theorem Channel.restart_lp (ch : Channel) : (ch.restart).lp = ch.lp := rfl
@[simp] theorem Channel.restart_sh (ch : Channel) : (ch.restart).sh = 0#64 := rfl
@[simp] theorem Channel.restart_fill (ch : Channel) : (ch.restart).fill = 0 := rfl
@[simp] theorem Channel.restart_hv (ch : Channel) : (ch.restart).hv = false := rfl
@[simp] theorem Channel.restart_hb (ch : Channel) : (ch.restart).hb = false := rfl
@[simp] theorem Channel.restart_acc (ch : Channel) : (ch.restart).acc = 0#8 := rfl
@[simp] theorem Channel.restart_nb (ch : Channel) : (ch.restart).nb = 0 := rfl
@[simp] theorem Channel.restart_coll (ch : Channel) : (ch.restart).coll = false := rfl
@[simp] theorem Channel.restart_lcnt (ch : Channel) : (ch.restart).lcnt = 0 := rfl
@[simp] theorem Channel.restart_lenb (ch : Channel) : (ch.restart).lenb = 0#16 := rfl
@[simp] theorem Channel.restart_len (ch : Channel) : (ch.restart).len = ch.len := rfl
@[simp] theorem Channel.restart_rem (ch : Channel) : (ch.restart).rem = 0 := rfl
@[simp] theorem Channel.restart_buf (ch : Channel) : (ch.restart).buf = ch.buf := rfl
@[simp] theorem Channel.restart_wptr (ch : Channel) : (ch.restart).wptr = 0 := rfl
@[simp] theorem Channel.restart_ts (ch : Channel) : (ch.restart).ts = ch.ts := rfl
@[simp] theorem Channel.restart_cntOk (ch : Channel) : (ch.restart).cntOk = ch.cntOk := rfl
@[simp] theorem Channel.restart_cntCrc (ch : Channel) : (ch.restart).cntCrc = ch.cntCrc := rfl
@[simp] theorem Channel.restart_cntMan (ch : Channel) : (ch.restart).cntMan = ch.cntMan := rfl
@[simp] theorem Channel.restart_cntLen (ch : Channel) : (ch.restart).cntLen = ch.cntLen := rfl
@[simp] theorem Channel.restart_last (ch : Channel) : (ch.restart).last = ch.last := rfl

/-! ## count and outcome -/

@[simp] theorem Channel.count_st (ch : Channel) (k : CandOutcome) : (ch.count k).st = ch.st := by cases k <;> rfl
@[simp] theorem Channel.count_lp (ch : Channel) (k : CandOutcome) : (ch.count k).lp = ch.lp := by cases k <;> rfl
@[simp] theorem Channel.count_sh (ch : Channel) (k : CandOutcome) : (ch.count k).sh = ch.sh := by cases k <;> rfl
@[simp] theorem Channel.count_fill (ch : Channel) (k : CandOutcome) : (ch.count k).fill = ch.fill := by cases k <;> rfl
@[simp] theorem Channel.count_hv (ch : Channel) (k : CandOutcome) : (ch.count k).hv = ch.hv := by cases k <;> rfl
@[simp] theorem Channel.count_hb (ch : Channel) (k : CandOutcome) : (ch.count k).hb = ch.hb := by cases k <;> rfl
@[simp] theorem Channel.count_acc (ch : Channel) (k : CandOutcome) : (ch.count k).acc = ch.acc := by cases k <;> rfl
@[simp] theorem Channel.count_nb (ch : Channel) (k : CandOutcome) : (ch.count k).nb = ch.nb := by cases k <;> rfl
@[simp] theorem Channel.count_coll (ch : Channel) (k : CandOutcome) : (ch.count k).coll = ch.coll := by cases k <;> rfl
@[simp] theorem Channel.count_lcnt (ch : Channel) (k : CandOutcome) : (ch.count k).lcnt = ch.lcnt := by cases k <;> rfl
@[simp] theorem Channel.count_lenb (ch : Channel) (k : CandOutcome) : (ch.count k).lenb = ch.lenb := by cases k <;> rfl
@[simp] theorem Channel.count_len (ch : Channel) (k : CandOutcome) : (ch.count k).len = ch.len := by cases k <;> rfl
@[simp] theorem Channel.count_rem (ch : Channel) (k : CandOutcome) : (ch.count k).rem = ch.rem := by cases k <;> rfl
@[simp] theorem Channel.count_buf (ch : Channel) (k : CandOutcome) : (ch.count k).buf = ch.buf := by cases k <;> rfl
@[simp] theorem Channel.count_wptr (ch : Channel) (k : CandOutcome) : (ch.count k).wptr = ch.wptr := by cases k <;> rfl
@[simp] theorem Channel.count_ts (ch : Channel) (k : CandOutcome) : (ch.count k).ts = ch.ts := by cases k <;> rfl
@[simp] theorem Channel.count_last (ch : Channel) (k : CandOutcome) : (ch.count k).last = k := by cases k <;> rfl
@[simp] theorem Channel.count_cntOk (ch : Channel) (k : CandOutcome) :
    (ch.count k).cntOk = ch.cntOk + (if k = .ok then 1#32 else 0#32) := by cases k <;> simp [Channel.count]
@[simp] theorem Channel.count_cntCrc (ch : Channel) (k : CandOutcome) :
    (ch.count k).cntCrc = ch.cntCrc + (if k = .crcFail then 1#32 else 0#32) := by cases k <;> simp [Channel.count]
@[simp] theorem Channel.count_cntMan (ch : Channel) (k : CandOutcome) :
    (ch.count k).cntMan = ch.cntMan + (if k = .manchErr then 1#32 else 0#32) := by cases k <;> simp [Channel.count]
@[simp] theorem Channel.count_cntLen (ch : Channel) (k : CandOutcome) :
    (ch.count k).cntLen = ch.cntLen + (if k = .lenErr then 1#32 else 0#32) := by cases k <;> simp [Channel.count]
@[simp] theorem Channel.outcome_st (ch : Channel) (k : CandOutcome) : (ch.outcome k).st = .search := by simp [Channel.outcome]
@[simp] theorem Channel.outcome_lp (ch : Channel) (k : CandOutcome) : (ch.outcome k).lp = ch.lp := by simp [Channel.outcome]
@[simp] theorem Channel.outcome_sh (ch : Channel) (k : CandOutcome) : (ch.outcome k).sh = 0#64 := by simp [Channel.outcome]
@[simp] theorem Channel.outcome_fill (ch : Channel) (k : CandOutcome) : (ch.outcome k).fill = 0 := by simp [Channel.outcome]
@[simp] theorem Channel.outcome_hv (ch : Channel) (k : CandOutcome) : (ch.outcome k).hv = false := by simp [Channel.outcome]
@[simp] theorem Channel.outcome_hb (ch : Channel) (k : CandOutcome) : (ch.outcome k).hb = false := by simp [Channel.outcome]
@[simp] theorem Channel.outcome_acc (ch : Channel) (k : CandOutcome) : (ch.outcome k).acc = 0#8 := by simp [Channel.outcome]
@[simp] theorem Channel.outcome_nb (ch : Channel) (k : CandOutcome) : (ch.outcome k).nb = 0 := by simp [Channel.outcome]
@[simp] theorem Channel.outcome_coll (ch : Channel) (k : CandOutcome) : (ch.outcome k).coll = false := by simp [Channel.outcome]
@[simp] theorem Channel.outcome_lcnt (ch : Channel) (k : CandOutcome) : (ch.outcome k).lcnt = 0 := by simp [Channel.outcome]
@[simp] theorem Channel.outcome_lenb (ch : Channel) (k : CandOutcome) : (ch.outcome k).lenb = 0#16 := by simp [Channel.outcome]
@[simp] theorem Channel.outcome_len (ch : Channel) (k : CandOutcome) : (ch.outcome k).len = ch.len := by simp [Channel.outcome]
@[simp] theorem Channel.outcome_rem (ch : Channel) (k : CandOutcome) : (ch.outcome k).rem = 0 := by simp [Channel.outcome]
@[simp] theorem Channel.outcome_buf (ch : Channel) (k : CandOutcome) : (ch.outcome k).buf = ch.buf := by simp [Channel.outcome]
@[simp] theorem Channel.outcome_wptr (ch : Channel) (k : CandOutcome) : (ch.outcome k).wptr = 0 := by simp [Channel.outcome]
@[simp] theorem Channel.outcome_ts (ch : Channel) (k : CandOutcome) : (ch.outcome k).ts = ch.ts := by simp [Channel.outcome]
@[simp] theorem Channel.outcome_last (ch : Channel) (k : CandOutcome) : (ch.outcome k).last = k := by simp [Channel.outcome]
@[simp] theorem Channel.outcome_cntOk (ch : Channel) (k : CandOutcome) :
    (ch.outcome k).cntOk = ch.cntOk + (if k = .ok then 1#32 else 0#32) := by simp [Channel.outcome]
@[simp] theorem Channel.outcome_cntCrc (ch : Channel) (k : CandOutcome) :
    (ch.outcome k).cntCrc = ch.cntCrc + (if k = .crcFail then 1#32 else 0#32) := by simp [Channel.outcome]
@[simp] theorem Channel.outcome_cntMan (ch : Channel) (k : CandOutcome) :
    (ch.outcome k).cntMan = ch.cntMan + (if k = .manchErr then 1#32 else 0#32) := by simp [Channel.outcome]
@[simp] theorem Channel.outcome_cntLen (ch : Channel) (k : CandOutcome) :
    (ch.outcome k).cntLen = ch.cntLen + (if k = .lenErr then 1#32 else 0#32) := by simp [Channel.outcome]

/-! ## clearCounts -/

@[simp] theorem Channel.clearCounts_st (ch : Channel) : (ch.clearCounts).st = ch.st := rfl
@[simp] theorem Channel.clearCounts_lp (ch : Channel) : (ch.clearCounts).lp = ch.lp := rfl
@[simp] theorem Channel.clearCounts_sh (ch : Channel) : (ch.clearCounts).sh = ch.sh := rfl
@[simp] theorem Channel.clearCounts_fill (ch : Channel) : (ch.clearCounts).fill = ch.fill := rfl
@[simp] theorem Channel.clearCounts_hv (ch : Channel) : (ch.clearCounts).hv = ch.hv := rfl
@[simp] theorem Channel.clearCounts_hb (ch : Channel) : (ch.clearCounts).hb = ch.hb := rfl
@[simp] theorem Channel.clearCounts_acc (ch : Channel) : (ch.clearCounts).acc = ch.acc := rfl
@[simp] theorem Channel.clearCounts_nb (ch : Channel) : (ch.clearCounts).nb = ch.nb := rfl
@[simp] theorem Channel.clearCounts_coll (ch : Channel) : (ch.clearCounts).coll = ch.coll := rfl
@[simp] theorem Channel.clearCounts_lcnt (ch : Channel) : (ch.clearCounts).lcnt = ch.lcnt := rfl
@[simp] theorem Channel.clearCounts_lenb (ch : Channel) : (ch.clearCounts).lenb = ch.lenb := rfl
@[simp] theorem Channel.clearCounts_len (ch : Channel) : (ch.clearCounts).len = ch.len := rfl
@[simp] theorem Channel.clearCounts_rem (ch : Channel) : (ch.clearCounts).rem = ch.rem := rfl
@[simp] theorem Channel.clearCounts_buf (ch : Channel) : (ch.clearCounts).buf = ch.buf := rfl
@[simp] theorem Channel.clearCounts_wptr (ch : Channel) : (ch.clearCounts).wptr = ch.wptr := rfl
@[simp] theorem Channel.clearCounts_ts (ch : Channel) : (ch.clearCounts).ts = ch.ts := rfl
@[simp] theorem Channel.clearCounts_cntOk (ch : Channel) : (ch.clearCounts).cntOk = 0#32 := rfl
@[simp] theorem Channel.clearCounts_cntCrc (ch : Channel) : (ch.clearCounts).cntCrc = 0#32 := rfl
@[simp] theorem Channel.clearCounts_cntMan (ch : Channel) : (ch.clearCounts).cntMan = 0#32 := rfl
@[simp] theorem Channel.clearCounts_cntLen (ch : Channel) : (ch.clearCounts).cntLen = 0#32 := rfl
@[simp] theorem Channel.clearCounts_last (ch : Channel) : (ch.clearCounts).last = .none := rfl

/-! ## pairFlags and latch -/

@[simp] theorem Channel.pairFlags_st (ch : Channel) (p1 p2 : Bool) : (ch.pairFlags p1 p2).st = ch.st := rfl
@[simp] theorem Channel.pairFlags_lp (ch : Channel) (p1 p2 : Bool) : (ch.pairFlags p1 p2).lp = ch.lp := rfl
@[simp] theorem Channel.pairFlags_sh (ch : Channel) (p1 p2 : Bool) : (ch.pairFlags p1 p2).sh = ch.sh := rfl
@[simp] theorem Channel.pairFlags_fill (ch : Channel) (p1 p2 : Bool) : (ch.pairFlags p1 p2).fill = ch.fill := rfl
@[simp] theorem Channel.pairFlags_hv (ch : Channel) (p1 p2 : Bool) : (ch.pairFlags p1 p2).hv = false := rfl
@[simp] theorem Channel.pairFlags_hb (ch : Channel) (p1 p2 : Bool) : (ch.pairFlags p1 p2).hb = ch.hb := rfl
@[simp] theorem Channel.pairFlags_acc (ch : Channel) (p1 p2 : Bool) : (ch.pairFlags p1 p2).acc = ch.acc := rfl
@[simp] theorem Channel.pairFlags_nb (ch : Channel) (p1 p2 : Bool) : (ch.pairFlags p1 p2).nb = ch.nb := rfl
@[simp] theorem Channel.pairFlags_coll (ch : Channel) (p1 p2 : Bool) : (ch.pairFlags p1 p2).coll = (ch.coll || p1 == p2) := rfl
@[simp] theorem Channel.pairFlags_lcnt (ch : Channel) (p1 p2 : Bool) : (ch.pairFlags p1 p2).lcnt = ch.lcnt := rfl
@[simp] theorem Channel.pairFlags_lenb (ch : Channel) (p1 p2 : Bool) : (ch.pairFlags p1 p2).lenb = ch.lenb := rfl
@[simp] theorem Channel.pairFlags_len (ch : Channel) (p1 p2 : Bool) : (ch.pairFlags p1 p2).len = ch.len := rfl
@[simp] theorem Channel.pairFlags_rem (ch : Channel) (p1 p2 : Bool) : (ch.pairFlags p1 p2).rem = ch.rem := rfl
@[simp] theorem Channel.pairFlags_buf (ch : Channel) (p1 p2 : Bool) : (ch.pairFlags p1 p2).buf = ch.buf := rfl
@[simp] theorem Channel.pairFlags_wptr (ch : Channel) (p1 p2 : Bool) : (ch.pairFlags p1 p2).wptr = ch.wptr := rfl
@[simp] theorem Channel.pairFlags_ts (ch : Channel) (p1 p2 : Bool) : (ch.pairFlags p1 p2).ts = ch.ts := rfl
@[simp] theorem Channel.pairFlags_cntOk (ch : Channel) (p1 p2 : Bool) : (ch.pairFlags p1 p2).cntOk = ch.cntOk := rfl
@[simp] theorem Channel.pairFlags_cntCrc (ch : Channel) (p1 p2 : Bool) : (ch.pairFlags p1 p2).cntCrc = ch.cntCrc := rfl
@[simp] theorem Channel.pairFlags_cntMan (ch : Channel) (p1 p2 : Bool) : (ch.pairFlags p1 p2).cntMan = ch.cntMan := rfl
@[simp] theorem Channel.pairFlags_cntLen (ch : Channel) (p1 p2 : Bool) : (ch.pairFlags p1 p2).cntLen = ch.cntLen := rfl
@[simp] theorem Channel.pairFlags_last (ch : Channel) (p1 p2 : Bool) : (ch.pairFlags p1 p2).last = ch.last := rfl
@[simp] theorem Channel.latch_st (ch : Channel) (b : Bool) : (ch.latch b).st = ch.st := rfl
@[simp] theorem Channel.latch_lp (ch : Channel) (b : Bool) : (ch.latch b).lp = ch.lp := rfl
@[simp] theorem Channel.latch_sh (ch : Channel) (b : Bool) : (ch.latch b).sh = ch.sh := rfl
@[simp] theorem Channel.latch_fill (ch : Channel) (b : Bool) : (ch.latch b).fill = ch.fill := rfl
@[simp] theorem Channel.latch_hv (ch : Channel) (b : Bool) : (ch.latch b).hv = true := rfl
@[simp] theorem Channel.latch_hb (ch : Channel) (b : Bool) : (ch.latch b).hb = b := rfl
@[simp] theorem Channel.latch_acc (ch : Channel) (b : Bool) : (ch.latch b).acc = ch.acc := rfl
@[simp] theorem Channel.latch_nb (ch : Channel) (b : Bool) : (ch.latch b).nb = ch.nb := rfl
@[simp] theorem Channel.latch_coll (ch : Channel) (b : Bool) : (ch.latch b).coll = ch.coll := rfl
@[simp] theorem Channel.latch_lcnt (ch : Channel) (b : Bool) : (ch.latch b).lcnt = ch.lcnt := rfl
@[simp] theorem Channel.latch_lenb (ch : Channel) (b : Bool) : (ch.latch b).lenb = ch.lenb := rfl
@[simp] theorem Channel.latch_len (ch : Channel) (b : Bool) : (ch.latch b).len = ch.len := rfl
@[simp] theorem Channel.latch_rem (ch : Channel) (b : Bool) : (ch.latch b).rem = ch.rem := rfl
@[simp] theorem Channel.latch_buf (ch : Channel) (b : Bool) : (ch.latch b).buf = ch.buf := rfl
@[simp] theorem Channel.latch_wptr (ch : Channel) (b : Bool) : (ch.latch b).wptr = ch.wptr := rfl
@[simp] theorem Channel.latch_ts (ch : Channel) (b : Bool) : (ch.latch b).ts = ch.ts := rfl
@[simp] theorem Channel.latch_cntOk (ch : Channel) (b : Bool) : (ch.latch b).cntOk = ch.cntOk := rfl
@[simp] theorem Channel.latch_cntCrc (ch : Channel) (b : Bool) : (ch.latch b).cntCrc = ch.cntCrc := rfl
@[simp] theorem Channel.latch_cntMan (ch : Channel) (b : Bool) : (ch.latch b).cntMan = ch.cntMan := rfl
@[simp] theorem Channel.latch_cntLen (ch : Channel) (b : Bool) : (ch.latch b).cntLen = ch.cntLen := rfl
@[simp] theorem Channel.latch_last (ch : Channel) (b : Bool) : (ch.latch b).last = ch.last := rfl

/-! ## enterBody -/

@[simp] theorem Channel.enterBody_st (ch : Channel) : (ch.enterBody).st = .body := rfl
@[simp] theorem Channel.enterBody_lp (ch : Channel) : (ch.enterBody).lp = ch.lp := rfl
@[simp] theorem Channel.enterBody_sh (ch : Channel) : (ch.enterBody).sh = ch.sh := rfl
@[simp] theorem Channel.enterBody_fill (ch : Channel) : (ch.enterBody).fill = ch.fill := rfl
@[simp] theorem Channel.enterBody_hv (ch : Channel) : (ch.enterBody).hv = ch.hv := rfl
@[simp] theorem Channel.enterBody_hb (ch : Channel) : (ch.enterBody).hb = ch.hb := rfl
@[simp] theorem Channel.enterBody_acc (ch : Channel) : (ch.enterBody).acc = ch.acc := rfl
@[simp] theorem Channel.enterBody_nb (ch : Channel) : (ch.enterBody).nb = ch.nb := rfl
@[simp] theorem Channel.enterBody_coll (ch : Channel) : (ch.enterBody).coll = ch.coll := rfl
@[simp] theorem Channel.enterBody_lcnt (ch : Channel) : (ch.enterBody).lcnt = ch.lcnt := rfl
@[simp] theorem Channel.enterBody_lenb (ch : Channel) : (ch.enterBody).lenb = ch.lenb := rfl
@[simp] theorem Channel.enterBody_len (ch : Channel) : (ch.enterBody).len = ch.len := rfl
@[simp] theorem Channel.enterBody_rem (ch : Channel) : (ch.enterBody).rem = ch.len.toNat + 2 := rfl
@[simp] theorem Channel.enterBody_buf (ch : Channel) : (ch.enterBody).buf = ch.buf := rfl
@[simp] theorem Channel.enterBody_wptr (ch : Channel) : (ch.enterBody).wptr = ch.wptr := rfl
@[simp] theorem Channel.enterBody_ts (ch : Channel) : (ch.enterBody).ts = ch.ts := rfl
@[simp] theorem Channel.enterBody_cntOk (ch : Channel) : (ch.enterBody).cntOk = ch.cntOk := rfl
@[simp] theorem Channel.enterBody_cntCrc (ch : Channel) : (ch.enterBody).cntCrc = ch.cntCrc := rfl
@[simp] theorem Channel.enterBody_cntMan (ch : Channel) : (ch.enterBody).cntMan = ch.cntMan := rfl
@[simp] theorem Channel.enterBody_cntLen (ch : Channel) : (ch.enterBody).cntLen = ch.cntLen := rfl
@[simp] theorem Channel.enterBody_last (ch : Channel) : (ch.enterBody).last = ch.last := rfl

/-! ## searchShift and syncMatch -/

@[simp] theorem Channel.searchShift_st (ch : Channel) (cfg : Config) (b : Bool) : (ch.searchShift cfg b).st = ch.st := rfl
@[simp] theorem Channel.searchShift_lp (ch : Channel) (cfg : Config) (b : Bool) : (ch.searchShift cfg b).lp = ch.lp := rfl
@[simp] theorem Channel.searchShift_fill (ch : Channel) (cfg : Config) (b : Bool) : (ch.searchShift cfg b).fill = min (ch.fill + 1) cfg.patW := rfl
@[simp] theorem Channel.searchShift_hv (ch : Channel) (cfg : Config) (b : Bool) : (ch.searchShift cfg b).hv = ch.hv := rfl
@[simp] theorem Channel.searchShift_hb (ch : Channel) (cfg : Config) (b : Bool) : (ch.searchShift cfg b).hb = ch.hb := rfl
@[simp] theorem Channel.searchShift_acc (ch : Channel) (cfg : Config) (b : Bool) : (ch.searchShift cfg b).acc = ch.acc := rfl
@[simp] theorem Channel.searchShift_nb (ch : Channel) (cfg : Config) (b : Bool) : (ch.searchShift cfg b).nb = ch.nb := rfl
@[simp] theorem Channel.searchShift_coll (ch : Channel) (cfg : Config) (b : Bool) : (ch.searchShift cfg b).coll = ch.coll := rfl
@[simp] theorem Channel.searchShift_lcnt (ch : Channel) (cfg : Config) (b : Bool) : (ch.searchShift cfg b).lcnt = ch.lcnt := rfl
@[simp] theorem Channel.searchShift_lenb (ch : Channel) (cfg : Config) (b : Bool) : (ch.searchShift cfg b).lenb = ch.lenb := rfl
@[simp] theorem Channel.searchShift_len (ch : Channel) (cfg : Config) (b : Bool) : (ch.searchShift cfg b).len = ch.len := rfl
@[simp] theorem Channel.searchShift_rem (ch : Channel) (cfg : Config) (b : Bool) : (ch.searchShift cfg b).rem = ch.rem := rfl
@[simp] theorem Channel.searchShift_buf (ch : Channel) (cfg : Config) (b : Bool) : (ch.searchShift cfg b).buf = ch.buf := rfl
@[simp] theorem Channel.searchShift_wptr (ch : Channel) (cfg : Config) (b : Bool) : (ch.searchShift cfg b).wptr = ch.wptr := rfl
@[simp] theorem Channel.searchShift_ts (ch : Channel) (cfg : Config) (b : Bool) : (ch.searchShift cfg b).ts = ch.ts := rfl
@[simp] theorem Channel.searchShift_cntOk (ch : Channel) (cfg : Config) (b : Bool) : (ch.searchShift cfg b).cntOk = ch.cntOk := rfl
@[simp] theorem Channel.searchShift_cntCrc (ch : Channel) (cfg : Config) (b : Bool) : (ch.searchShift cfg b).cntCrc = ch.cntCrc := rfl
@[simp] theorem Channel.searchShift_cntMan (ch : Channel) (cfg : Config) (b : Bool) : (ch.searchShift cfg b).cntMan = ch.cntMan := rfl
@[simp] theorem Channel.searchShift_cntLen (ch : Channel) (cfg : Config) (b : Bool) : (ch.searchShift cfg b).cntLen = ch.cntLen := rfl
@[simp] theorem Channel.searchShift_last (ch : Channel) (cfg : Config) (b : Bool) : (ch.searchShift cfg b).last = ch.last := rfl
@[simp] theorem Channel.syncMatch_st (ch : Channel) (cfg : Config) (now : Time) (p : LineProtocol) : (ch.syncMatch cfg now p).st = .len := rfl
@[simp] theorem Channel.syncMatch_lp (ch : Channel) (cfg : Config) (now : Time) (p : LineProtocol) : (ch.syncMatch cfg now p).lp = p := rfl
@[simp] theorem Channel.syncMatch_sh (ch : Channel) (cfg : Config) (now : Time) (p : LineProtocol) : (ch.syncMatch cfg now p).sh = ch.sh := rfl
@[simp] theorem Channel.syncMatch_fill (ch : Channel) (cfg : Config) (now : Time) (p : LineProtocol) : (ch.syncMatch cfg now p).fill = ch.fill := rfl
@[simp] theorem Channel.syncMatch_hv (ch : Channel) (cfg : Config) (now : Time) (p : LineProtocol) : (ch.syncMatch cfg now p).hv = false := rfl
@[simp] theorem Channel.syncMatch_hb (ch : Channel) (cfg : Config) (now : Time) (p : LineProtocol) : (ch.syncMatch cfg now p).hb = false := rfl
@[simp] theorem Channel.syncMatch_acc (ch : Channel) (cfg : Config) (now : Time) (p : LineProtocol) : (ch.syncMatch cfg now p).acc = 0#8 := rfl
@[simp] theorem Channel.syncMatch_nb (ch : Channel) (cfg : Config) (now : Time) (p : LineProtocol) : (ch.syncMatch cfg now p).nb = 0 := rfl
@[simp] theorem Channel.syncMatch_coll (ch : Channel) (cfg : Config) (now : Time) (p : LineProtocol) : (ch.syncMatch cfg now p).coll = false := rfl
@[simp] theorem Channel.syncMatch_lcnt (ch : Channel) (cfg : Config) (now : Time) (p : LineProtocol) : (ch.syncMatch cfg now p).lcnt = 0 := rfl
@[simp] theorem Channel.syncMatch_lenb (ch : Channel) (cfg : Config) (now : Time) (p : LineProtocol) : (ch.syncMatch cfg now p).lenb = 0#16 := rfl
@[simp] theorem Channel.syncMatch_len (ch : Channel) (cfg : Config) (now : Time) (p : LineProtocol) : (ch.syncMatch cfg now p).len = ch.len := rfl
@[simp] theorem Channel.syncMatch_rem (ch : Channel) (cfg : Config) (now : Time) (p : LineProtocol) : (ch.syncMatch cfg now p).rem = ch.rem := rfl
@[simp] theorem Channel.syncMatch_buf (ch : Channel) (cfg : Config) (now : Time) (p : LineProtocol) : (ch.syncMatch cfg now p).buf = ch.buf := rfl
@[simp] theorem Channel.syncMatch_wptr (ch : Channel) (cfg : Config) (now : Time) (p : LineProtocol) : (ch.syncMatch cfg now p).wptr = 0 := rfl
@[simp] theorem Channel.syncMatch_ts (ch : Channel) (cfg : Config) (now : Time) (p : LineProtocol) : (ch.syncMatch cfg now p).ts = lowBits cfg.tsW now := rfl
@[simp] theorem Channel.syncMatch_cntOk (ch : Channel) (cfg : Config) (now : Time) (p : LineProtocol) : (ch.syncMatch cfg now p).cntOk = ch.cntOk := rfl
@[simp] theorem Channel.syncMatch_cntCrc (ch : Channel) (cfg : Config) (now : Time) (p : LineProtocol) : (ch.syncMatch cfg now p).cntCrc = ch.cntCrc := rfl
@[simp] theorem Channel.syncMatch_cntMan (ch : Channel) (cfg : Config) (now : Time) (p : LineProtocol) : (ch.syncMatch cfg now p).cntMan = ch.cntMan := rfl
@[simp] theorem Channel.syncMatch_cntLen (ch : Channel) (cfg : Config) (now : Time) (p : LineProtocol) : (ch.syncMatch cfg now p).cntLen = ch.cntLen := rfl
@[simp] theorem Channel.syncMatch_last (ch : Channel) (cfg : Config) (now : Time) (p : LineProtocol) : (ch.syncMatch cfg now p).last = ch.last := rfl

end Sys2Proof.Machine
end

