-- ==== Sys2Proof/Laws/Decode.lean ====
section
/-! SUPPORT. The fields of a command word as numbers, legality (R93) against the opcode table, and what the decoder makes of every
word the encoder writes. -/

namespace Sys2Proof

/-! ## Fields -/

theorem opField_toNat (w : Word) : (opField w).toNat = w.toNat / 2 ^ 28 := by
  have := w.isLt
  simp only [opField, BitVec.extractLsb'_toNat, Nat.shiftRight_eq_div_pow]
  omega

theorem rsv1Field_toNat (w : Word) : (rsv1Field w).toNat = w.toNat / 2 ^ 24 % 16 := by
  simp only [rsv1Field, BitVec.extractLsb'_toNat, Nat.shiftRight_eq_div_pow]

theorem chField_toNat (w : Word) : (chField w).toNat = w.toNat / 2 ^ 16 % 256 := by
  simp only [chField, BitVec.extractLsb'_toNat, Nat.shiftRight_eq_div_pow]

theorem rsv2Field_toNat (w : Word) : (rsv2Field w).toNat = w.toNat / 2 ^ 8 % 256 := by
  simp only [rsv2Field, BitVec.extractLsb'_toNat, Nat.shiftRight_eq_div_pow]

theorem argField_toNat (w : Word) : (argField w).toNat = w.toNat % 256 := by
  simp [argField, BitVec.extractLsb'_toNat]

theorem idxField_toNat (w : Word) : (idxField w).toNat = w.toNat % 8 := by
  simp [idxField, BitVec.extractLsb'_toNat]

theorem bitField_eq (w : Word) : bitField w = decide (w.toNat % 2 = 1) := by
  simp [bitField, BitVec.getLsbD, Nat.testBit_zero]

/-- The value of a concatenation. -/
theorem append_toNat {m n : Nat} (x : BitVec m) (y : BitVec n) : (x ++ y).toNat = x.toNat * 2 ^ n + y.toNat := by
  rw [BitVec.toNat_append, ← Nat.shiftLeft_add_eq_or_of_lt y.isLt, Nat.shiftLeft_eq]

theorem cmdWord_toNat (op : BitVec 4) (c : ChanNo) (arg : BitVec 8) :
    (cmdWord op c arg).toNat = op.toNat * 2 ^ 28 + c.toNat * 2 ^ 16 + arg.toNat := by
  simp only [cmdWord, append_toNat, BitVec.toNat_ofNat]
  omega

/-- Words with the same fields are the same word. -/
theorem word_ext {w w' : Word} (h1 : opField w = opField w') (h2 : rsv1Field w = rsv1Field w') (h3 : chField w = chField w')
    (h4 : rsv2Field w = rsv2Field w') (h5 : argField w = argField w') : w = w' := by
  have h1' := congrArg BitVec.toNat h1
  have h2' := congrArg BitVec.toNat h2
  have h3' := congrArg BitVec.toNat h3
  have h4' := congrArg BitVec.toNat h4
  have h5' := congrArg BitVec.toNat h5
  simp only [opField_toNat, rsv1Field_toNat, chField_toNat, rsv2Field_toNat, argField_toNat] at h1' h2' h3' h4' h5'
  apply BitVec.eq_of_toNat_eq
  omega

section CmdWord

variable (op : BitVec 4) (c : ChanNo) (arg : BitVec 8)

@[simp] theorem opField_cmdWord : opField (cmdWord op c arg) = op := by
  apply BitVec.eq_of_toNat_eq
  have := op.isLt; have := c.isLt; have := arg.isLt
  rw [opField_toNat, cmdWord_toNat]
  omega

@[simp] theorem rsv1Field_cmdWord : rsv1Field (cmdWord op c arg) = 0#4 := by
  apply BitVec.eq_of_toNat_eq
  have := op.isLt; have := c.isLt; have := arg.isLt
  rw [rsv1Field_toNat, cmdWord_toNat]
  simp only [BitVec.toNat_ofNat]
  omega

@[simp] theorem chField_cmdWord : chField (cmdWord op c arg) = c := by
  apply BitVec.eq_of_toNat_eq
  have := op.isLt; have := c.isLt; have := arg.isLt
  rw [chField_toNat, cmdWord_toNat]
  omega

@[simp] theorem rsv2Field_cmdWord : rsv2Field (cmdWord op c arg) = 0#8 := by
  apply BitVec.eq_of_toNat_eq
  have := op.isLt; have := c.isLt; have := arg.isLt
  rw [rsv2Field_toNat, cmdWord_toNat]
  simp only [BitVec.toNat_ofNat]
  omega

@[simp] theorem argField_cmdWord : argField (cmdWord op c arg) = arg := by
  apply BitVec.eq_of_toNat_eq
  have := op.isLt; have := c.isLt; have := arg.isLt
  rw [argField_toNat, cmdWord_toNat]
  omega

theorem idxField_cmdWord : (idxField (cmdWord op c arg)).toNat = arg.toNat % 8 := by
  rw [idxField_toNat, cmdWord_toNat]
  omega

theorem bitField_cmdWord : bitField (cmdWord op c arg) = decide (arg.toNat % 2 = 1) := by
  rw [bitField_eq, cmdWord_toNat]
  congr 2
  omega

end CmdWord

/-- A legal word has no reserved bit, so its op, ch and arg fields make it up. -/
theorem eq_cmdWord {w : Word} (h1 : rsv1Field w = 0) (h2 : rsv2Field w = 0) :
    w = cmdWord (opField w) (chField w) (argField w) :=
  word_ext (by simp) (by simp [h1]) (by simp) (by simp [h2]) (by simp)

/-! ## Legality and the opcode table -/

/-- A word matches a mask and a pattern when each of its fields does. -/
theorem masked_iff (w m p : Word) :
    (w &&& m) = p ↔
      opField w &&& opField m = opField p ∧ rsv1Field w &&& rsv1Field m = rsv1Field p ∧ chField w &&& chField m = chField p ∧
        rsv2Field w &&& rsv2Field m = rsv2Field p ∧ argField w &&& argField m = argField p := by
  have hand : ∀ (a b : Nat), (w &&& m).extractLsb' a b = w.extractLsb' a b &&& m.extractLsb' a b :=
    fun a b => BitVec.extractLsb'_and
  constructor
  · intro h
    subst h
    refine ⟨?_, ?_, ?_, ?_, ?_⟩ <;> exact (hand _ _).symm
  · rintro ⟨h1, h2, h3, h4, h5⟩
    exact word_ext ((hand _ _).trans h1) ((hand _ _).trans h2) ((hand _ _).trans h3) ((hand _ _).trans h4) ((hand _ _).trans h5)

theorem and_fe_iff (a : BitVec 8) : a &&& 0xFE = 0 ↔ a.extractLsb' 1 7 = 0 := by
  revert a; decide

theorem and_f8_iff (a : BitVec 8) : a &&& 0xF8 = 0 ↔ a.extractLsb' 3 5 = 0 := by
  revert a; decide

/-- R92 and R93 over the fields' values: the legal words, row by row. -/
abbrev LegalFields (nCh : Nat) (w : Word) : Prop :=
  rsv1Field w = 0 ∧ rsv2Field w = 0 ∧
    ((opField w = 0 ∧ (chField w).toNat < nCh ∧ (argField w).extractLsb' 1 7 = 0) ∨
     (opField w = 1 ∧ (chField w).toNat < nCh ∧ argField w = 0) ∨
     (opField w = 2 ∧ (chField w).toNat < nCh ∧ argField w = 0) ∨
     (opField w = 3 ∧ (chField w).toNat < nCh ∧ (argField w).extractLsb' 3 5 = 0) ∨
     (opField w = 4 ∧ chField w = 0 ∧ argField w = 0) ∨
     (opField w = 5 ∧ chField w = 0) ∨
     (opField w = 6 ∧ chField w = 0 ∧ argField w = 0))

theorem legal_iff (nCh : Nat) (w : Word) : legal nCh w = true ↔ LegalFields nCh w := by
  unfold legal legalOperands LegalFields
  generalize opField w = op
  have hop : op = 0 ∨ op = 1 ∨ op = 2 ∨ op = 3 ∨ op = 4 ∨ op = 5 ∨ op = 6 ∨ 7 ≤ op.toNat := by
    revert op; decide
  rcases hop with h | h | h | h | h | h | h | h
  case inr.inr.inr.inr.inr.inr.inr =>
    constructor
    · intro hl
      have : ¬ op.toNat ≤ 6 := by omega
      simp [this] at hl
    · rintro ⟨-, -, hl⟩
      rcases hl with ⟨rfl, -⟩ | ⟨rfl, -⟩ | ⟨rfl, -⟩ | ⟨rfl, -⟩ | ⟨rfl, -⟩ | ⟨rfl, -⟩ | ⟨rfl, -⟩ <;> exact absurd h (by decide)
  all_goals
    subst h
    simp [and_assoc]

theorem inCommandRow_iff (nCh : Nat) (w : Word) : inCommandRow nCh w = true ↔ LegalFields nCh w := by
  have row : ∀ (m p : Word) (b : Bool), (⟨m, p, b⟩ : OpRow).covers nCh w = true ↔
      (opField w &&& opField m = opField p ∧ rsv1Field w &&& rsv1Field m = rsv1Field p ∧
        chField w &&& chField m = chField p ∧ rsv2Field w &&& rsv2Field m = rsv2Field p ∧
        argField w &&& argField m = argField p) ∧ (b = true → (chField w).toNat < nCh) := by
    intro m p b
    simp only [OpRow.covers, Bool.and_eq_true, beq_iff_eq, masked_iff, chField]
    cases b <;> simp
  simp only [inCommandRow, opRows, List.any_cons, List.any_nil, Bool.or_eq_true, row]
  unfold LegalFields
  rw [← and_fe_iff, ← and_f8_iff]
  generalize opField w = op
  generalize rsv1Field w = r1
  generalize chField w = c
  generalize rsv2Field w = r2
  generalize argField w = a
  have e4 : ∀ x : BitVec 4, x &&& 15#4 = x := by decide
  have e8 : ∀ x : BitVec 8, x &&& 255#8 = x := by decide
  simp [opField, rsv1Field, chField, rsv2Field, argField]
  simp only [e4, e8]
  by_cases h1 : r1 = 0#4 <;> by_cases h2 : r2 = 0#8 <;> simp [h1, h2, and_assoc, and_comm, and_left_comm]

/-- R93 and the command rows of spec/opcode_table.json name the same words legal. -/
theorem legal_eq_inCommandRow (nCh : Nat) (w : Word) : legal nCh w = inCommandRow nCh w := by
  rw [Bool.eq_iff_iff, legal_iff, inCommandRow_iff]

/-! ## Decoding what the encoder writes -/

theorem legal_cmdWord (nCh : Nat) (op : BitVec 4) (c : ChanNo) (arg : BitVec 8) :
    legal nCh (cmdWord op c arg) = true ↔
      (op = 0 ∧ c.toNat < nCh ∧ arg.extractLsb' 1 7 = 0) ∨
      (op = 1 ∧ c.toNat < nCh ∧ arg = 0) ∨
      (op = 2 ∧ c.toNat < nCh ∧ arg = 0) ∨
      (op = 3 ∧ c.toNat < nCh ∧ arg.extractLsb' 3 5 = 0) ∨
      (op = 4 ∧ c = 0 ∧ arg = 0) ∨
      (op = 5 ∧ c = 0) ∨
      (op = 6 ∧ c = 0 ∧ arg = 0) := by
  simp [legal_iff, LegalFields]

theorem decode_lbitWord {nCh : Nat} {c : ChanNo} (h : c.toNat < nCh) (b : Bool) :
    decode nCh (cmdWord 0#4 c (0#7 ++ BitVec.ofBool b)) = .lbit c b := by
  have hl : legal nCh (cmdWord 0#4 c (0#7 ++ BitVec.ofBool b)) = true := by
    rw [legal_cmdWord]
    exact .inl ⟨rfl, h, by cases b <;> decide⟩
  simp only [decode, hl, if_true, decodeLegal, opField_cmdWord, chField_cmdWord, bitField_cmdWord]
  cases b <;> rfl

theorem decode_eosWord {nCh : Nat} {c : ChanNo} (h : c.toNat < nCh) : decode nCh (cmdWord 1#4 c 0#8) = .eos c := by
  have hl : legal nCh (cmdWord 1#4 c 0#8) = true := by
    rw [legal_cmdWord]
    exact .inr (.inl ⟨rfl, h, rfl⟩)
  simp only [decode, hl, if_true, decodeLegal, opField_cmdWord, chField_cmdWord]
  rfl

theorem decode_clrcWord {nCh : Nat} {c : ChanNo} (h : c.toNat < nCh) : decode nCh (cmdWord 2#4 c 0#8) = .clrc c := by
  have hl : legal nCh (cmdWord 2#4 c 0#8) = true := by
    rw [legal_cmdWord]
    exact .inr (.inr (.inl ⟨rfl, h, rfl⟩))
  simp only [decode, hl, if_true, decodeLegal, opField_cmdWord, chField_cmdWord]
  rfl

theorem decode_rdregWord {nCh : Nat} {c : ChanNo} (h : c.toNat < nCh) (idx : BitVec 3) :
    decode nCh (cmdWord 3#4 c (0#5 ++ idx)) = .rdreg c idx := by
  have hl : legal nCh (cmdWord 3#4 c (0#5 ++ idx)) = true := by
    rw [legal_cmdWord]
    exact .inr (.inr (.inr (.inl ⟨rfl, h, by revert idx; decide⟩)))
  have hi : idxField (cmdWord 3#4 c (0#5 ++ idx)) = idx := by
    apply BitVec.eq_of_toNat_eq
    rw [idxField_cmdWord, append_toNat]
    have := idx.isLt
    simp only [BitVec.toNat_ofNat]
    omega
  simp only [decode, hl, if_true, decodeLegal, opField_cmdWord, chField_cmdWord, hi]
  rfl

theorem decode_cinitWord (nCh : Nat) : decode nCh (cmdWord 4#4 0#8 0#8) = .cinit := by
  have hl : legal nCh (cmdWord 4#4 0#8 0#8) = true := by
    rw [legal_cmdWord]
    exact .inr (.inr (.inr (.inr (.inl ⟨rfl, rfl, rfl⟩))))
  simp only [decode, hl, if_true]
  rfl

theorem decode_cbyteWord (nCh : Nat) (d : Byte) : decode nCh (cmdWord 5#4 0#8 d) = .cbyte d := by
  have hl : legal nCh (cmdWord 5#4 0#8 d) = true := by
    rw [legal_cmdWord]
    exact .inr (.inr (.inr (.inr (.inr (.inl ⟨rfl, rfl⟩)))))
  simp only [decode, hl, if_true, decodeLegal, opField_cmdWord, argField_cmdWord]
  rfl

theorem decode_crdWord (nCh : Nat) : decode nCh (cmdWord 6#4 0#8 0#8) = .crd := by
  have hl : legal nCh (cmdWord 6#4 0#8 0#8) = true := by
    rw [legal_cmdWord]
    exact .inr (.inr (.inr (.inr (.inr (.inr ⟨rfl, rfl, rfl⟩)))))
  simp only [decode, hl, if_true]
  rfl

/-- A word whose op is above 6 is not legal. -/
theorem legal_of_op {nCh : Nat} {w : Word} (h : 7 ≤ (opField w).toNat) : legal nCh w = false := by
  simp [legal, show ¬ (opField w).toNat ≤ 6 by omega]

theorem decode_illegalOp7Word (nCh : Nat) (rest : BitVec 28) : decode nCh (7#4 ++ rest) = .illegalOp7 rest := by
  have hr := rest.isLt
  have hop : (opField (7#4 ++ rest)).toNat = 7 := by
    rw [opField_toNat, append_toNat]
    simp only [BitVec.toNat_ofNat]
    omega
  have hrest : (7#4 ++ rest : Word).extractLsb' 0 28 = rest := BitVec.extractLsb'_append_eq_right
  simp only [decode, legal_of_op (nCh := nCh) (le_of_eq hop.symm), decodeIllegal, hop, if_true, hrest]
  rfl

theorem decode_illegalOp8FWord (nCh : Nat) (rest : BitVec 31) : decode nCh (1#1 ++ rest) = .illegalOp8F rest := by
  have hr := rest.isLt
  have hop : 8 ≤ (opField (1#1 ++ rest)).toNat := by
    rw [opField_toNat, append_toNat]
    simp only [BitVec.toNat_ofNat]
    omega
  have hrest : (1#1 ++ rest : Word).extractLsb' 0 31 = rest := BitVec.extractLsb'_append_eq_right
  have h7 : (opField (1#1 ++ rest)).toNat ≠ 7 := by omega
  simp only [decode, legal_of_op (nCh := nCh) (w := 1#1 ++ rest) (by omega), decodeIllegal, h7, if_false, hop, if_true,
    hrest]
  rfl

theorem decode_illegalOtherWord {nCh : Nat} {w : Word} (h : (opField w).toNat ≤ 6) (hrow : inCommandRow nCh w = false) :
    decode nCh w = .illegalOther w := by
  have h7 : (opField w).toNat ≠ 7 := by omega
  have h8 : ¬ 8 ≤ (opField w).toNat := by omega
  simp [decode, legal_eq_inCommandRow, hrow, decodeIllegal, h7, h8]

/-- Everything the decoder makes of a word: the command it encodes, or the row of illegal words it stands in. -/
theorem decode_cases (nCh : Nat) (w : Word) :
    (∃ c b, c.toNat < nCh ∧ w = cmdWord 0#4 c (0#7 ++ BitVec.ofBool b) ∧ decode nCh w = .lbit c b) ∨
    (∃ c, c.toNat < nCh ∧ w = cmdWord 1#4 c 0#8 ∧ decode nCh w = .eos c) ∨
    (∃ c, c.toNat < nCh ∧ w = cmdWord 2#4 c 0#8 ∧ decode nCh w = .clrc c) ∨
    (∃ c idx, c.toNat < nCh ∧ w = cmdWord 3#4 c (0#5 ++ idx) ∧ decode nCh w = .rdreg c idx) ∨
    (w = cmdWord 4#4 0#8 0#8 ∧ decode nCh w = .cinit) ∨
    (∃ d, w = cmdWord 5#4 0#8 d ∧ decode nCh w = .cbyte d) ∨
    (w = cmdWord 6#4 0#8 0#8 ∧ decode nCh w = .crd) ∨
    (∃ rest : BitVec 28, w = 7#4 ++ rest ∧ decode nCh w = .illegalOp7 rest) ∨
    (∃ rest : BitVec 31, w = 1#1 ++ rest ∧ decode nCh w = .illegalOp8F rest) ∨
    ((opField w).toNat ≤ 6 ∧ inCommandRow nCh w = false ∧ decode nCh w = .illegalOther w) := by
  by_cases hl : legal nCh w = true
  · obtain ⟨h1, h2, h⟩ := (legal_iff nCh w).mp hl
    have e := eq_cmdWord h1 h2
    have hbit : ∀ a : BitVec 8, a.extractLsb' 1 7 = 0 → ∃ b, a = 0#7 ++ BitVec.ofBool b := by decide
    have hidx : ∀ a : BitVec 8, a.extractLsb' 3 5 = 0 → ∃ idx : BitVec 3, a = 0#5 ++ idx := by decide
    rcases h with ⟨ho, hc, ha⟩ | ⟨ho, hc, ha⟩ | ⟨ho, hc, ha⟩ | ⟨ho, hc, ha⟩ | ⟨ho, hc, ha⟩ | ⟨ho, hc⟩ | ⟨ho, hc, ha⟩
    · obtain ⟨b, hb⟩ := hbit _ ha
      rw [ho, hb] at e
      exact .inl ⟨_, b, hc, e, (congrArg _ e).trans (decode_lbitWord hc b)⟩
    · rw [ho, ha] at e
      exact .inr (.inl ⟨_, hc, e, (congrArg _ e).trans (decode_eosWord hc)⟩)
    · rw [ho, ha] at e
      exact .inr (.inr (.inl ⟨_, hc, e, (congrArg _ e).trans (decode_clrcWord hc)⟩))
    · obtain ⟨idx, hi⟩ := hidx _ ha
      rw [ho, hi] at e
      exact .inr (.inr (.inr (.inl ⟨_, idx, hc, e, (congrArg _ e).trans (decode_rdregWord hc idx)⟩)))
    · rw [ho, hc, ha] at e
      exact .inr (.inr (.inr (.inr (.inl ⟨e, (congrArg _ e).trans (decode_cinitWord nCh)⟩))))
    · rw [ho, hc] at e
      exact .inr (.inr (.inr (.inr (.inr (.inl ⟨_, e, (congrArg _ e).trans (decode_cbyteWord nCh _)⟩)))))
    · rw [ho, hc, ha] at e
      exact .inr (.inr (.inr (.inr (.inr (.inr (.inl ⟨e, (congrArg _ e).trans (decode_crdWord nCh)⟩))))))
  · have hl' : legal nCh w = false := by simpa using hl
    have hop := opField_toNat w
    have hlt := w.isLt
    refine .inr (.inr (.inr (.inr (.inr (.inr (.inr ?_))))))
    by_cases h7 : (opField w).toNat = 7
    · have e : w = 7#4 ++ w.extractLsb' 0 28 := by
        apply BitVec.eq_of_toNat_eq
        rw [append_toNat, BitVec.extractLsb'_toNat, Nat.shiftRight_zero, BitVec.toNat_ofNat]
        omega
      exact .inl ⟨_, e, (congrArg _ e).trans (decode_illegalOp7Word nCh _)⟩
    · by_cases h8 : 8 ≤ (opField w).toNat
      · have e : w = 1#1 ++ w.extractLsb' 0 31 := by
          apply BitVec.eq_of_toNat_eq
          rw [append_toNat, BitVec.extractLsb'_toNat, Nat.shiftRight_zero, BitVec.toNat_ofNat]
          omega
        exact .inr (.inl ⟨_, e, (congrArg _ e).trans (decode_illegalOp8FWord nCh _)⟩)
      · have hrow : inCommandRow nCh w = false := by rw [← legal_eq_inCommandRow, hl']
        exact .inr (.inr ⟨by omega, hrow, decode_illegalOtherWord (by omega) hrow⟩)

/-! ## Search patterns -/

/-- The value of a search pattern (R13, R150). -/
theorem Config.pattern_toNat {cfg : Config} (hw : cfg.syncW ≤ 32) {sync : BitVec 32} (hs : sync.toNat < 2 ^ cfg.syncW) :
    (cfg.pattern sync).toNat = cfg.preamble.toNat * 2 ^ cfg.syncW + sync.toNat := by
  have hp := cfg.preamble.isLt
  have h1 : cfg.preamble.toNat * 2 ^ cfg.syncW < 2 ^ 64 :=
    calc cfg.preamble.toNat * 2 ^ cfg.syncW < 2 ^ 32 * 2 ^ cfg.syncW := Nat.mul_lt_mul_of_pos_right hp (by positivity)
      _ ≤ 2 ^ 32 * 2 ^ 32 := Nat.mul_le_mul_left _ (Nat.pow_le_pow_right (by decide) hw)
  have h2 : (cfg.preamble.setWidth 64 <<< cfg.syncW : BitVec 64).toNat = cfg.preamble.toNat * 2 ^ cfg.syncW := by
    rw [BitVec.toNat_shiftLeft, BitVec.toNat_setWidth,
      Nat.mod_eq_of_lt (a := cfg.preamble.toNat) (by omega), Nat.shiftLeft_eq, Nat.mod_eq_of_lt h1]
  have h3 : (sync.setWidth 64 : BitVec 64).toNat = sync.toNat := by
    have := sync.isLt
    rw [BitVec.toNat_setWidth, Nat.mod_eq_of_lt (by omega)]
  rw [Config.pattern, BitVec.toNat_or, h2, h3, ← Nat.shiftLeft_eq, Nat.shiftLeft_add_eq_or_of_lt hs]

/-- A search pattern has PAT_W bits. -/
theorem Config.pattern_lt {cfg : Config} (hw : cfg.syncW ≤ 32) {sync : BitVec 32} (hs : sync.toNat < 2 ^ cfg.syncW) :
    (cfg.pattern sync).toNat < 2 ^ cfg.patW := by
  rw [Config.pattern_toNat hw hs, Config.patW, Config.preambleW, Nat.pow_add]
  have hp := cfg.preamble.isLt
  calc cfg.preamble.toNat * 2 ^ cfg.syncW + sync.toNat < cfg.preamble.toNat * 2 ^ cfg.syncW + 2 ^ cfg.syncW := by omega
    _ = (cfg.preamble.toNat + 1) * 2 ^ cfg.syncW := by ring
    _ ≤ 2 ^ 32 * 2 ^ cfg.syncW := Nat.mul_le_mul_right _ hp

/-- Legal sync words give different search patterns (R12). -/
theorem Config.patA_ne_patB {cfg : Config} (h : cfg.Wf) : cfg.patA ≠ cfg.patB := by
  obtain ⟨-, ⟨-, hw⟩, ⟨hA, hB⟩, hne, -, -⟩ := h
  intro e
  apply hne
  apply BitVec.eq_of_toNat_eq
  have := congrArg BitVec.toNat e
  rw [Config.patA, Config.patB, Config.pattern_toNat hw hA, Config.pattern_toNat hw hB] at this
  omega

@[simp] theorem bitsMsbFirst_length (w : Window) (n : Nat) : (bitsMsbFirst w n).length = n := by
  induction n with
  | zero => rfl
  | succ n ih => simp [bitsMsbFirst, ih]

/-- Line bits determine the low bits they were taken from. -/
theorem bitsMsbFirst_inj {w w' : Window} {n : Nat} (h : bitsMsbFirst w n = bitsMsbFirst w' n) :
    ∀ i < n, w.getLsbD i = w'.getLsbD i := by
  induction n with
  | zero => intro i hi; omega
  | succ n ih =>
    simp only [bitsMsbFirst, List.cons.injEq] at h
    intro i hi
    rcases Nat.lt_succ_iff_lt_or_eq.mp hi with h' | rfl
    · exact ih h.2 i h'
    · exact h.1

/-- The search patterns differ as line bits. -/
theorem Config.bits_patA_ne_patB {cfg : Config} (h : cfg.Wf) :
    bitsMsbFirst cfg.patA cfg.patW ≠ bitsMsbFirst cfg.patB cfg.patW := by
  obtain ⟨-, ⟨-, hw⟩, ⟨hA, hB⟩, -, -, -⟩ := id h
  intro e
  apply Config.patA_ne_patB h
  apply BitVec.eq_of_getLsbD_eq
  intro i hi
  by_cases hlt : i < cfg.patW
  · exact bitsMsbFirst_inj e i hlt
  · have hge : ∀ v : Window, v.toNat < 2 ^ cfg.patW → v.getLsbD i = false := by
      intro v hv
      apply Nat.testBit_lt_two_pow
      exact lt_of_lt_of_le hv (Nat.pow_le_pow_right (by decide) (by omega))
    exact (hge _ (Config.pattern_lt hw hA)).trans (hge _ (Config.pattern_lt hw hB)).symm

end Sys2Proof
end

