-- ==== Sys2Proof/Laws/Channel.lean ====
section
/-! SUPPORT. For each shared operation on a channel, one lemma that says everything it can do, and the small lemmas of its fields.
Proofs cite these and do not unfold the operations. -/

namespace Sys2Proof.Machine

/-! ## Widths -/

@[simp] theorem lowBits_toNat (n : Nat) (v : BitVec 64) : (lowBits n v).toNat = v.toNat % 2 ^ n := by
  have h : v.toNat % 2 ^ n < 2 ^ 64 := lt_of_le_of_lt (Nat.mod_le _ _) v.isLt
  rw [lowBits, BitVec.toNat_setWidth, BitVec.toNat_setWidth, Nat.mod_eq_of_lt h]

theorem lowBits_lt (n : Nat) (v : BitVec 64) : (lowBits n v).toNat < 2 ^ n := by
  rw [lowBits_toNat]
  exact Nat.mod_lt _ (by positivity)

/-- R151 in numbers: the new window is twice the old one and the new bit, within PAT_W bits. -/
theorem searchShift_sh_toNat {cfg : Config} (h : cfg.patW ≤ 64) (b : Bool) (ch : Channel) :
    (ch.searchShift cfg b).sh.toNat = (2 * ch.sh.toNat + b.toNat) % 2 ^ cfg.patW := by
  have hb : ((BitVec.ofBool b).setWidth 64 : BitVec 64).toNat = b.toNat := by cases b <;> rfl
  have hs : (ch.sh <<< 1 : BitVec 64).toNat = (2 * ch.sh.toNat) % 2 ^ 64 := by
    rw [BitVec.toNat_shiftLeft, Nat.shiftLeft_eq, Nat.mul_comm]
  have hor : (2 * ch.sh.toNat) % 2 ^ 64 ||| b.toNat = (2 * ch.sh.toNat) % 2 ^ 64 + b.toNat := by
    have h2 : (2 * ch.sh.toNat) % 2 ^ 64 = ((2 * ch.sh.toNat) % 2 ^ 64 / 2) <<< 1 := by
      rw [Nat.shiftLeft_eq]; omega
    rw [h2, Nat.shiftLeft_add_eq_or_of_lt (by cases b <;> decide)]
  have hd : 2 ^ cfg.patW ∣ 2 ^ 64 := Nat.pow_dvd_pow 2 h
  simp only [Channel.searchShift, lowBits_toNat, BitVec.toNat_or, hs, hb, hor]
  rw [Nat.add_mod, Nat.mod_mod_of_dvd _ hd, ← Nat.add_mod]

/-! ## The frame buffer -/

/-- `append` adds one byte to the candidate's frame bytes. -/
theorem append_frame {ch : Channel} (h : ch.wptr < ch.buf.length) (y : Byte) : (ch.append y).frame = ch.frame ++ [y] := by
  simp only [Channel.frame, Channel.append]
  rw [List.take_add_one, List.take_set_of_le (Nat.le_refl _)]
  simp [h]

/-- `append` keeps the number of entries. -/
@[simp] theorem append_length (ch : Channel) (y : Byte) : (ch.append y).buf.length = ch.buf.length := by
  simp [Channel.append]

theorem append_getD {ch : Channel} (h : ch.wptr < ch.buf.length) (y : Byte) : (ch.append y).buf.getD ch.wptr 0#8 = y := by
  simp [Channel.append, List.getD_eq_getElem?_getD, h]

/-- `append` leaves the entries before `wptr` alone. -/
theorem append_take (ch : Channel) (y : Byte) {n : Nat} (hn : n ≤ ch.wptr) : (ch.append y).buf.take n = ch.buf.take n :=
  List.take_set_of_le hn

/-- `append` leaves every entry but the one at `wptr` alone. -/
theorem append_getD_ne (ch : Channel) (y : Byte) {n : Nat} (hn : n ≠ ch.wptr) :
    (ch.append y).buf.getD n 0#8 = ch.buf.getD n 0#8 := by
  simp [Channel.append, List.getD_eq_getElem?_getD, List.getElem?_set_ne (Ne.symm hn)]

/-! ## What a completed frame byte does -/

/-- The channel of a length-field byte after R181 and the first two lines of R182. -/
abbrev Channel.lengthStored (cfg : Config) (y : Byte) (ch : Channel) : Channel :=
  { ch.append y with lcnt := ch.lcnt + 1, lenb := addLengthByte cfg ch.lp ch.lcnt ch.lenb y }

/-- The channel of a body or checksum byte after R181 and the first line of R187. -/
abbrev Channel.bodyStored (y : Byte) (ch : Channel) : Channel := { ch.append y with rem := ch.rem - 1 }

/-- R181 in LEN: the field goes on, or ends as R184 says. -/
theorem frameByte_len {cfg : Config} {c : ChanNo} {y : Byte} {ch : Channel} (h : ch.st = .len) :
    (ch.lcnt + 1 ≠ ch.lp.lw ∧ ch.frameByte cfg c y = (ch.lengthStored cfg y, none)) ∨
    (ch.lcnt + 1 = ch.lp.lw ∧ ch.coll = true ∧ ch.frameByte cfg c y = ((ch.lengthStored cfg y).outcome .manchErr, none)) ∨
    (ch.lcnt + 1 = ch.lp.lw ∧ ch.coll = false ∧ lenAccepted cfg (ch.lengthStored cfg y).lenb = true ∧
      ch.frameByte cfg c y = ({ ch.lengthStored cfg y with len := (ch.lengthStored cfg y).lenb }.enterBody, none)) ∨
    (ch.lcnt + 1 = ch.lp.lw ∧ ch.coll = false ∧ lenAccepted cfg (ch.lengthStored cfg y).lenb = false ∧
      ch.frameByte cfg c y = ({ ch.lengthStored cfg y with len := (ch.lengthStored cfg y).lenb }.outcome .lenErr, none)) := by
  have e : ch.frameByte cfg c y =
      ((if ch.lcnt + 1 = ch.lp.lw then (ch.lengthStored cfg y).lengthDone cfg else ch.lengthStored cfg y), none) := by
    show (if (ch.append y).st = .len then ((ch.append y).lengthByte cfg y, none) else (ch.append y).bodyByte c) = _
    rw [if_pos (show (ch.append y).st = .len from h)]
    rfl
  rw [e]
  by_cases h1 : ch.lcnt + 1 = ch.lp.lw
  · cases h2 : ch.coll
    · cases h3 : lenAccepted cfg (ch.lengthStored cfg y).lenb
      · exact .inr (.inr (.inr ⟨h1, rfl, rfl, by simp [h1, Channel.lengthDone, h2, h3]⟩))
      · exact .inr (.inr (.inl ⟨h1, rfl, rfl, by simp [h1, Channel.lengthDone, h2, h3]⟩))
    · exact .inr (.inl ⟨h1, rfl, by simp [h1, Channel.lengthDone, h2]⟩)
  · exact .inl ⟨h1, by simp [h1]⟩

/-- R181 in BODY: the body goes on, or ends as R188 says. -/
theorem frameByte_body {cfg : Config} {c : ChanNo} {y : Byte} {ch : Channel} (h : ch.st = .body) :
    (ch.rem - 1 ≠ 0 ∧ ch.frameByte cfg c y = (ch.bodyStored y, none)) ∨
    (ch.rem - 1 = 0 ∧ ch.coll = true ∧ ch.frameByte cfg c y = ((ch.bodyStored y).outcome .manchErr, none)) ∨
    (ch.rem - 1 = 0 ∧ ch.coll = false ∧ valid (ch.append y).frame = true ∧
      ch.frameByte cfg c y = ((ch.bodyStored y).outcome .ok, some ((ch.append y).frameRecord c))) ∨
    (ch.rem - 1 = 0 ∧ ch.coll = false ∧ valid (ch.append y).frame = false ∧
      ch.frameByte cfg c y = ((ch.bodyStored y).outcome .crcFail, none)) := by
  have e : ch.frameByte cfg c y =
      if ch.rem - 1 = 0 then (ch.bodyStored y).bodyDone c else (ch.bodyStored y, none) := by
    show (if (ch.append y).st = .len then ((ch.append y).lengthByte cfg y, none) else (ch.append y).bodyByte c) = _
    rw [if_neg (show (ch.append y).st ≠ .len by simp [h])]
    rfl
  rw [e]
  by_cases h1 : ch.rem - 1 = 0
  · have hf : (ch.bodyStored y).frame = (ch.append y).frame := rfl
    have hr : (ch.bodyStored y).frameRecord c = (ch.append y).frameRecord c := rfl
    cases h2 : ch.coll
    · cases h3 : valid (ch.append y).frame
      · exact .inr (.inr (.inr ⟨h1, rfl, rfl, by simp [h1, Channel.bodyDone, h2, hf, h3]⟩))
      · exact .inr (.inr (.inl ⟨h1, rfl, rfl, by simp [h1, Channel.bodyDone, h2, hf, h3, hr]⟩))
    · exact .inr (.inl ⟨h1, rfl, by simp [h1, Channel.bodyDone, h2]⟩)
  · exact .inl ⟨h1, by simp [h1]⟩

/-! ## Byte assembly and line decoders -/

/-- R163: a byte in progress goes on, or its eighth data bit completes a frame byte. -/
theorem deliver_cases (cfg : Config) (c : ChanNo) (d : Bool) (ch : Channel) :
    (ch.nb ≠ 7 ∧ ch.deliver cfg c d = ({ ch with acc := addDataBit cfg.bitOrder ch.acc d, nb := ch.nb + 1 }, none)) ∨
    (ch.nb = 7 ∧ ch.deliver cfg c d =
      { ch with acc := 0#8, nb := 0 }.frameByte cfg c (addDataBit cfg.bitOrder ch.acc d ^^^ ch.lp.mask)) := by
  by_cases h : ch.nb = 7
  · exact .inr ⟨h, by simp [Channel.deliver, h]⟩
  · exact .inl ⟨h, by simp [Channel.deliver, h]⟩

/-- R163 in numbers: the data bit enters at bit 0 from the right or at bit 7 from the left. -/
theorem addDataBit_toNat (order : BitOrder) (acc : Byte) (d : Bool) :
    (addDataBit order acc d).toNat =
      match order with
      | .msbFirst => (2 * acc.toNat + d.toNat) % 256
      | .lsbFirst => acc.toNat / 2 + 128 * d.toNat := by
  cases order <;> revert acc d <;> decide

/-- R180 and R152: what an LBIT does in SEARCH. -/
theorem lineBit_search {cfg : Config} {c : ChanNo} {now : Time} {b : Bool} {ch : Channel} (h : ch.st = .search) :
    ch.lineBit cfg c now b = ((ch.searchShift cfg b).matchTest cfg now, none) := by
  simp [Channel.lineBit, h]

theorem lineBit_man {cfg : Config} {c : ChanNo} {now : Time} {b : Bool} {ch : Channel} (h : ch.st ≠ .search) (hp : ch.lp = .man) :
    ch.lineBit cfg c now b = if ch.hv then ch.pair cfg c ch.hb b else (ch.latch b, none) := by
  cases hs : ch.st <;> simp_all [Channel.lineBit, Channel.manchester]

theorem lineBit_dir {cfg : Config} {c : ChanNo} {now : Time} {b : Bool} {ch : Channel} (h : ch.st ≠ .search) (hp : ch.lp = .dir) :
    ch.lineBit cfg c now b = ch.deliver cfg c (!b) := by
  cases hs : ch.st <;> simp_all [Channel.lineBit, Channel.direct]

/-- R152, R153: no match, sync word A, or sync word B where A does not match. -/
theorem matchTest_cases (cfg : Config) (now : Time) (ch : Channel) :
    (ch.windowIs cfg cfg.patA = true ∧ ch.matchTest cfg now = ch.syncMatch cfg now .man) ∨
    (ch.windowIs cfg cfg.patA = false ∧ ch.windowIs cfg cfg.patB = true ∧ ch.matchTest cfg now = ch.syncMatch cfg now .dir) ∨
    (ch.windowIs cfg cfg.patA = false ∧ ch.windowIs cfg cfg.patB = false ∧ ch.matchTest cfg now = ch) := by
  cases hA : ch.windowIs cfg cfg.patA <;> cases hB : ch.windowIs cfg cfg.patB <;> simp [Channel.matchTest, hA, hB]

/-- R180: everything an LBIT can do to its channel. -/
theorem lineBit_cases (cfg : Config) (c : ChanNo) (now : Time) (b : Bool) (ch : Channel) :
    (ch.st = .search ∧ ch.lineBit cfg c now b = ((ch.searchShift cfg b).matchTest cfg now, none)) ∨
    (ch.st ≠ .search ∧ ch.lp = .man ∧ ch.hv = false ∧ ch.lineBit cfg c now b = (ch.latch b, none)) ∨
    (ch.st ≠ .search ∧ ch.lp = .man ∧ ch.hv = true ∧
      ch.lineBit cfg c now b = (ch.pairFlags ch.hb b).deliver cfg c (pairData cfg.manchPol ch.hb b)) ∨
    (ch.st ≠ .search ∧ ch.lp = .dir ∧ ch.lineBit cfg c now b = ch.deliver cfg c (!b)) := by
  by_cases h : ch.st = .search
  · exact .inl ⟨h, lineBit_search h⟩
  · cases hp : ch.lp
    · cases hv : ch.hv
      · exact .inr (.inl ⟨h, rfl, rfl, by simp [lineBit_man h hp, hv]⟩)
      · exact .inr (.inr (.inl ⟨h, rfl, rfl, by simp [lineBit_man h hp, hv, Channel.pair]⟩))
    · exact .inr (.inr (.inr ⟨h, rfl, lineBit_dir h hp⟩))

/-- A line symbol at the point where its decoder is due to recognise it is what the LBIT that completes it does. -/
theorem pairSymbol_due {cfg : Config} {c : ChanNo} {p1 : Bool} {ch : Channel} (h : ch.pairDue p1 = true) (p2 : Bool) :
    ch.pairSymbol cfg c p1 p2 = (ch.pairFlags p1 p2).deliver cfg c (pairData cfg.manchPol p1 p2) := by
  simp [Channel.pairSymbol, h, Channel.pair]

theorem directSymbol_due {cfg : Config} {c : ChanNo} {ch : Channel} (h : ch.directDue = true) (q : Bool) :
    ch.directSymbol cfg c q = ch.deliver cfg c (!q) := by
  simp [Channel.directSymbol, h, Channel.direct]

end Sys2Proof.Machine
end

