-- ==== Sys2Proof/Laws/ChannelInv.lean ====
section
/-! SUPPORT. Each operation on a channel keeps the channel's invariant (R52), under a configuration of R10. -/

namespace Sys2Proof.Machine

/-- A channel after reset meets its invariant. -/
theorem reset_inv (cfg : Config) : (Channel.reset cfg).Inv cfg := by
  refine ⟨⟨Nat.zero_le _, ?_, ?_, ?_, Nat.zero_le _, ?_, ?_⟩, ?_, ?_, ?_⟩ <;> simp [Channel.reset, Channel.SearchInv]

/-- A channel after reset has the values of R53. -/
theorem reset_atReset (cfg : Config) : (Channel.reset cfg).AtReset := by
  unfold Channel.AtReset
  simp [Channel.reset]

/-- A candidate always has an entry of the buffer left for its next byte (R42). -/
theorem inv_wptr_lt {cfg : Config} {ch : Channel} (h : ch.Inv cfg) (hs : ch.st ≠ .search) : ch.wptr < ch.buf.length := by
  obtain ⟨⟨-, -, -, -, -, hbuf, -⟩, -, hlen, hbody⟩ := h
  have hlw : ch.lp.lw ≤ 2 := by cases ch.lp <;> decide
  rw [hbuf, Config.frameMax]
  cases hst : ch.st
  · exact absurd hst hs
  · have := hlen hst; omega
  · have := hbody hst; omega

/-- CLRC's change keeps the invariant: no clause reads a counter or `last`. -/
theorem clearCounts_inv {cfg : Config} {ch : Channel} (h : ch.Inv cfg) : ch.clearCounts.Inv cfg := h

/-- What a channel that has just restarted its search needs of the fields that stay. -/
theorem outcome_inv {cfg : Config} {ch : Channel} (k : CandOutcome) (hts : ch.ts.toNat < 2 ^ cfg.tsW)
    (hbuf : ch.buf.length = cfg.frameMax) : (ch.outcome k).Inv cfg := by
  refine ⟨⟨?_, ?_, ?_, ?_, ?_, ?_, ?_⟩, ?_, ?_, ?_⟩ <;> simp [hts, hbuf, Channel.SearchInv]

/-- `restart_search` keeps the invariant. -/
theorem restart_inv {cfg : Config} {ch : Channel} (h : ch.Inv cfg) : ch.restart.Inv cfg := by
  obtain ⟨⟨-, -, -, hts, -, hbuf, -⟩, -⟩ := h
  refine ⟨⟨?_, ?_, ?_, ?_, ?_, ?_, ?_⟩, ?_, ?_, ?_⟩ <;> simp [hts, hbuf, Channel.SearchInv]

/-- The search shift keeps the invariant: the window stays below 2^fill. -/
theorem searchShift_inv {cfg : Config} {ch : Channel} (hw : cfg.syncW ≤ 32) (b : Bool) (h : ch.Inv cfg) :
    (ch.searchShift cfg b).Inv cfg := by
  obtain ⟨⟨hfill, hsh, hnb, hts, hwp, hbuf, hdir⟩, hsearch, hlen, hbody⟩ := h
  have hpat : cfg.patW ≤ 64 := by simp only [Config.patW, Config.preambleW]; omega
  refine ⟨⟨?_, ?_, hnb, hts, hwp, hbuf, hdir⟩, hsearch, hlen, hbody⟩
  · simp
  · rw [searchShift_sh_toNat hpat, Channel.searchShift_fill]
    have hb : b.toNat ≤ 1 := Bool.toNat_le b
    rcases Nat.lt_or_ge ch.fill cfg.patW with hlt | hge
    · rw [Nat.min_eq_left hlt, Nat.pow_succ]
      exact lt_of_le_of_lt (Nat.mod_le _ _) (by omega)
    · rw [Nat.min_eq_right (by omega)]
      exact Nat.mod_lt _ (by positivity)

/-- A sync match from SEARCH keeps the invariant. -/
theorem syncMatch_inv {cfg : Config} {ch : Channel} (now : Time) (p : LineProtocol) (hs : ch.st = .search) (h : ch.Inv cfg) :
    (ch.syncMatch cfg now p).Inv cfg := by
  obtain ⟨⟨hfill, hsh, -, -, -, hbuf, -⟩, hsearch, -, -⟩ := h
  obtain ⟨-, -, -, -, -, -, -, -, hrem⟩ := hsearch hs
  have hlw : 0 < p.lw := by cases p <;> decide
  have hts := lowBits_lt cfg.tsW now
  refine ⟨⟨?_, ?_, ?_, ?_, ?_, ?_, ?_⟩, ?_, ?_, ?_⟩ <;> simp_all [Channel.LenInv]

/-- An LBIT in SEARCH keeps the invariant. -/
theorem matchTest_inv {cfg : Config} {ch : Channel} (now : Time) (hs : ch.st = .search) (h : ch.Inv cfg) :
    (ch.matchTest cfg now).Inv cfg := by
  rcases matchTest_cases cfg now ch with ⟨-, e⟩ | ⟨-, -, e⟩ | ⟨-, -, e⟩ <;> rw [e]
  · exact syncMatch_inv now .man hs h
  · exact syncMatch_inv now .dir hs h
  · exact h

/-- The length value of a field of one byte (R75). -/
theorem addLengthByte_man (cfg : Config) (y : Byte) : addLengthByte cfg .man 0 0#16 y = y.setWidth 16 := by
  simp [addLengthByte, LineProtocol.lw]

/-- The first byte of a direct length field stands in the low byte, whatever the order (R182). -/
theorem addLengthByte_dir_first (cfg : Config) (y : Byte) : addLengthByte cfg .dir 0 0#16 y = y.setWidth 16 := by
  unfold addLengthByte
  split <;> simp

/-- R75: the value of a direct length field. -/
theorem addLengthByte_dir_second (cfg : Config) (y0 y1 : Byte) :
    (addLengthByte cfg .dir 1 (y0.setWidth 16) y1).toNat =
      match cfg.lenOrder with
      | .big => y0.toNat * 256 + y1.toNat
      | .little => y1.toNat * 256 + y0.toNat := by
  have h0 := y0.isLt
  have h1 := y1.isLt
  have e0 : (y0.setWidth 16 : Half).toNat = y0.toNat := by
    rw [BitVec.toNat_setWidth, Nat.mod_eq_of_lt (by omega)]
  have e1 : (y1.setWidth 16 : Half).toNat = y1.toNat := by
    rw [BitVec.toNat_setWidth, Nat.mod_eq_of_lt (by omega)]
  have shl : ∀ x : Half, x.toNat < 256 → (x <<< 8 : Half).toNat = x.toNat * 256 := by
    intro x hx
    rw [BitVec.toNat_shiftLeft, Nat.shiftLeft_eq, Nat.mod_eq_of_lt (by omega)]
  have or8 : ∀ a b : Nat, b < 256 → a * 256 ||| b = a * 256 + b := by
    intro a b hb
    rw [show a * 256 = a <<< 8 by rw [Nat.shiftLeft_eq], Nat.shiftLeft_add_eq_or_of_lt (by simpa using hb)]
  cases ho : cfg.lenOrder
  · simp only [addLengthByte, ho, true_or, if_true]
    rw [BitVec.toNat_or, shl _ (by omega), e0, e1, or8 _ _ (by omega)]
  · simp only [addLengthByte, ho, LineProtocol.lw]
    rw [if_neg (by decide), BitVec.toNat_or, Nat.mul_one, shl _ (by omega), e0, e1, Nat.or_comm, or8 _ _ (by omega)]

/-- The length field in the buffer is the one that R101 gives the decoded value. -/
theorem lenBytes_man (cfg : Config) (y : Byte) : lenBytes cfg .man y.toNat = [y] := by
  simp [lenBytes]

theorem lenBytes_dir (cfg : Config) (y0 y1 : Byte) :
    lenBytes cfg .dir (addLengthByte cfg .dir 1 (y0.setWidth 16) y1).toNat = [y0, y1] := by
  have h0 := y0.isLt
  have h1 := y1.isLt
  have hi : ∀ a b : Byte, BitVec.ofNat 8 ((a.toNat * 256 + b.toNat) / 256) = a := by
    intro a b
    apply BitVec.eq_of_toNat_eq
    have := a.isLt; have := b.isLt
    rw [BitVec.toNat_ofNat]; omega
  have lo : ∀ a b : Byte, BitVec.ofNat 8 (a.toNat * 256 + b.toNat) = b := by
    intro a b
    apply BitVec.eq_of_toNat_eq
    have := a.isLt; have := b.isLt
    rw [BitVec.toNat_ofNat]; omega
  rw [addLengthByte_dir_second]
  cases ho : cfg.lenOrder <;> simp [lenBytes, ho, hi, lo]

/-- A completed frame byte keeps the invariant. -/
theorem frameByte_inv {cfg : Config} {ch : Channel} (c : ChanNo) (y : Byte) (hs : ch.st ≠ .search)
    (hnb : ch.nb = 0) (h : ch.Inv cfg) :
    (ch.frameByte cfg c y).1.Inv cfg := by
  have hlt := inv_wptr_lt h hs
  obtain ⟨⟨hfill, hsh, -, hts, hwp, hbuf, hdir⟩, -, hlen, hbody⟩ := h
  have hlw : ch.lp.lw ≤ 2 := by cases ch.lp <;> decide
  have hlw0 : 1 ≤ ch.lp.lw := by cases ch.lp <;> decide
  cases hst : ch.st
  · exact absurd hst hs
  · obtain ⟨hl, hw, hr, h0, h1⟩ := hlen hst
    have hbl : (ch.append y).buf.length = cfg.frameMax := (append_length ch y).trans hbuf
    have hwl : ch.wptr + 1 ≤ cfg.frameMax := by omega
    rcases frameByte_len (cfg := cfg) (c := c) (y := y) hst with ⟨hne, e⟩ | ⟨-, -, e⟩ | ⟨heq, hcoll, hacc, e⟩ | ⟨-, -, -, e⟩ <;> rw [e]
    · have hl0 : ch.lcnt = 0 := by omega
      have hl2 : ch.lp = .dir := by
        cases hp : ch.lp
        · simp [hp, LineProtocol.lw] at hl hne; omega
        · rfl
      have hb0 : (ch.append y).buf.getD 0 0#8 = y := by
        have := append_getD hlt y
        rwa [hw, hl0] at this
      refine ⟨⟨hfill, hsh, ?_, hts, hwl, hbl, hdir⟩, fun h => ?_, fun _ => ?_, fun h => ?_⟩
      · simp [hnb]
      · simp [hst] at h
      · refine ⟨?_, by simp [hw], hr, by simp, fun _ => ?_⟩
        · simp only [Channel.append_lp]; omega
        · show addLengthByte cfg ch.lp ch.lcnt ch.lenb y = ((ch.append y).buf.getD 0 0#8).setWidth 16
          rw [hb0, hl2, hl0, h0 hl0, addLengthByte_dir_first]
      · simp [hst] at h
    · exact outcome_inv _ hts hbl
    · simp only [lenAccepted, Bool.and_eq_true, decide_eq_true_eq] at hacc
      obtain ⟨hmin, hmx⟩ := hacc
      refine ⟨⟨hfill, hsh, ?_, hts, hwl, hbl, hdir⟩, fun h => ?_, fun h => ?_, fun _ => ?_⟩
      · simp [hnb]
      · simp at h
      · simp at h
      · refine ⟨?_, ?_, ?_, ?_, hmin, hmx, ?_, ?_⟩
        · simp [heq]
        · simp
        · simp
        · simp only [Channel.enterBody_wptr, Channel.enterBody_lp, Channel.enterBody_len, Channel.enterBody_rem,
            Channel.append_wptr, Channel.append_lp, hw]
          omega
        · show (ch.append y).buf.take ch.lp.lw = lenBytes cfg ch.lp (addLengthByte cfg ch.lp ch.lcnt ch.lenb y).toNat
          have htake : (ch.append y).buf.take ch.lp.lw = ch.buf.take ch.lcnt ++ [y] := by
            have := append_frame hlt y
            simp only [Channel.frame, Channel.append_wptr] at this
            rw [hw, heq] at this
            exact this
          rw [htake]
          cases hp : ch.lp
          · have hl0 : ch.lcnt = 0 := by rw [hp] at hl; simp only [LineProtocol.lw] at hl; omega
            have hy := y.isLt
            rw [hl0, h0 hl0, addLengthByte_man]
            have : (y.setWidth 16 : Half).toNat = y.toNat := by
              rw [BitVec.toNat_setWidth, Nat.mod_eq_of_lt (by omega)]
            rw [this, lenBytes_man]
            simp
          · have hl1 : ch.lcnt = 1 := by rw [hp] at heq; simp only [LineProtocol.lw] at heq; omega
            rw [hl1, h1 hl1, lenBytes_dir]
            have hne : 0 < ch.buf.length := by omega
            cases hbf : ch.buf with
            | nil => simp [hbf] at hne
            | cons a l => simp
        · intro hp
          show (addLengthByte cfg ch.lp ch.lcnt ch.lenb y).toNat ≤ 255
          have hp' : ch.lp = .man := hp
          have hl0 : ch.lcnt = 0 := by rw [hp'] at hl; simp only [LineProtocol.lw] at hl; omega
          have hy := y.isLt
          rw [hp', hl0, h0 hl0, addLengthByte_man, BitVec.toNat_setWidth]
          omega
    · exact outcome_inv _ hts hbl
  · obtain ⟨hl, hr1, hr2, hw, hmin, hmx, htk, hm⟩ := hbody hst
    have hbl : (ch.append y).buf.length = cfg.frameMax := (append_length ch y).trans hbuf
    have hwl : ch.wptr + 1 ≤ cfg.frameMax := by omega
    rcases frameByte_body (cfg := cfg) (c := c) (y := y) hst with ⟨hne, e⟩ | ⟨-, -, e⟩ | ⟨-, -, -, e⟩ | ⟨-, -, -, e⟩ <;> rw [e]
    · refine ⟨⟨hfill, hsh, ?_, hts, hwl, hbl, hdir⟩, fun h => ?_, fun h => ?_, fun _ => ?_⟩
      · simp [hnb]
      · simp [hst] at h
      · simp [hst] at h
      · refine ⟨hl, ?_, ?_, ?_, hmin, hmx, ?_, hm⟩
        · show 1 ≤ ch.rem - 1
          omega
        · show ch.rem - 1 ≤ ch.len.toNat + 2
          omega
        · show ch.wptr + 1 = ch.lp.lw + (ch.len.toNat + 2 - (ch.rem - 1))
          omega
        · show (ch.append y).buf.take ch.lp.lw = _
          rw [append_take ch y (by omega)]
          exact htk
    · exact outcome_inv _ hts hbl
    · exact outcome_inv _ hts hbl
    · exact outcome_inv _ hts hbl

/-- Delivery of a data bit keeps the invariant. -/
theorem deliver_inv {cfg : Config} {ch : Channel} (c : ChanNo) (d : Bool) (hs : ch.st ≠ .search)
    (h : ch.Inv cfg) : (ch.deliver cfg c d).1.Inv cfg := by
  obtain ⟨⟨hfill, hsh, hnb, hts, hwp, hbuf, hdir⟩, -, hlen, hbody⟩ := id h
  rcases deliver_cases cfg c d ch with ⟨hne, e⟩ | ⟨-, e⟩ <;> rw [e]
  · exact ⟨⟨hfill, hsh, by show ch.nb + 1 ≤ 7; omega, hts, hwp, hbuf, hdir⟩, fun h => absurd h hs, hlen, hbody⟩
  · exact frameByte_inv c _ hs rfl
      ⟨⟨hfill, hsh, by show 0 ≤ 7; omega, hts, hwp, hbuf, hdir⟩, fun h => absurd h hs, hlen, hbody⟩

/-- Latching the first half of a pair keeps the invariant. -/
theorem latch_inv {cfg : Config} {ch : Channel} (b : Bool) (hs : ch.st ≠ .search) (hp : ch.lp = .man) (h : ch.Inv cfg) :
    (ch.latch b).Inv cfg := by
  obtain ⟨⟨hfill, hsh, hnb, hts, hwp, hbuf, -⟩, -, hlen, hbody⟩ := h
  exact ⟨⟨hfill, hsh, hnb, hts, hwp, hbuf, fun e => by simp [hp] at e⟩, fun h => absurd h hs, hlen, hbody⟩

/-- Ending a pair keeps the invariant. -/
theorem pairFlags_inv {cfg : Config} {ch : Channel} (p1 p2 : Bool) (hs : ch.st ≠ .search) (hp : ch.lp = .man) (h : ch.Inv cfg) :
    (ch.pairFlags p1 p2).Inv cfg := by
  obtain ⟨⟨hfill, hsh, hnb, hts, hwp, hbuf, -⟩, -, hlen, hbody⟩ := h
  exact ⟨⟨hfill, hsh, hnb, hts, hwp, hbuf, fun e => by simp [hp] at e⟩, fun h => absurd h hs, hlen, hbody⟩

/-- LBIT keeps the invariant of its channel. -/
theorem lineBit_inv {cfg : Config} (hw : cfg.Wf) {ch : Channel} (c : ChanNo) (now : Time) (b : Bool) (h : ch.Inv cfg) :
    (ch.lineBit cfg c now b).1.Inv cfg := by
  obtain ⟨-, ⟨-, hsw⟩, -⟩ := hw
  rcases lineBit_cases cfg c now b ch with ⟨hs, e⟩ | ⟨hs, hp, -, e⟩ | ⟨hs, hp, -, e⟩ | ⟨hs, hp, e⟩ <;> rw [e]
  · exact matchTest_inv now hs (searchShift_inv hsw b h)
  · exact latch_inv b hs hp h
  · exact deliver_inv c _ hs (pairFlags_inv ch.hb b hs hp h)
  · exact deliver_inv c _ hs h

/-- A sync word keeps the invariant of its channel. -/
theorem syncSymbol_inv {cfg : Config} {ch : Channel} (now : Time) (p : LineProtocol) (h : ch.Inv cfg) :
    (ch.syncSymbol cfg now p).Inv cfg := by
  cases p <;> simp only [Channel.syncSymbol] <;> split
  · exact syncMatch_inv now .man (by tauto) h
  · exact h
  · exact syncMatch_inv now .dir (by tauto) h
  · exact h

/-- A Manchester pair keeps the invariant of its channel. -/
theorem pairSymbol_inv {cfg : Config} {ch : Channel} (c : ChanNo) (p1 p2 : Bool) (h : ch.Inv cfg) :
    (ch.pairSymbol cfg c p1 p2).1.Inv cfg := by
  by_cases hd : ch.pairDue p1 = true
  · rw [pairSymbol_due hd]
    simp only [Channel.pairDue, Bool.and_eq_true, bne_iff_ne, beq_iff_eq] at hd
    exact deliver_inv c _ hd.1.1.1 (pairFlags_inv p1 p2 hd.1.1.1 hd.1.1.2 h)
  · simpa [Channel.pairSymbol, hd] using h

/-- A direct line bit keeps the invariant of its channel. -/
theorem directSymbol_inv {cfg : Config} {ch : Channel} (c : ChanNo) (q : Bool) (h : ch.Inv cfg) :
    (ch.directSymbol cfg c q).1.Inv cfg := by
  by_cases hd : ch.directDue = true
  · rw [directSymbol_due hd]
    simp only [Channel.directDue, Bool.and_eq_true, bne_iff_ne, beq_iff_eq] at hd
    exact deliver_inv c _ hd.1 h
  · simpa [Channel.directSymbol, hd] using h

end Sys2Proof.Machine
end

