-- ==== Sys2Proof/Laws/State.lean ====
section
/-! SUPPORT. One lemma per field for each update of the state, and what a channel reads after a write. -/

namespace Sys2Proof.Machine

/-! ## emit -/

@[simp] theorem State.emit_cfg (s : State) (r : Record) : (s.emit r).cfg = s.cfg := rfl
@[simp] theorem State.emit_crcS (s : State) (r : Record) : (s.emit r).crcS = s.crcS := rfl
@[simp] theorem State.emit_ill (s : State) (r : Record) : (s.emit r).ill = s.ill := rfl
@[simp] theorem State.emit_out (s : State) (r : Record) : (s.emit r).out = s.out ++ [r] := rfl
@[simp] theorem State.emit_chans (s : State) (r : Record) : (s.emit r).chans = s.chans := rfl
@[simp] theorem State.emit_input (s : State) (r : Record) : (s.emit r).input = s.input := rfl
@[simp] theorem State.emit_now (s : State) (r : Record) : (s.emit r).now = s.now := rfl
@[simp] theorem State.emit_started (s : State) (r : Record) : (s.emit r).started = s.started := rfl

/-! ## emitOpt -/

@[simp] theorem State.emitOpt_cfg (s : State) (r : Option Record) : (s.emitOpt r).cfg = s.cfg := by cases r <;> rfl
@[simp] theorem State.emitOpt_crcS (s : State) (r : Option Record) : (s.emitOpt r).crcS = s.crcS := by cases r <;> rfl
@[simp] theorem State.emitOpt_ill (s : State) (r : Option Record) : (s.emitOpt r).ill = s.ill := by cases r <;> rfl
@[simp] theorem State.emitOpt_out (s : State) (r : Option Record) : (s.emitOpt r).out = s.out ++ r.toList := by cases r <;> simp [State.emitOpt]
@[simp] theorem State.emitOpt_chans (s : State) (r : Option Record) : (s.emitOpt r).chans = s.chans := by cases r <;> rfl
@[simp] theorem State.emitOpt_input (s : State) (r : Option Record) : (s.emitOpt r).input = s.input := by cases r <;> rfl
@[simp] theorem State.emitOpt_now (s : State) (r : Option Record) : (s.emitOpt r).now = s.now := by cases r <;> rfl
@[simp] theorem State.emitOpt_started (s : State) (r : Option Record) : (s.emitOpt r).started = s.started := by cases r <;> rfl

/-! ## setChan -/

@[simp] theorem State.setChan_cfg (s : State) (c : ChanNo) (ch : Channel) : (s.setChan c ch).cfg = s.cfg := rfl
@[simp] theorem State.setChan_crcS (s : State) (c : ChanNo) (ch : Channel) : (s.setChan c ch).crcS = s.crcS := rfl
@[simp] theorem State.setChan_ill (s : State) (c : ChanNo) (ch : Channel) : (s.setChan c ch).ill = s.ill := rfl
@[simp] theorem State.setChan_out (s : State) (c : ChanNo) (ch : Channel) : (s.setChan c ch).out = s.out := rfl
@[simp] theorem State.setChan_chans (s : State) (c : ChanNo) (ch : Channel) : (s.setChan c ch).chans = s.chans.set c.toNat ch := rfl
@[simp] theorem State.setChan_input (s : State) (c : ChanNo) (ch : Channel) : (s.setChan c ch).input = s.input := rfl
@[simp] theorem State.setChan_now (s : State) (c : ChanNo) (ch : Channel) : (s.setChan c ch).now = s.now := rfl
@[simp] theorem State.setChan_started (s : State) (c : ChanNo) (ch : Channel) : (s.setChan c ch).started = s.started := rfl

/-! ## setIll, clearIll, illegal -/

@[simp] theorem State.setIll_cfg (s : State) : (s.setIll).cfg = s.cfg := rfl
@[simp] theorem State.setIll_crcS (s : State) : (s.setIll).crcS = s.crcS := rfl
@[simp] theorem State.setIll_ill (s : State) : (s.setIll).ill = true := rfl
@[simp] theorem State.setIll_out (s : State) : (s.setIll).out = s.out := rfl
@[simp] theorem State.setIll_chans (s : State) : (s.setIll).chans = s.chans := rfl
@[simp] theorem State.setIll_input (s : State) : (s.setIll).input = s.input := rfl
@[simp] theorem State.setIll_now (s : State) : (s.setIll).now = s.now := rfl
@[simp] theorem State.setIll_started (s : State) : (s.setIll).started = s.started := rfl
@[simp] theorem State.clearIll_cfg (s : State) : (s.clearIll).cfg = s.cfg := rfl
@[simp] theorem State.clearIll_crcS (s : State) : (s.clearIll).crcS = s.crcS := rfl
@[simp] theorem State.clearIll_ill (s : State) : (s.clearIll).ill = false := rfl
@[simp] theorem State.clearIll_out (s : State) : (s.clearIll).out = s.out := rfl
@[simp] theorem State.clearIll_chans (s : State) : (s.clearIll).chans = s.chans := rfl
@[simp] theorem State.clearIll_input (s : State) : (s.clearIll).input = s.input := rfl
@[simp] theorem State.clearIll_now (s : State) : (s.clearIll).now = s.now := rfl
@[simp] theorem State.clearIll_started (s : State) : (s.clearIll).started = s.started := rfl
@[simp] theorem State.illegal_cfg (s : State) : (s.illegal).cfg = s.cfg := rfl
@[simp] theorem State.illegal_crcS (s : State) : (s.illegal).crcS = s.crcS := rfl
@[simp] theorem State.illegal_ill (s : State) : (s.illegal).ill = true := rfl
@[simp] theorem State.illegal_out (s : State) : (s.illegal).out = s.out := rfl
@[simp] theorem State.illegal_chans (s : State) : (s.illegal).chans = s.chans := rfl
@[simp] theorem State.illegal_input (s : State) : (s.illegal).input = s.input := rfl
@[simp] theorem State.illegal_now (s : State) : (s.illegal).now = s.now := rfl
@[simp] theorem State.illegal_started (s : State) : (s.illegal).started = s.started := rfl

/-! ## rst -/

@[simp] theorem State.rst_cfg (s : State) : (s.rst).cfg = s.cfg := rfl
@[simp] theorem State.rst_crcS (s : State) : (s.rst).crcS = 0xFFFF#16 := rfl
@[simp] theorem State.rst_ill (s : State) : (s.rst).ill = false := rfl
@[simp] theorem State.rst_out (s : State) : (s.rst).out = s.out := rfl
@[simp] theorem State.rst_chans (s : State) : (s.rst).chans = List.replicate s.cfg.nCh (Channel.reset s.cfg) := rfl
@[simp] theorem State.rst_input (s : State) : (s.rst).input = s.input := rfl
@[simp] theorem State.rst_now (s : State) : (s.rst).now = s.now := rfl
@[simp] theorem State.rst_started (s : State) : (s.rst).started = true := rfl

/-! ## onChan -/

@[simp] theorem State.onChan_cfg (s : State) (c : ChanNo) (f : Channel → Channel × Option Record) :
    (s.onChan c f).cfg = s.cfg := by simp [State.onChan]
@[simp] theorem State.onChan_crcS (s : State) (c : ChanNo) (f : Channel → Channel × Option Record) :
    (s.onChan c f).crcS = s.crcS := by simp [State.onChan]
@[simp] theorem State.onChan_ill (s : State) (c : ChanNo) (f : Channel → Channel × Option Record) :
    (s.onChan c f).ill = s.ill := by simp [State.onChan]
@[simp] theorem State.onChan_out (s : State) (c : ChanNo) (f : Channel → Channel × Option Record) :
    (s.onChan c f).out = s.out ++ (f (s.chan c)).2.toList := by simp [State.onChan]
@[simp] theorem State.onChan_chans (s : State) (c : ChanNo) (f : Channel → Channel × Option Record) :
    (s.onChan c f).chans = s.chans.set c.toNat (f (s.chan c)).1 := by simp [State.onChan]
@[simp] theorem State.onChan_input (s : State) (c : ChanNo) (f : Channel → Channel × Option Record) :
    (s.onChan c f).input = s.input := by simp [State.onChan]
@[simp] theorem State.onChan_now (s : State) (c : ChanNo) (f : Channel → Channel × Option Record) :
    (s.onChan c f).now = s.now := by simp [State.onChan]
@[simp] theorem State.onChan_started (s : State) (c : ChanNo) (f : Channel → Channel × Option Record) :
    (s.onChan c f).started = s.started := by simp [State.onChan]

/-! ## Channels -/

/-- What a channel reads is fixed by the list of channels and the configuration. -/
theorem State.chan_congr {s t : State} (h : s.chans = t.chans) (hc : s.cfg = t.cfg) (c : ChanNo) : s.chan c = t.chan c := by
  simp only [State.chan, h, hc]

@[simp] theorem State.emit_chan (s : State) (r : Record) (c : ChanNo) : (s.emit r).chan c = s.chan c := rfl
@[simp] theorem State.emitOpt_chan (s : State) (r : Option Record) (c : ChanNo) : (s.emitOpt r).chan c = s.chan c := by
  cases r <;> rfl
@[simp] theorem State.setIll_chan (s : State) (c : ChanNo) : s.setIll.chan c = s.chan c := rfl
@[simp] theorem State.clearIll_chan (s : State) (c : ChanNo) : s.clearIll.chan c = s.chan c := rfl
@[simp] theorem State.illegal_chan (s : State) (c : ChanNo) : s.illegal.chan c = s.chan c := rfl

/-- A channel that exists reads back what was written to it. -/
theorem State.setChan_chan_same {s : State} {c : ChanNo} (h : c.toNat < s.chans.length) (ch : Channel) :
    (s.setChan c ch).chan c = ch := by
  simp [State.chan, State.setChan, List.getD_eq_getElem?_getD, h]

/-- A write to one channel leaves every other channel alone (R38). -/
theorem State.setChan_chan_other {s : State} {c c' : ChanNo} (h : c' ≠ c) (ch : Channel) :
    (s.setChan c ch).chan c' = s.chan c' := by
  have h' : c.toNat ≠ c'.toNat := fun e => h (BitVec.eq_of_toNat_eq e.symm)
  simp [State.chan, State.setChan, List.getD_eq_getElem?_getD, List.getElem?_set_ne h']

/-- Writing back what a channel holds changes nothing. -/
theorem State.setChan_chan_self (s : State) (c : ChanNo) : s.setChan c (s.chan c) = s := by
  have h : s.chans.set c.toNat (s.chan c) = s.chans := by
    apply List.ext_getElem?
    intro i
    rw [List.getElem?_set]
    split
    · rename_i hi
      subst hi
      split
      · rename_i hlt
        simp [State.chan, List.getD_eq_getElem?_getD, hlt]
      · rename_i hge
        simp [List.getElem?_eq_none (Nat.le_of_not_lt hge)]
    · rfl
  simp only [State.setChan, h]

/-- The second of two writes to a channel stands. -/
theorem State.setChan_setChan (s : State) (c : ChanNo) (ch ch' : Channel) :
    (s.setChan c ch).setChan c ch' = s.setChan c ch' := by
  simp [State.setChan]

/-- A channel that exists is one of the list. -/
theorem State.chan_mem {s : State} {c : ChanNo} (h : c.toNat < s.chans.length) : s.chan c ∈ s.chans := by
  simp [State.chan, List.getD_eq_getElem?_getD, h]

/-- Without a record, a change of one channel is a write to it. -/
theorem State.onChan_eq_setChan {s : State} {c : ChanNo} {f : Channel → Channel × Option Record} {ch : Channel}
    (h : f (s.chan c) = (ch, none)) : s.onChan c f = s.setChan c ch := by
  simp [State.onChan, h, State.emitOpt]

/-- With a record, a change of one channel is a write to it and the record. -/
theorem State.onChan_eq_emit {s : State} {c : ChanNo} {f : Channel → Channel × Option Record} {ch : Channel} {r : Record}
    (h : f (s.chan c) = (ch, some r)) : s.onChan c f = (s.setChan c ch).emit r := by
  simp [State.onChan, h, State.emitOpt]

/-- Two changes of a channel that agree on it are the same. -/
theorem State.onChan_congr {s : State} {c : ChanNo} {f g : Channel → Channel × Option Record}
    (h : f (s.chan c) = g (s.chan c)) : s.onChan c f = s.onChan c g := by
  simp [State.onChan, h]

/-- A channel that exists reads, after a change of it, what the change gave. -/
theorem State.onChan_chan_same {s : State} {c : ChanNo} (h : c.toNat < s.chans.length)
    (f : Channel → Channel × Option Record) : (s.onChan c f).chan c = (f (s.chan c)).1 := by
  simp [State.onChan, State.setChan_chan_same h]

/-- A change of one channel leaves every other channel alone (R38). -/
theorem State.onChan_chan_other {s : State} {c c' : ChanNo} (h : c' ≠ c) (f : Channel → Channel × Option Record) :
    (s.onChan c f).chan c' = s.chan c' := by
  simp [State.onChan, State.setChan_chan_other h]

end Sys2Proof.Machine
end

