-- ==== Sys2Proof/Laws/Step.lean ====
section
/-! SUPPORT. What a step does with each input, what every meaning leaves alone, and runs of LBITs on one channel. -/

namespace Sys2Proof.Machine

/-! ## One step -/

theorem step_illegalConfig {s : State} (h : ¬ s.cfg.Wf) : step s = .refused .illegalConfig := if_neg h

theorem step_idle {s : State} (h : s.cfg.Wf) (hi : s.input = []) : step s = .next s := by
  rw [step, if_pos h, hi]

theorem step_hold {s : State} {rest : List Event} (h : s.cfg.Wf) (hi : s.input = .hold :: rest) :
    step s = .next { s with input := rest } := by
  rw [step, if_pos h, hi]

theorem step_rst {s : State} {rest : List Event} (h : s.cfg.Wf) (hi : s.input = .rst :: rest) :
    step s = .next { s with input := rest }.rst := by
  rw [step, if_pos h, hi]

theorem step_cmd {s : State} {w : Word} {now : Time} {rest : List Event} (h : s.cfg.Wf) (hs : s.started = true)
    (hi : s.input = .cmd w now :: rest) : step s = exec (decode s.cfg.nCh w) { s with input := rest, now := now } := by
  rw [step, if_pos h, hi]
  simp [hs]

theorem step_beforeReset {s : State} {w : Word} {now : Time} {rest : List Event} (h : s.cfg.Wf) (hs : s.started = false)
    (hi : s.input = .cmd w now :: rest) : step s = .refused .beforeReset := by
  rw [step, if_pos h, hi]
  simp [hs]

/-- Everything a step that answers a next state can have done. -/
theorem step_next {s t : State} (h : step s = .next t) :
    s.cfg.Wf ∧
    ((s.input = [] ∧ t = s) ∨
     (∃ rest, s.input = .hold :: rest ∧ t = { s with input := rest }) ∨
     (∃ rest, s.input = .rst :: rest ∧ t = { s with input := rest }.rst) ∨
     (∃ w now rest, s.input = .cmd w now :: rest ∧ s.started = true ∧
       exec (decode s.cfg.nCh w) { s with input := rest, now := now } = .next t)) := by
  by_cases hc : s.cfg.Wf
  · refine ⟨hc, ?_⟩
    cases hi : s.input with
    | nil =>
      rw [step_idle hc hi] at h
      exact .inl ⟨rfl, by simpa using h.symm⟩
    | cons e rest =>
      cases e with
      | hold =>
        rw [step_hold hc hi] at h
        exact .inr (.inl ⟨rest, rfl, by simpa using h.symm⟩)
      | rst =>
        rw [step_rst hc hi] at h
        exact .inr (.inr (.inl ⟨rest, rfl, by simpa using h.symm⟩))
      | cmd w now =>
        cases hs : s.started
        · rw [step_beforeReset hc hs hi] at h
          simp at h
        · rw [step_cmd hc hs hi] at h
          exact .inr (.inr (.inr ⟨w, now, rest, rfl, rfl, by rw [← hs]; exact h⟩))
  · rw [step_illegalConfig hc] at h
    simp at h

/-! ## Every meaning -/

/-- The record a meaning produces is at most one, and what the host supplies, the configuration and the number of channels stay. -/
theorem exec_frame (i : Instr) (s : State) :
    ∃ t, exec i s = .next t ∧ t.cfg = s.cfg ∧ t.input = s.input ∧ t.now = s.now ∧ t.started = s.started ∧
      t.chans.length = s.chans.length ∧ ∃ r : Option Record, t.out = s.out ++ r.toList := by
  cases i with
  | lbit c b => exact ⟨_, rfl, by simp, by simp, by simp, by simp, by simp, _, State.onChan_out ..⟩
  | eos c => exact ⟨_, rfl, rfl, rfl, rfl, rfl, by simp, none, by simp⟩
  | clrc c => exact ⟨_, rfl, rfl, rfl, rfl, rfl, by simp, none, by simp⟩
  | rdreg c idx =>
    by_cases h : idx = 7#3
    · refine ⟨((s.emit (.rdata c idx (s.regView c idx))).clearIll), ?_, rfl, rfl, rfl, rfl, rfl, some _, rfl⟩
      simp [exec, execRdreg, h]
    · refine ⟨(s.emit (.rdata c idx (s.regView c idx))), ?_, rfl, rfl, rfl, rfl, rfl, some _, rfl⟩
      simp [exec, execRdreg, h]
  | cinit => exact ⟨_, rfl, rfl, rfl, rfl, rfl, rfl, none, by simp⟩
  | cbyte d => exact ⟨_, rfl, rfl, rfl, rfl, rfl, rfl, none, by simp⟩
  | crd => exact ⟨_, rfl, rfl, rfl, rfl, rfl, rfl, some _, rfl⟩
  | illegalOp7 w => exact ⟨_, rfl, rfl, rfl, rfl, rfl, rfl, none, by simp⟩
  | illegalOp8F w => exact ⟨_, rfl, rfl, rfl, rfl, rfl, rfl, none, by simp⟩
  | illegalOther w => exact ⟨_, rfl, rfl, rfl, rfl, rfl, rfl, none, by simp⟩
  | syncA c => exact ⟨_, rfl, rfl, rfl, rfl, rfl, by simp, none, by simp⟩
  | syncB c => exact ⟨_, rfl, rfl, rfl, rfl, rfl, by simp, none, by simp⟩
  | manPair10 c => exact ⟨_, rfl, by simp, by simp, by simp, by simp, by simp, _, State.onChan_out ..⟩
  | manPair01 c => exact ⟨_, rfl, by simp, by simp, by simp, by simp, by simp, _, State.onChan_out ..⟩
  | manPair00 c => exact ⟨_, rfl, by simp, by simp, by simp, by simp, by simp, _, State.onChan_out ..⟩
  | manPair11 c => exact ⟨_, rfl, by simp, by simp, by simp, by simp, by simp, _, State.onChan_out ..⟩
  | dirBit0 c => exact ⟨_, rfl, by simp, by simp, by simp, by simp, by simp, _, State.onChan_out ..⟩
  | dirBit1 c => exact ⟨_, rfl, by simp, by simp, by simp, by simp, by simp, _, State.onChan_out ..⟩

/-! ## Frames -/

theorem has_lt {s : State} {c : ChanNo} (h : s.Has c) : c.toNat < s.chans.length := by
  obtain ⟨h1, h2⟩ := h
  simp only [Config.hasChan] at h2
  omega

/-- A change of one channel leaves the rest of the state alone. -/
theorem onChan_only (s : State) (c : ChanNo) (f : Channel → Channel × Option Record) : s.OnlyChan c (s.onChan c f) :=
  ⟨⟨by simp, by simp, by simp, by simp, by simp, fun _ hd => State.onChan_chan_other hd f⟩, by simp, by simp⟩

theorem setChan_only (s : State) (c : ChanNo) (ch : Channel) : s.OnlyChan c (s.setChan c ch) :=
  ⟨⟨by simp, by simp, by simp, by simp, by simp, fun _ hd => State.setChan_chan_other hd ch⟩, by simp, by simp⟩

/-- What LBIT does: its channel's line bit, at the TIME of the step (R180). -/
theorem exec_lbit (c : ChanNo) (b : Bool) (s : State) :
    exec (.lbit c b) s = .next (s.onChan c (Channel.lineBit s.cfg c s.now b)) := rfl

/-! ## Runs of LBITs on one channel -/

theorem lineBits_append (cfg : Config) (c : ChanNo) (xs ys : List (Bool × Time)) (ch : Channel) :
    Channel.lineBits cfg c (xs ++ ys) ch =
      ((Channel.lineBits cfg c ys (Channel.lineBits cfg c xs ch).1).1,
       (Channel.lineBits cfg c xs ch).2 ++ (Channel.lineBits cfg c ys (Channel.lineBits cfg c xs ch).1).2) := by
  induction xs generalizing ch with
  | nil => simp [Channel.lineBits]
  | cons x rest ih => simp [Channel.lineBits, ih, List.append_assoc]

/-- Steps over LBIT commands of one channel are the channel's own run: they change that channel and produce its records. -/
theorem steps_lbitEvents (c : ChanNo) :
    ∀ (bits : List (Bool × Time)) (s : State) (rest : List Event), s.cfg.Wf → s.started = true →
      s.chans.length = s.cfg.nCh → c.toNat < s.cfg.nCh → s.input = lbitEvents c bits ++ rest →
      ∃ now, steps bits.length s = .next
        { s with
          input := rest
          now := now
          out := s.out ++ (Channel.lineBits s.cfg c bits (s.chan c)).2
          chans := s.chans.set c.toNat (Channel.lineBits s.cfg c bits (s.chan c)).1 } := by
  intro bits
  induction bits with
  | nil =>
    intro s rest _ _ _ _ hi
    refine ⟨s.now, ?_⟩
    have hself : s.chans.set c.toNat (s.chan c) = s.chans := congrArg State.chans (State.setChan_chan_self s c)
    simp only [lbitEvents, List.map_nil, List.nil_append] at hi
    simp [steps, Channel.lineBits, hself, ← hi]
  | cons p bits ih =>
    intro s rest hw hst hlen hc hi
    have hlt : c.toNat < s.chans.length := by omega
    have hstep := step_cmd hw hst (rest := lbitEvents c bits ++ rest) (by simpa [lbitEvents] using hi)
    rw [decode_lbitWord hc] at hstep
    obtain ⟨now, h⟩ := ih ((({ s with input := lbitEvents c bits ++ rest, now := p.2 } : State).onChan c
        (Channel.lineBit s.cfg c p.2 p.1))) rest (by simpa using hw) (by simpa using hst) (by simpa using hlen) (by simpa using hc)
        (by simp)
    refine ⟨now, ?_⟩
    rw [List.length_cons, steps, hstep]
    show steps bits.length _ = _
    refine h.trans ?_
    have e : (({ s with input := lbitEvents c bits ++ rest, now := p.2 } : State).onChan c
        (Channel.lineBit s.cfg c p.2 p.1)).chan c = (Channel.lineBit s.cfg c p.2 p.1 (s.chan c)).1 :=
      State.onChan_chan_same (s := { s with input := lbitEvents c bits ++ rest, now := p.2 }) hlt _
    simp only [e, State.onChan_cfg, State.onChan_out, State.onChan_chans, List.set_set, Channel.lineBits, List.append_assoc,
      State.onChan_crcS, State.onChan_ill, State.onChan_started]
    rfl

end Sys2Proof.Machine
end

