-- ==== Sys2Proof/Laws/Line.lean ====
section
/-! SUPPORT. Runs of line bits on one channel: what the search window holds after a run that matches nothing, and what the line code of
one frame byte does. -/

namespace Sys2Proof.Machine

/-! ## The search window -/

/-- The window's value with line bits shifted in. -/
abbrev shiftIn (v : Nat) (bits : List Bool) : Nat := bits.foldl (fun a b => 2 * a + b.toNat) v

/-- Shifting in the low `n` bits of a value puts them below what was there. -/
theorem shiftIn_bitsMsbFirst (w : Window) (v n : Nat) : shiftIn v (bitsMsbFirst w n) = v * 2 ^ n + w.toNat % 2 ^ n := by
  induction n generalizing v with
  | zero => simp [bitsMsbFirst, shiftIn, Nat.mod_one]
  | succ n ih =>
    have hb : (w.getLsbD n).toNat = w.toNat / 2 ^ n % 2 := by
      have := Nat.toNat_testBit w.toNat n
      simpa [BitVec.getLsbD] using this
    have := ih (2 * v + (w.getLsbD n).toNat)
    simp only [shiftIn, bitsMsbFirst, List.foldl_cons] at this ⊢
    rw [this, hb, Nat.pow_succ, Nat.mod_mul]
    ring

/-- The window takes only the low PAT_W bits of its value. -/
theorem shiftIn_mod (v : Nat) (bits : List Bool) (n : Nat) : shiftIn (v % 2 ^ n) bits % 2 ^ n = shiftIn v bits % 2 ^ n := by
  induction bits generalizing v with
  | nil => simp [shiftIn]
  | cons b rest ih =>
    simp only [shiftIn, List.foldl_cons] at ih ⊢
    rw [← ih (2 * (v % 2 ^ n) + b.toNat), ← ih (2 * v + b.toNat)]
    congr 2
    rw [Nat.add_mod, Nat.mul_mod, Nat.mod_mod, ← Nat.mul_mod, ← Nat.add_mod]

/-- A window that is not full matches nothing. -/
theorem windowIs_short {cfg : Config} {ch : Channel} (h : ch.fill < cfg.patW) (pat : Window) : ch.windowIs cfg pat = false := by
  have : ch.fill ≠ cfg.patW := by omega
  simp [Channel.windowIs, this]

/-- An LBIT in SEARCH that leaves the window short only shifts. -/
theorem lineBit_search_short {cfg : Config} {c : ChanNo} {now : Time} {b : Bool} {ch : Channel} (hs : ch.st = .search)
    (hf : ch.fill + 1 < cfg.patW) : ch.lineBit cfg c now b = (ch.searchShift cfg b, none) := by
  have hlt : (ch.searchShift cfg b).fill < cfg.patW := by
    rw [Channel.searchShift_fill]; omega
  rw [lineBit_search hs]
  rcases matchTest_cases cfg now (ch.searchShift cfg b) with ⟨h, -⟩ | ⟨-, h, -⟩ | ⟨-, -, e⟩
  · rw [windowIs_short hlt] at h; exact absurd h (by decide)
  · rw [windowIs_short hlt] at h; exact absurd h (by decide)
  · rw [e]

/-- A run in SEARCH that leaves the window short shifts its bits in and does nothing else (R151, R152). -/
theorem lineBits_search_short {cfg : Config} (c : ChanNo) (hw : cfg.patW ≤ 64) :
    ∀ (bits : List (Bool × Time)) (ch : Channel), ch.st = .search → ch.fill + bits.length < cfg.patW →
      ∃ sh : Window, Channel.lineBits cfg c bits ch = ({ ch with sh := sh, fill := ch.fill + bits.length }, []) ∧
        sh.toNat % 2 ^ cfg.patW = shiftIn ch.sh.toNat (bits.map Prod.fst) % 2 ^ cfg.patW := by
  intro bits
  induction bits with
  | nil => intro ch _ _; exact ⟨ch.sh, rfl, rfl⟩
  | cons p rest ih =>
    intro ch hs hf
    rw [List.length_cons] at hf
    have hb := lineBit_search_short (c := c) (now := p.2) (b := p.1) hs (cfg := cfg) (by omega)
    have hfill : (ch.searchShift cfg p.1).fill = ch.fill + 1 := by
      rw [Channel.searchShift_fill]; omega
    obtain ⟨sh, e, hsh⟩ := ih (ch.searchShift cfg p.1) hs (by rw [hfill]; omega)
    refine ⟨sh, ?_, ?_⟩
    · simp only [Channel.lineBits, hb, e, Option.toList_none, List.nil_append]
      simp only [List.length_cons, Channel.searchShift]
      congr 2
      omega
    · rw [hsh, searchShift_sh_toNat hw, shiftIn_mod]
      rfl

/-- What the match test compares, in numbers (R150, R152). -/
theorem windowIs_iff {cfg : Config} (hw : cfg.Wf) {ch : Channel} (p : LineProtocol) :
   ch.windowIs cfg (match p with | .man => cfg.patA | .dir => cfg.patB) = true ↔ ch.fill = 32 + cfg.syncW ∧ ch.sh.toNat = patternValue cfg p := by
  obtain ⟨-, ⟨-, h2⟩, ⟨hA, hB⟩, -, -, -⟩ := hw
  have hp : (match p with | .man => cfg.patA | .dir => cfg.patB).toNat = patternValue cfg p := by
    cases p
    · exact Config.pattern_toNat h2 hA
    · exact Config.pattern_toNat h2 hB
  rw [Channel.windowIs, Bool.and_eq_true, beq_iff_eq, beq_iff_eq, ← BitVec.toNat_inj, hp]
  rfl

/-- A legal configuration matches at most one of its patterns (R153). -/
theorem windowIs_patA_of_dir {cfg : Config} (hw : cfg.Wf) {ch : Channel} (h : ch.sh.toNat = patternValue cfg .dir) :
    ch.windowIs cfg cfg.patA = false := by
  rw [← Bool.not_eq_true]
  intro h'
  have h2 := ((windowIs_iff hw .man).1 h').2
  rw [h] at h2
  obtain ⟨-, -, -, hne, -⟩ := hw
  exact hne (BitVec.eq_of_toNat_eq (by simp only [patternValue] at h2; omega))

/-- From an empty window, the preamble and a sync word start a candidate of the word's protocol (R102, R152, R154). -/
theorem header_run {cfg : Config} (hw : cfg.Wf) (c : ChanNo) (lp : LineProtocol) (bits : List (Bool × Time)) (last : Bool × Time) (ch : Channel)
   (hs : ch.st = .search) (hf : ch.fill = 0) (hb : (bits ++ [last]).map Prod.fst = header cfg lp) :
   ∃ t, Channel.lineBits cfg c (bits ++ [last]) ch = (t, []) ∧ ch.Matched lp (last.2.toNat % 2 ^ cfg.tsW) t := by
  have hp64 : cfg.patW ≤ 64 := by obtain ⟨-, ⟨-, h⟩, -⟩ := hw; simp [Config.patW, Config.preambleW]; omega
  have hlen : bits.length + 1 = cfg.patW := by
    have := congrArg List.length hb
    cases lp <;> simpa [header] using this
  obtain ⟨sh, e, hsh⟩ := lineBits_search_short (cfg := cfg) c hp64 bits ch hs (by omega)
  have hb1 : (({ ch with sh := sh, fill := ch.fill + bits.length } : Channel).searchShift cfg last.1).sh.toNat = patternValue cfg lp := by
    rw [searchShift_sh_toNat hp64]
    have h1 : (2 * sh.toNat + last.1.toNat) % 2 ^ cfg.patW = shiftIn sh.toNat [last.1] % 2 ^ cfg.patW := rfl
    show (2 * sh.toNat + last.1.toNat) % 2 ^ cfg.patW = _
    rw [h1, ← shiftIn_mod, hsh, shiftIn_mod]
    have h2 : shiftIn (shiftIn ch.sh.toNat (bits.map Prod.fst)) [last.1] = shiftIn ch.sh.toNat (header cfg lp) := by
      rw [← hb, List.map_append]; simp [shiftIn]
    rw [h2]
    obtain ⟨-, ⟨-, hw2⟩, ⟨hA, hB⟩, -, -, -⟩ := hw
    cases lp
    · rw [header, shiftIn_bitsMsbFirst, Nat.mul_add_mod_self_right, Config.patA, Nat.mod_mod, Nat.mod_eq_of_lt (Config.pattern_lt hw2 hA)]
      exact Config.pattern_toNat hw2 hA
    · rw [header, shiftIn_bitsMsbFirst, Nat.mul_add_mod_self_right, Config.patB, Nat.mod_mod, Nat.mod_eq_of_lt (Config.pattern_lt hw2 hB)]
      exact Config.pattern_toNat hw2 hB
  set ch1 := (({ ch with sh := sh, fill := ch.fill + bits.length } : Channel).searchShift cfg last.1) with hch1
  have hb2 : ch1.fill = 32 + cfg.syncW := by
    simp only [hch1, Channel.searchShift_fill]
    simp only [Config.patW, Config.preambleW] at *; omega
  have hm : ch1.matchTest cfg last.2 = ch1.syncMatch cfg last.2 lp := by
    have hA := windowIs_iff hw (ch := ch1) .man
    have hB := windowIs_iff hw (ch := ch1) .dir
    cases lp
    · simp [Channel.matchTest, hA.2 ⟨hb2, hb1⟩]
    · have := windowIs_patA_of_dir hw hb1
      simp [Channel.matchTest, this, hB.2 ⟨hb2, hb1⟩]
  refine ⟨ch1.syncMatch cfg last.2 lp, ?_, lowBits_toNat _ _, rfl⟩
  rw [lineBits_append, e]
  simp only [Channel.lineBits]
  rw [lineBit_search (by exact hs)]
  simp only [← hch1, hm]
  rfl

/-! ## The line code of a byte -/

/-- A Manchester code is two different halves that decode to its data bit (R98). -/
theorem pair_of_codeBit {pol : ManchPol} {p1 p2 d : Bool} (h : [p1, p2] = codeBit pol .man d) : p1 ≠ p2 ∧ pairData pol p1 p2 = d := by
  revert h
  cases pol <;> revert p1 p2 d <;> decide

/-- In a candidate the two line bits of a Manchester data bit, or the one of a direct data bit, deliver it. -/
theorem codeBit_run {cfg : Config} (c : ChanNo) (d : Bool) (bits : List (Bool × Time)) (ch : Channel) (hs : ch.st ≠ .search)
    (hv : ch.hv = false) (hb : bits.map Prod.fst = codeBit cfg.manchPol ch.lp d) :
    ∃ hb : Bool, Channel.lineBits cfg c bits ch =
      ((({ ch with hb := hb } : Channel).deliver cfg c d).1, (({ ch with hb := hb } : Channel).deliver cfg c d).2.toList) := by
  have hpair : ∀ p1 p2 t1 t2, ch.lp = .man → p1 ≠ p2 → pairData cfg.manchPol p1 p2 = d → bits = [(p1, t1), (p2, t2)] →
      Channel.lineBits cfg c bits ch = ((({ ch with hb := p1 } : Channel).deliver cfg c d).1,
        (({ ch with hb := p1 } : Channel).deliver cfg c d).2.toList) := by
    intro p1 p2 t1 t2 hp hne hd e
    subst e
    have h1 : ch.lineBit cfg c t1 p1 = (ch.latch p1, none) := by rw [lineBit_man hs hp]; simp [hv]
    have h2 : (ch.latch p1).lineBit cfg c t2 p2 = ({ ch with hb := p1 } : Channel).deliver cfg c d := by
      rw [lineBit_man (ch := ch.latch p1) hs hp]
      have hf : (ch.latch p1).pairFlags p1 p2 = ({ ch with hb := p1 } : Channel) := by
        have : (p1 == p2) = false := by simp [hne]
        simp only [Channel.pairFlags, Channel.latch, this, Bool.or_false]
        rw [← hv]
      simp only [Channel.latch_hv, if_true, Channel.latch_hb, Channel.pair, hf, hd]
    simp [Channel.lineBits, h1, h2]
  rcases (by cases ch.lp <;> simp : ch.lp = .man ∨ ch.lp = .dir) with hp | hp
  · rw [hp] at hb
    have hlen : bits.length = 2 := by
      have := congrArg List.length hb
      cases hm : cfg.manchPol <;> simpa [codeBit, hm] using this
    match bits, hlen with
    | [(p1, t1), (p2, t2)], _ =>
      have h := pair_of_codeBit hb
      exact ⟨p1, hpair p1 p2 t1 t2 hp h.1 h.2 rfl⟩
  · rw [hp] at hb
    have hb' : bits.map Prod.fst = [!d] := by cases hm : cfg.manchPol <;> simpa [codeBit, hm] using hb
    match bits, hb' with
    | [(q, t)], hb' =>
      simp only [List.map_cons, List.map_nil, List.cons.injEq, and_true] at hb'
      refine ⟨ch.hb, ?_⟩
      simp [Channel.lineBits, lineBit_dir hs hp, hb']

/-- A run of data bits that leaves the byte in progress unfinished collects them (R163). -/
theorem codeBits_run {cfg : Config} (c : ChanNo) :
    ∀ (ds : List Bool) (bits : List (Bool × Time)) (ch : Channel), ch.st ≠ .search → ch.hv = false →
      ch.nb + ds.length ≤ 7 → bits.map Prod.fst = ds.flatMap (codeBit cfg.manchPol ch.lp) →
      ∃ hb : Bool, Channel.lineBits cfg c bits ch =
        ({ ch with hb := hb, acc := ds.foldl (addDataBit cfg.bitOrder) ch.acc, nb := ch.nb + ds.length }, []) := by
  intro ds
  induction ds with
  | nil =>
    intro bits ch _ _ _ hb
    have : bits = [] := by simpa using hb
    subst this
    exact ⟨ch.hb, rfl⟩
  | cons d rest ih =>
    intro bits ch hs hv hn hb
    rw [List.flatMap_cons, List.map_eq_append_iff] at hb
    obtain ⟨b1, b2, rfl, hb1, hb2⟩ := hb
    rw [List.length_cons] at hn
    obtain ⟨h1, e1⟩ := codeBit_run c d b1 ch hs hv hb1
    have hd : ({ ch with hb := h1 } : Channel).deliver cfg c d =
        ({ ch with hb := h1, acc := addDataBit cfg.bitOrder ch.acc d, nb := ch.nb + 1 }, none) := by
      rcases deliver_cases cfg c d ({ ch with hb := h1 } : Channel) with ⟨-, e⟩ | ⟨h, -⟩
      · exact e
      · simp at h; omega
    rw [hd] at e1
    obtain ⟨h2, e2⟩ := ih b2 ({ ch with hb := h1, acc := addDataBit cfg.bitOrder ch.acc d, nb := ch.nb + 1 }) hs hv
      (by simp only; omega) hb2
    refine ⟨h2, ?_⟩
    rw [lineBits_append, e1]
    simp only [e2, Option.toList_none, List.nil_append, List.foldl_cons, List.length_cons]
    congr 2
    omega

/-- The eight data bits of a raw byte assemble to it, whatever the order (R73, R163). -/
theorem dataBits_assemble (order : BitOrder) (r : Byte) :
    ∃ ds d, dataBits order r = ds ++ [d] ∧ ds.length = 7 ∧ addDataBit order (ds.foldl (addDataBit order) 0#8) d = r := by
  cases order
  · refine ⟨[r.getLsbD 7, r.getLsbD 6, r.getLsbD 5, r.getLsbD 4, r.getLsbD 3, r.getLsbD 2, r.getLsbD 1], r.getLsbD 0, rfl, rfl, ?_⟩
    revert r; decide
  · refine ⟨[r.getLsbD 0, r.getLsbD 1, r.getLsbD 2, r.getLsbD 3, r.getLsbD 4, r.getLsbD 5, r.getLsbD 6], r.getLsbD 7, rfl, rfl, ?_⟩
    revert r; decide

/-- The line code of a frame byte, at a byte boundary of a candidate of its protocol, is that frame byte (R102, R160 to R164). -/
theorem lineCode_run {cfg : Config} (c : ChanNo) (y : Byte) (bits : List (Bool × Time)) (ch : Channel) (hs : ch.st ≠ .search)
    (hv : ch.hv = false) (hn : ch.nb = 0) (ha : ch.acc = 0#8) (hb : bits.map Prod.fst = lineCode cfg ch.lp y) :
    ∃ hb : Bool, Channel.lineBits cfg c bits ch =
      ((({ ch with hb := hb } : Channel).frameByte cfg c y).1, (({ ch with hb := hb } : Channel).frameByte cfg c y).2.toList) := by
  obtain ⟨ds, d, he, hl, hr⟩ := dataBits_assemble cfg.bitOrder (y ^^^ ch.lp.mask)
  rw [lineCode, he, List.flatMap_append, List.map_eq_append_iff] at hb
  obtain ⟨b1, b2, rfl, hb1, hb2⟩ := hb
  obtain ⟨h1, e1⟩ := codeBits_run c ds b1 ch hs hv (by omega) hb1
  rw [hn, hl, ha] at e1
  obtain ⟨h2, e2⟩ := codeBit_run (cfg := cfg) c d b2
    ({ ch with hb := h1, acc := ds.foldl (addDataBit cfg.bitOrder) 0#8, nb := 0 + 7 }) hs hv
    (by simpa [List.flatMap_cons, List.flatMap_nil] using hb2)
  have hd : ({ ch with hb := h2, acc := ds.foldl (addDataBit cfg.bitOrder) 0#8, nb := 0 + 7 } : Channel).deliver cfg c d =
      ({ ch with hb := h2 } : Channel).frameByte cfg c y := by
    rcases deliver_cases cfg c d
        ({ ch with hb := h2, acc := ds.foldl (addDataBit cfg.bitOrder) 0#8, nb := 0 + 7 } : Channel) with ⟨h, -⟩ | ⟨-, e⟩
    · exact absurd rfl h
    · rw [e]
      simp only [hr]
      have hx : y ^^^ ch.lp.mask ^^^ ch.lp.mask = y := by rw [BitVec.xor_assoc, BitVec.xor_self, BitVec.xor_zero]
      rw [hx]
      have : ({ ch with hb := h2, acc := 0#8, nb := 0 } : Channel) = { ch with hb := h2 } := by rw [← ha, ← hn]
      exact congrArg (Channel.frameByte cfg c y) this
  refine ⟨h2, ?_⟩
  rw [lineBits_append, e1]
  simp only [e2, hd, List.nil_append]

/-! ## A whole frame -/

/-- An outcome counts its own counter, notes itself and restarts the search (R191, R192). -/
theorem outcome_ended (k : CandOutcome) (hk : k ≠ .none) (ch : Channel) : ch.Ended k (ch.outcome k) := by
  have h1 := ch.cntOk.isLt
  have h2 := ch.cntCrc.isLt
  have h3 := ch.cntMan.isLt
  have h4 := ch.cntLen.isLt
  cases k
  · exact absurd rfl hk
  all_goals
    refine ⟨⟨?_, ?_, ?_, ?_, rfl⟩, rfl, rfl, rfl, rfl, rfl, rfl, rfl, rfl, rfl, rfl, rfl, rfl, rfl, rfl⟩ <;>
      simp [Channel.outcome, Channel.count, Channel.restart] <;> omega

/-- The line code of the remaining bytes of a candidate in BODY ends it, and a valid frame is emitted (R188, R189). -/
theorem body_run {cfg : Config} (c : ChanNo) :
    ∀ (ys : List Byte) (bits : List (Bool × Time)) (ch : Channel), ch.st = .body → ch.hv = false → ch.nb = 0 → ch.acc = 0#8 →
      ch.coll = false → ch.rem = ys.length → ys ≠ [] → ch.wptr + ys.length ≤ ch.buf.length →
      bits.map Prod.fst = ys.flatMap (lineCode cfg ch.lp) → valid (ch.frame ++ ys) = true →
      ∃ t, Channel.lineBits cfg c bits ch =
        (t, [.frame c ch.ts (BitVec.ofNat 17 (ch.frame ++ ys).length) (ch.frame ++ ys)]) ∧ ch.Ended .ok t ∧ t.len = ch.len := by
  intro ys
  induction ys with
  | nil => intro _ _ _ _ _ _ _ _ h; exact absurd rfl h
  | cons y ys ih =>
    intro bits ch hs hv hn ha hc hr _ hl hb hval
    rw [List.flatMap_cons, List.map_eq_append_iff] at hb
    obtain ⟨b1, b2, rfl, hb1, hb2⟩ := hb
    obtain ⟨h1, e1⟩ := lineCode_run (cfg := cfg) c y b1 ch (by rw [hs]; decide) hv hn ha hb1
    rw [List.length_cons] at hr
    rw [lineBits_append, e1]
    have hfr : (({ ch with hb := h1 } : Channel).append y).frame = ch.frame ++ [y] := append_frame (ch := { ch with hb := h1 })
      (by simp only [List.length_cons] at hl ⊢; omega) y
    rcases frameByte_body (cfg := cfg) (c := c) (y := y) (ch := { ch with hb := h1 }) hs with ⟨hne, e⟩ | ⟨he, h, -⟩ | ⟨he, -, -, e⟩ | ⟨he, -, h, -⟩
    · have hne' : ys ≠ [] := by rintro rfl; simp at hne; simp at hr; omega
      obtain ⟨t, e2, h2, h3⟩ := ih b2 (({ ch with hb := h1 } : Channel).bodyStored y) hs hv hn ha hc (by simp; omega) hne'
        (by rw [append_length]; show ch.wptr + 1 + ys.length ≤ ch.buf.length; rw [List.length_cons] at hl; omega) hb2
        (by show valid ((({ ch with hb := h1 } : Channel).append y).frame ++ ys) = true; rw [hfr]; simpa using hval)
      rw [e]
      refine ⟨t, ?_, h2, h3⟩
      simp only [e2]
      have : (({ ch with hb := h1 } : Channel).bodyStored y).frame = ch.frame ++ [y] := hfr
      rw [this]; simp
    · exact absurd (hc.symm.trans h) (by decide)
    · have : ys = [] := by
        have he' : ch.rem - 1 = 0 := he
        exact List.length_eq_zero_iff.mp (by omega)
      subst this
      have hb2' : b2 = [] := by simpa using hb2
      subst hb2'
      rw [e]
      refine ⟨(({ ch with hb := h1 } : Channel).bodyStored y).outcome .ok, ?_,
        outcome_ended .ok (by decide) (({ ch with hb := h1 } : Channel).bodyStored y), rfl⟩
      simp only [Channel.lineBits, Channel.frameRecord, hfr]
      rfl
    · have : ys = [] := by
        have he' : ch.rem - 1 = 0 := he
        exact List.length_eq_zero_iff.mp (by omega)
      subst this
      rw [hfr] at h; rw [h] at hval; cases hval

/-- The line code of an accepted length field takes a new candidate into BODY (R101, R182, R184, R185). -/
theorem length_run {cfg : Config} (c : ChanNo) (k : Nat) (bits : List (Bool × Time)) (ch : Channel) (hs : ch.st = .len)
    (hv : ch.hv = false) (hn : ch.nb = 0) (ha : ch.acc = 0#8) (hc : ch.coll = false) (h0 : ch.lcnt = 0) (hb0 : ch.lenb = 0#16)
    (hw : ch.wptr = 0) (hbuf : 2 ≤ ch.buf.length) (hmin : cfg.minBody ≤ k) (hmax : k ≤ cfg.maxBody) (hk : k ≤ 65535) (hman : ch.lp = .man → k ≤ 255)
    (hb : bits.map Prod.fst = (lenBytes cfg ch.lp k).flatMap (lineCode cfg ch.lp)) :
    ∃ t, Channel.lineBits cfg c bits ch = (t, []) ∧ t.st = .body ∧ t.hv = false ∧ t.nb = 0 ∧ t.acc = 0#8 ∧ t.coll = false ∧
      t.rem = k + 2 ∧ t.wptr = ch.lp.lw ∧ t.buf.length = ch.buf.length ∧ t.frame = lenBytes cfg ch.lp k ∧ t.len.toNat = k ∧ t.lp = ch.lp ∧ t.ts = ch.ts ∧
      ch.SameCounts t := by
  have hfinish : ∀ (y : Byte) (ch : Channel), ch.st = .len → ch.hv = false → ch.nb = 0 → ch.acc = 0#8 → ch.coll = false → ch.lcnt + 1 = ch.lp.lw →
      (addLengthByte cfg ch.lp ch.lcnt ch.lenb y).toNat = k → ch.wptr < ch.buf.length →
      ∃ t, ch.frameByte cfg c y = (t, none) ∧ t.st = .body ∧ t.hv = false ∧ t.nb = 0 ∧ t.acc = 0#8 ∧ t.coll = false ∧
      t.rem = k + 2 ∧ t.wptr = ch.wptr + 1 ∧ t.buf.length = ch.buf.length ∧ t.frame = ch.frame ++ [y] ∧ t.len.toNat = k ∧ t.lp = ch.lp ∧ t.ts = ch.ts ∧
      ch.SameCounts t := by
    intro y ch hs hv hn ha hc hl hlen hwl
    have hacc : lenAccepted cfg (ch.lengthStored cfg y).lenb = true := by
      simp only [lenAccepted, hlen, Bool.and_eq_true, decide_eq_true_eq]
      exact ⟨hmin, hmax⟩
    rcases frameByte_len (cfg := cfg) (c := c) (y := y) hs with ⟨h, -⟩ | ⟨-, h, -⟩ | ⟨-, -, -, e⟩ | ⟨-, -, h, -⟩
    · exact absurd hl h
    · exact absurd (hc.symm.trans h) (by decide)
    · refine ⟨_, e, rfl, hv, hn, ha, hc, ?_, rfl, append_length ch y, append_frame hwl y, hlen, rfl, rfl, rfl, rfl, rfl, rfl, rfl⟩
      show (addLengthByte cfg ch.lp ch.lcnt ch.lenb y).toNat + 2 = k + 2
      rw [hlen]
    · rw [hacc] at h; cases h
  rcases (by cases ch.lp <;> simp : ch.lp = .man ∨ ch.lp = .dir) with hp | hp
  · have hL : lenBytes cfg ch.lp k = [BitVec.ofNat 8 k] := by rw [hp]; rfl
    rw [hL] at hb ⊢
    rw [List.flatMap_cons, List.flatMap_nil, List.append_nil] at hb
    obtain ⟨h1, e1⟩ := lineCode_run (cfg := cfg) c _ bits ch (by rw [hs]; decide) hv hn ha hb
    have hk' := hman hp
    obtain ⟨t, e, h⟩ := hfinish (BitVec.ofNat 8 k) { ch with hb := h1 } hs hv hn ha hc (by show ch.lcnt + 1 = ch.lp.lw; rw [h0, hp]; rfl)
      (by show (addLengthByte cfg ch.lp ch.lcnt ch.lenb _).toNat = k
          rw [hp, h0, hb0, addLengthByte_man]; simp; omega) (by show ch.wptr < ch.buf.length; omega)
    refine ⟨t, by rw [e1, e]; rfl, ?_⟩
    have hl : ch.lp.lw = 1 := by rw [hp]; rfl
    simpa [Channel.frame, hw, hl] using h
  · obtain ⟨y0, y1, hL, hk2⟩ : ∃ y0 y1, lenBytes cfg .dir k = [y0, y1] ∧ (addLengthByte cfg .dir 1 (y0.setWidth 16) y1).toNat = k := by
      cases ho : cfg.lenOrder
      · refine ⟨_, _, by simp [lenBytes, ho]; exact ⟨rfl, rfl⟩, ?_⟩
        rw [addLengthByte_dir_second, ho]
        simp
        omega
      · refine ⟨_, _, by simp [lenBytes, ho]; exact ⟨rfl, rfl⟩, ?_⟩
        rw [addLengthByte_dir_second, ho]
        simp
        omega
    rw [hp, hL] at hb ⊢
    rw [List.flatMap_cons, List.flatMap_cons, List.flatMap_nil, List.append_nil, List.map_eq_append_iff] at hb
    obtain ⟨b1, b2, rfl, hb1, hb2⟩ := hb
    obtain ⟨h1, e1⟩ := lineCode_run (cfg := cfg) c _ b1 ch (by rw [hs]; decide) hv hn ha (by rw [hp]; exact hb1)
    have e2 : ({ ch with hb := h1 } : Channel).frameByte cfg c y0 = (({ ch with hb := h1 } : Channel).lengthStored cfg y0, none) := by
      rcases frameByte_len (cfg := cfg) (c := c) (y := y0) (ch := { ch with hb := h1 }) hs with ⟨-, e⟩ | ⟨h, -⟩ | ⟨h, -⟩ | ⟨h, -⟩
      · exact e
      all_goals
        have h : ch.lcnt + 1 = ch.lp.lw := h
        rw [h0, hp] at h; exact absurd h (by decide)
    have hwl : ch.wptr < ch.buf.length := by omega
    obtain ⟨h3, e3⟩ := lineCode_run (cfg := cfg) c _ b2 (({ ch with hb := h1 } : Channel).lengthStored cfg y0) (by show ch.st ≠ _; rw [hs]; decide) hv hn ha (by rw [show (({ ch with hb := h1 } : Channel).lengthStored cfg y0).lp = .dir from hp]; exact hb2)
    obtain ⟨t, e, h⟩ := hfinish y1 { ({ ch with hb := h1 } : Channel).lengthStored cfg y0 with hb := h3 } hs hv hn ha hc (by show ch.lcnt + 1 + 1 = ch.lp.lw; rw [h0, hp]; rfl)
      (by show (addLengthByte cfg ch.lp (ch.lcnt + 1) (addLengthByte cfg ch.lp ch.lcnt ch.lenb y0) _).toNat = k
          rw [hp, h0, hb0, addLengthByte_dir_first]; exact hk2) (by show ch.wptr + 1 < (ch.append y0).buf.length; rw [append_length]; omega)
    refine ⟨t, by rw [lineBits_append, e1, e2]; simp only [e3, e]; rfl, ?_⟩
    have hf : ({ ({ ch with hb := h1 } : Channel).lengthStored cfg y0 with hb := h3 } : Channel).frame = [y0] := by
      have : (ch.append y0).frame = ch.frame ++ [y0] := append_frame hwl y0
      rw [show ch.frame = [] by simp [Channel.frame, hw]] at this
      exact this
    rw [hf] at h
    rw [← hp]
    obtain ⟨g1, g2, g3, g4, g5, g6, g7, g8, g9⟩ := h
    refine ⟨g1, g2, g3, g4, g5, g6, ?_, ?_, g9⟩
    · rw [g7, hp]; show ch.wptr + 1 + 1 = 2; rw [hw]
    · rw [g8]; exact append_length ch y0

end Sys2Proof.Machine
end

