-- ==== Sys2Proof/Laws/Candidate.lean ====
section
/-! SUPPORT. One step of a candidate, each lemma saying once what a frame byte, a data bit or a line bit can do: how the candidate
ends or goes on, where its length field stands, which record it produces, and what no output can show. -/

namespace Sys2Proof.Machine

/-! ## The end of a candidate -/

/-- A candidate goes on: it is still one, with the same counters, search window, protocol and timestamp. -/
abbrev Goes (ch t : Channel) : Prop := t.st ≠ .search ∧ ch.SameCounts t ∧ t.sh = ch.sh ∧ t.fill = ch.fill ∧ t.lp = ch.lp ∧ t.ts = ch.ts ∧ (ch.st = .body → t.st = .body)

/-- A frame byte ends the candidate with an outcome, or the candidate goes on; a collided one can end as MANCH_ERR only. -/
theorem frameByte_goes {cfg : Config} {c : ChanNo} {y : Byte} {ch : Channel} (h : ch.st ≠ .search) :
   (∃ k, k ≠ .none ∧ ch.Ended k (ch.frameByte cfg c y).1 ∧ (ch.coll = true → k = .manchErr ∧ (ch.frameByte cfg c y).2 = none)) ∨
   ((ch.frameByte cfg c y).2 = none ∧ Goes ch (ch.frameByte cfg c y).1 ∧ (ch.coll = true → (ch.frameByte cfg c y).1.coll = true ∧ (ch.frameByte cfg c y).1.st = ch.st)) := by
  rcases (by revert h; cases ch.st <;> simp : ch.st = .len ∨ ch.st = .body) with hs | hs
  · rcases frameByte_len (cfg := cfg) (c := c) (y := y) hs with ⟨g, e⟩ | ⟨g, hc, e⟩ | ⟨g, hc, ha, e⟩ | ⟨g, hc, ha, e⟩ <;> rw [e]
    · exact .inr ⟨rfl, ⟨h, ⟨rfl, rfl, rfl, rfl, rfl⟩, rfl, rfl, rfl, rfl, id⟩, fun h => ⟨h, rfl⟩⟩
    · exact .inl ⟨.manchErr, by decide, outcome_ended .manchErr (by decide) (ch.lengthStored cfg y), fun _ => ⟨rfl, rfl⟩⟩
    · exact .inr ⟨rfl, ⟨by simp [Channel.enterBody], ⟨rfl, rfl, rfl, rfl, rfl⟩, rfl, rfl, rfl, rfl, fun _ => rfl⟩, fun h => by rw [hc] at h; cases h⟩
    · exact .inl ⟨.lenErr, by decide, outcome_ended .lenErr (by decide) (ch.lengthStored cfg y), fun h => by rw [hc] at h; cases h⟩
  · rcases frameByte_body (cfg := cfg) (c := c) (y := y) hs with ⟨g, e⟩ | ⟨g, hc, e⟩ | ⟨g, hc, hv, e⟩ | ⟨g, hc, hv, e⟩ <;> rw [e]
    · exact .inr ⟨rfl, ⟨h, ⟨rfl, rfl, rfl, rfl, rfl⟩, rfl, rfl, rfl, rfl, id⟩, fun h => ⟨h, rfl⟩⟩
    · exact .inl ⟨.manchErr, by decide, outcome_ended .manchErr (by decide) (ch.bodyStored y), fun _ => ⟨rfl, rfl⟩⟩
    · exact .inl ⟨.ok, by decide, outcome_ended .ok (by decide) (ch.bodyStored y), fun h => by rw [hc] at h; cases h⟩
    · exact .inl ⟨.crcFail, by decide, outcome_ended .crcFail (by decide) (ch.bodyStored y), fun h => by rw [hc] at h; cases h⟩

/-- The same of a data bit. -/
theorem deliver_goes {cfg : Config} {c : ChanNo} {d : Bool} {ch : Channel} (h : ch.st ≠ .search) :
   (∃ k, k ≠ .none ∧ ch.Ended k (ch.deliver cfg c d).1 ∧ (ch.coll = true → k = .manchErr ∧ (ch.deliver cfg c d).2 = none)) ∨
   ((ch.deliver cfg c d).2 = none ∧ Goes ch (ch.deliver cfg c d).1 ∧ (ch.coll = true → (ch.deliver cfg c d).1.coll = true ∧ (ch.deliver cfg c d).1.st = ch.st)) := by
  rcases deliver_cases cfg c d ch with ⟨-, e⟩ | ⟨-, e⟩ <;> rw [e]
  · exact .inr ⟨rfl, ⟨h, ⟨rfl, rfl, rfl, rfl, rfl⟩, rfl, rfl, rfl, rfl, id⟩, fun h => ⟨h, rfl⟩⟩
  · exact frameByte_goes (ch := { ch with acc := 0#8, nb := 0 }) h

/-- The same of a line bit. -/
theorem lineBit_goes {cfg : Config} {c : ChanNo} {now : Time} {b : Bool} {ch : Channel} (h : ch.st ≠ .search) :
   (∃ k, k ≠ .none ∧ ch.Ended k (ch.lineBit cfg c now b).1 ∧ (ch.coll = true → k = .manchErr ∧ (ch.lineBit cfg c now b).2 = none)) ∨
   ((ch.lineBit cfg c now b).2 = none ∧ Goes ch (ch.lineBit cfg c now b).1 ∧ (ch.coll = true → (ch.lineBit cfg c now b).1.coll = true ∧ (ch.lineBit cfg c now b).1.st = ch.st)) := by
  rcases lineBit_cases cfg c now b ch with ⟨h', -⟩ | ⟨-, hp, hv, e⟩ | ⟨-, hp, hv, e⟩ | ⟨-, hp, e⟩
  · exact absurd h' h
  · rw [e]; exact .inr ⟨rfl, ⟨h, ⟨rfl, rfl, rfl, rfl, rfl⟩, rfl, rfl, rfl, rfl, id⟩, fun h => ⟨h, rfl⟩⟩
  · rw [e]
    rcases deliver_goes (cfg := cfg) (c := c) (d := pairData cfg.manchPol ch.hb b) (ch := ch.pairFlags ch.hb b) h with ⟨k, h1, h2, h3⟩ | ⟨h1, h2, h3⟩
    · exact .inl ⟨k, h1, h2, fun hc => h3 (by simp [Channel.pairFlags, hc])⟩
    · exact .inr ⟨h1, h2, fun hc => h3 (by simp [Channel.pairFlags, hc])⟩
  · rw [e]; exact deliver_goes h

/-! ## The length field -/

/-- How many line bits of the length field have arrived. -/
def lenPos (ch : Channel) : Nat := ch.lp.bpd * (8 * ch.lcnt + ch.nb) + ch.hv.toNat

/-- A candidate in its length field. -/
abbrev LenOk (ch : Channel) : Prop := ch.st = .len ∧ ch.lcnt < ch.lp.lw ∧ ch.nb ≤ 7 ∧ (ch.lp = .dir → ch.hv = false)

/-- A frame byte of the length field, no record: the field goes on, or it ends. -/
theorem len_frameByte {cfg : Config} {c : ChanNo} {y : Byte} {ch : Channel} (h : ch.st = .len) (hl : ch.lcnt < ch.lp.lw) :
   (ch.frameByte cfg c y).2 = none ∧
   ((ch.lcnt + 1 < ch.lp.lw ∧ (ch.frameByte cfg c y).1 = ch.lengthStored cfg y) ∨
    (ch.lcnt + 1 = ch.lp.lw ∧ (ch.frameByte cfg c y).1.st ≠ .len ∧ ((ch.frameByte cfg c y).1.st = .body → (ch.frameByte cfg c y).1.lcnt = ch.lp.lw))) := by
  rcases frameByte_len (cfg := cfg) (c := c) (y := y) h with ⟨h1, e⟩ | ⟨h1, -, e⟩ | ⟨h1, -, -, e⟩ | ⟨h1, -, -, e⟩ <;> rw [e]
  · exact ⟨rfl, .inl ⟨by omega, rfl⟩⟩
  · refine ⟨rfl, .inr ⟨h1, ?_, ?_⟩⟩ <;> simp [Channel.outcome, Channel.restart, Channel.count]
  · refine ⟨rfl, .inr ⟨h1, ?_, fun _ => h1⟩⟩; simp [Channel.enterBody]
  · refine ⟨rfl, .inr ⟨h1, ?_, ?_⟩⟩ <;> simp [Channel.outcome, Channel.restart, Channel.count]

/-- A data bit of the length field moves its position by the line bits of a data bit, or ends it at position 16. -/
theorem len_deliver {cfg : Config} {c : ChanNo} {d : Bool} {ch : Channel} (h : ch.st = .len) (hl : ch.lcnt < ch.lp.lw) (hn : ch.nb ≤ 7) (hv : ch.hv = false) :
   (ch.deliver cfg c d).2 = none ∧
   ((LenOk (ch.deliver cfg c d).1 ∧ (ch.deliver cfg c d).1.lp = ch.lp ∧ lenPos (ch.deliver cfg c d).1 = lenPos ch + ch.lp.bpd) ∨
    (lenPos ch + ch.lp.bpd = 16 ∧ (ch.deliver cfg c d).1.st ≠ .len ∧ ((ch.deliver cfg c d).1.st = .body → (ch.deliver cfg c d).1.lcnt = ch.lp.lw))) := by
  rcases deliver_cases cfg c d ch with ⟨h1, e⟩ | ⟨h1, e⟩ <;> rw [e]
  · refine ⟨rfl, .inl ⟨⟨h, hl, by simp only; omega, fun _ => hv⟩, rfl, ?_⟩⟩
    simp only [lenPos]; ring
  · obtain ⟨h2, h3 | h3⟩ := len_frameByte (cfg := cfg) (c := c) (y := addDataBit cfg.bitOrder ch.acc d ^^^ ch.lp.mask) (ch := { ch with acc := 0#8, nb := 0 }) h hl
    · refine ⟨h2, .inl ?_⟩
      rw [h3.2]
      refine ⟨⟨h, h3.1, by simp, fun _ => hv⟩, rfl, ?_⟩
      show ch.lp.bpd * (8 * (ch.lcnt + 1) + 0) + ch.hv.toNat = _
      simp only [lenPos, h1]; ring
    · refine ⟨h2, .inr ⟨?_, h3.2⟩⟩
      have h3 : ch.lcnt + 1 = ch.lp.lw := h3.1
      simp only [lenPos, h1, hv]
      revert h3
      cases ch.lp <;> simp [LineProtocol.lw, LineProtocol.bpd] <;> omega

/-- A line bit of the length field moves its position by one, or ends it at position 16 (R183). -/
theorem len_lineBit {cfg : Config} {c : ChanNo} {now : Time} {b : Bool} {ch : Channel} (h : LenOk ch) :
   (ch.lineBit cfg c now b).2 = none ∧
   ((LenOk (ch.lineBit cfg c now b).1 ∧ (ch.lineBit cfg c now b).1.lp = ch.lp ∧ lenPos (ch.lineBit cfg c now b).1 = lenPos ch + 1) ∨
    (lenPos ch + 1 = 16 ∧ (ch.lineBit cfg c now b).1.st ≠ .len ∧ ((ch.lineBit cfg c now b).1.st = .body → (ch.lineBit cfg c now b).1.lcnt = ch.lp.lw))) := by
  obtain ⟨hs, hl, hn, hd⟩ := h
  rcases lineBit_cases cfg c now b ch with ⟨h, -⟩ | ⟨-, hp, hv, e⟩ | ⟨-, hp, hv, e⟩ | ⟨-, hp, e⟩
  · rw [hs] at h; cases h
  · rw [e]
    refine ⟨rfl, .inl ⟨⟨hs, hl, hn, fun h => by rw [show (ch.latch b).lp = ch.lp from rfl, hp] at h; cases h⟩, rfl, ?_⟩⟩
    simp only [lenPos, Channel.latch, hv]; rfl
  · rw [e]
    have hpos : lenPos (ch.pairFlags ch.hb b) + 1 = lenPos ch := by simp only [lenPos, Channel.pairFlags, hv]; rfl
    have hb : (ch.pairFlags ch.hb b).lp.bpd = 2 := by show ch.lp.bpd = 2; rw [hp]; rfl
    obtain ⟨h1, h2 | h2⟩ := len_deliver (cfg := cfg) (c := c) (d := pairData cfg.manchPol ch.hb b) (ch := ch.pairFlags ch.hb b) hs hl hn rfl
    · exact ⟨h1, .inl ⟨h2.1, h2.2.1, by rw [h2.2.2, hb]; omega⟩⟩
    · exact ⟨h1, .inr ⟨by rw [hb] at h2; omega, h2.2⟩⟩
  · rw [e]
    have hb : ch.lp.bpd = 1 := by rw [hp]; rfl
    obtain ⟨h1, h2 | h2⟩ := len_deliver (cfg := cfg) (c := c) (d := !b) hs hl hn (hd hp)
    · exact ⟨h1, .inl ⟨h2.1, h2.2.1, by rw [h2.2.2, hb]⟩⟩
    · exact ⟨h1, .inr ⟨by rw [hb] at h2; omega, h2.2⟩⟩

/-! ## The record -/

/-- The record that a rule of channel `c` may produce: the frame of a valid candidate at its last byte (R188, R189). -/
abbrev RecOk (c : ChanNo) (ch : Channel) (r : Option Record) : Prop :=
   r = none ∨ (ch.st = .body ∧ ∃ f, valid f = true ∧ ch.coll = false ∧ ch.rem - 1 = 0 ∧ r = some (.frame c ch.ts (BitVec.ofNat 17 f.length) f) ∧ ∃ y, f = (ch.append y).frame)


theorem deliver_rec {cfg : Config} {c : ChanNo} {d : Bool} {ch : Channel} (h : ch.st ≠ .search) :
   (ch.deliver cfg c d).2 = none ∨ (ch.st = .body ∧ ∃ f, valid f = true ∧ ch.coll = false ∧ ch.rem - 1 = 0 ∧ (ch.deliver cfg c d).2 = some (.frame c ch.ts (BitVec.ofNat 17 f.length) f) ∧ ∃ y, f = (ch.append y).frame) := by
  rcases deliver_cases cfg c d ch with ⟨-, e⟩ | ⟨-, e⟩ <;> rw [e]
  · exact .inl rfl
  · rcases (by revert h; cases ch.st <;> simp : ch.st = .len ∨ ch.st = .body) with hs | hs
    · left
      rcases frameByte_len (cfg := cfg) (c := c) (y := addDataBit cfg.bitOrder ch.acc d ^^^ ch.lp.mask) (ch := { ch with acc := 0#8, nb := 0 }) hs with ⟨g, e⟩ | ⟨g, hc, e⟩ | ⟨g, hc, ha, e⟩ | ⟨g, hc, ha, e⟩ <;> rw [e]
    · rcases frameByte_body (cfg := cfg) (c := c) (y := addDataBit cfg.bitOrder ch.acc d ^^^ ch.lp.mask) (ch := { ch with acc := 0#8, nb := 0 }) hs with ⟨g, e⟩ | ⟨g, hc, e⟩ | ⟨g, hc, ha, e⟩ | ⟨g, hc, ha, e⟩ <;> rw [e]
      · exact .inl rfl
      · exact .inl rfl
      · exact .inr ⟨hs, _, ha, hc, g, rfl, _, rfl⟩
      · exact .inl rfl

theorem lineBit_rec (cfg : Config) (c : ChanNo) (now : Time) (b : Bool) (ch : Channel) : RecOk c ch (ch.lineBit cfg c now b).2 := by
  rcases lineBit_cases cfg c now b ch with ⟨h, e⟩ | ⟨h, hp, hv, e⟩ | ⟨h, hp, hv, e⟩ | ⟨h, hp, e⟩ <;> rw [e]
  · exact .inl rfl
  · exact .inl rfl
  · rcases deliver_rec (cfg := cfg) (c := c) (d := pairData cfg.manchPol ch.hb b) (ch := ch.pairFlags ch.hb b) h with h | ⟨h1, f, h2, h3, h4, h5, h6⟩
    · exact .inl h
    · refine .inr ⟨h1, f, h2, ?_, h4, h5, h6⟩
      simp [Channel.pairFlags] at h3; exact h3.1
  · exact deliver_rec h
theorem pairSymbol_rec (cfg : Config) (c : ChanNo) (p1 p2 : Bool) (ch : Channel) : RecOk c ch (ch.pairSymbol cfg c p1 p2).2 := by
  cases hd : ch.pairDue p1
  · left; simp [Channel.pairSymbol, hd]
  · rw [pairSymbol_due hd]
    have h : ch.st ≠ .search := by simp [Channel.pairDue] at hd; tauto
    rcases deliver_rec (cfg := cfg) (c := c) (d := pairData cfg.manchPol p1 p2) (ch := ch.pairFlags p1 p2) h with h | ⟨h1, f, h2, h3, h4, h5, h6⟩
    · exact .inl h
    · refine .inr ⟨h1, f, h2, ?_, h4, h5, h6⟩
      simp [Channel.pairFlags] at h3; exact h3.1
theorem directSymbol_rec (cfg : Config) (c : ChanNo) (q : Bool) (ch : Channel) : RecOk c ch (ch.directSymbol cfg c q).2 := by
  cases hd : ch.directDue
  · left; simp [Channel.directSymbol, hd]
  · rw [directSymbol_due hd]
    exact deliver_rec (by simp [Channel.directDue] at hd; tauto)

/-! ## What no output can show -/

/-- Results that are alike, with the same record. -/
abbrev AlikeR (r r' : Channel × Option Record) : Prop := r.1.Alike r'.1 ∧ r.2 = r'.2

/-- A write at `n` keeps two buffers of one length that agree before `n` in agreement up to it. -/
theorem take_set_congr {l l' : List Byte} {n : Nat} (y : Byte) (hl : l'.length = l.length) (h : l'.take n = l.take n) :
    (l'.set n y).take (n + 1) = (l.set n y).take (n + 1) := by
  rw [List.take_add_one, List.take_add_one, List.take_set_of_le (Nat.le_refl _), List.take_set_of_le (Nat.le_refl _), h]
  simp [List.getElem?_set, hl]

/-- Alike channels stay alike over a frame byte, which may differ once they have collided (R166). -/
theorem alike_frameByte {cfg : Config} {c : ChanNo} {y y' : Byte} {ch ch' : Channel} (h : ch.Alike ch') (hy : ch.coll = true ∨ y = y') (hst : ch.st ≠ .search) :
   AlikeR (ch.frameByte cfg c y) (ch'.frameByte cfg c y') := by
  obtain ⟨he, hbl, h⟩ := h
  generalize ch'.buf = buf at *; generalize ch'.acc = acc at *; generalize ch'.lenb = lenb at *
  subst he
  have h' : ch.coll = true ∨ (y = y' ∧ acc = ch.acc ∧ lenb = ch.lenb ∧ buf.take ch.wptr = ch.buf.take ch.wptr) := by
    rcases h with h | h
    · exact .inl h
    · rcases hy with g | g
      · exact .inl g
      · exact .inr ⟨g, h⟩
  have hset : (buf.set ch.wptr y').length = (ch.buf.set ch.wptr y).length := by simpa using hbl
  by_cases hs : ch.st = .len
  · rcases frameByte_len (cfg := cfg) (c := c) (y := y) (ch := ch) hs with ⟨g, e⟩ | ⟨g, hc, e⟩ | ⟨g, hc, ha, e⟩ | ⟨g, hc, ha, e⟩ <;>
    rcases frameByte_len (cfg := cfg) (c := c) (y := y') (ch := { ch with buf := buf, acc := acc, lenb := lenb }) hs with ⟨g', e'⟩ | ⟨g', hc', e'⟩ | ⟨g', hc', ha', e'⟩ | ⟨g', hc', ha', e'⟩ <;> first | exact absurd g g' | exact absurd g' g | skip
    all_goals first | (rw [hc] at hc'; cases hc'; done) | skip
    all_goals rw [e, e']
    · refine ⟨⟨rfl, hset, ?_⟩, rfl⟩
      rcases h' with h | ⟨rfl, h1, h2, h3⟩
      · exact .inl h
      · exact .inr ⟨h1, by show addLengthByte _ _ _ _ _ = addLengthByte _ _ _ _ _; simp only; rw [h2], take_set_congr y hbl h3⟩
    · exact ⟨⟨rfl, hset, .inr ⟨rfl, rfl, by simp [Channel.frame, Channel.outcome, Channel.restart, Channel.count]⟩⟩, rfl⟩
    all_goals
      rcases h' with h | ⟨rfl, h1, h2, h3⟩
      · rw [hc] at h; cases h
      subst h1 h2
    · exact ⟨⟨rfl, hset, .inr ⟨rfl, rfl, take_set_congr y hbl h3⟩⟩, rfl⟩
    · rw [show (({ ch with buf := buf } : Channel).lengthStored cfg y).lenb = (ch.lengthStored cfg y).lenb from rfl, ha] at ha'; cases ha'
    · rw [show (({ ch with buf := buf } : Channel).lengthStored cfg y).lenb = (ch.lengthStored cfg y).lenb from rfl, ha] at ha'; cases ha'
    · exact ⟨⟨rfl, hset, .inr ⟨rfl, rfl, by simp [Channel.frame, Channel.outcome, Channel.restart, Channel.count]⟩⟩, rfl⟩
  · have hs : ch.st = .body := by revert hs hst; cases ch.st <;> simp
    rcases frameByte_body (cfg := cfg) (c := c) (y := y) (ch := ch) hs with ⟨g, e⟩ | ⟨g, hc, e⟩ | ⟨g, hc, ha, e⟩ | ⟨g, hc, ha, e⟩ <;>
    rcases frameByte_body (cfg := cfg) (c := c) (y := y') (ch := { ch with buf := buf, acc := acc, lenb := lenb }) hs with ⟨g', e'⟩ | ⟨g', hc', e'⟩ | ⟨g', hc', ha', e'⟩ | ⟨g', hc', ha', e'⟩ <;> first | exact absurd g g' | exact absurd g' g | skip
    all_goals first | (rw [hc] at hc'; cases hc'; done) | skip
    all_goals rw [e, e']
    · refine ⟨⟨rfl, hset, ?_⟩, rfl⟩
      rcases h' with h | ⟨rfl, h1, h2, h3⟩
      · exact .inl h
      · exact .inr ⟨h1, h2, take_set_congr y hbl h3⟩
    · exact ⟨⟨rfl, hset, .inr ⟨rfl, rfl, by simp [Channel.frame, Channel.outcome, Channel.restart, Channel.count]⟩⟩, rfl⟩
    all_goals
      rcases h' with h | ⟨rfl, h1, h2, h3⟩
      · rw [hc] at h; cases h
      subst h1 h2
      have hf : (({ ch with buf := buf } : Channel).append y).frame = (ch.append y).frame := take_set_congr y hbl h3
    · refine ⟨⟨rfl, hset, .inr ⟨rfl, rfl, by simp [Channel.frame, Channel.outcome, Channel.restart, Channel.count]⟩⟩, ?_⟩
      show some ((ch.append y).frameRecord c) = some ((({ ch with buf := buf } : Channel).append y).frameRecord c)
      simp only [Channel.frameRecord, hf]; rfl
    · rw [hf, ha] at ha'; cases ha'
    · rw [hf, ha] at ha'; cases ha'
    · exact ⟨⟨rfl, hset, .inr ⟨rfl, rfl, by simp [Channel.frame, Channel.outcome, Channel.restart, Channel.count]⟩⟩, rfl⟩

/-- The same of a data bit. -/
theorem alike_deliver {cfg : Config} {c : ChanNo} {d d' : Bool} {ch ch' : Channel} (h : ch.Alike ch') (hd : ch.coll = true ∨ d = d') (hst : ch.st ≠ .search) :
   AlikeR (ch.deliver cfg c d) (ch'.deliver cfg c d') := by
  obtain ⟨he, hbl, h⟩ := h
  have hacc : ch.coll = true ∨ addDataBit cfg.bitOrder ch.acc d = addDataBit cfg.bitOrder ch'.acc d' := by
    rcases h with h | h
    · exact .inl h
    · rcases hd with g | g
      · exact .inl g
      · exact .inr (by rw [g, h.1])
  have hn : ch'.nb = ch.nb := by rw [he]
  have hlp : ch'.lp = ch.lp := by rw [he]
  rcases deliver_cases cfg c d ch with ⟨g, e⟩ | ⟨g, e⟩ <;> rcases deliver_cases cfg c d' ch' with ⟨g', e'⟩ | ⟨g', e'⟩ <;> first | (rw [hn] at g'; exact absurd g g') | (rw [hn] at g'; exact absurd g' g) | skip
  · rw [e, e']
    refine ⟨⟨by rw [he], hbl, ?_⟩, rfl⟩
    rcases h with h | h
    · exact .inl h
    · rcases hacc with k | k
      · exact .inl k
      · exact .inr ⟨k.symm, h.2⟩
  · rw [e, e']
    refine alike_frameByte ⟨by rw [he], hbl, ?_⟩ ?_ hst
    · rcases h with h | h
      · exact .inl h
      · exact .inr ⟨rfl, h.2⟩
    · rcases hacc with k | k
      · exact .inl k
      · exact .inr (by rw [k, hlp])

/-- The same of a line bit. -/
theorem alike_lineBit {cfg : Config} {c : ChanNo} {now : Time} {b : Bool} {ch ch' : Channel} (h : ch.Alike ch') :
   AlikeR (ch.lineBit cfg c now b) (ch'.lineBit cfg c now b) := by
  obtain ⟨he, hbl, h⟩ := h
  have hst : ch'.st = ch.st := by rw [he]
  have hlp : ch'.lp = ch.lp := by rw [he]
  have hhv : ch'.hv = ch.hv := by rw [he]
  have hhb : ch'.hb = ch.hb := by rw [he]
  rcases lineBit_cases cfg c now b ch with ⟨g, e⟩ | ⟨g, hp, hv, e⟩ | ⟨g, hp, hv, e⟩ | ⟨g, hp, e⟩
  · rw [e, lineBit_search (hst.trans g)]
    refine ⟨?_, rfl⟩
    have hw : ∀ pat, (ch'.searchShift cfg b).windowIs cfg pat = (ch.searchShift cfg b).windowIs cfg pat := by intro pat; rw [he]; rfl
    rcases matchTest_cases cfg now (ch.searchShift cfg b) with ⟨k, e⟩ | ⟨k, k2, e⟩ | ⟨k, k2, e⟩ <;>
    rcases matchTest_cases cfg now (ch'.searchShift cfg b) with ⟨k', e'⟩ | ⟨k', k2', e'⟩ | ⟨k', k2', e'⟩ <;> (try rw [hw] at k') <;> (try rw [hw] at k2') <;>
      first | (rw [k] at k'; cases k'; done) | (rw [k2] at k2'; cases k2'; done) | skip
    · rw [e, e']; exact ⟨by rw [he]; rfl, hbl, .inr ⟨rfl, rfl, rfl⟩⟩
    · rw [e, e']; exact ⟨by rw [he]; rfl, hbl, .inr ⟨rfl, rfl, rfl⟩⟩
    · rw [e, e']; exact ⟨by rw [he]; rfl, hbl, h⟩
  · rw [e, lineBit_man (by rw [hst]; exact g) (hlp.trans hp), if_neg (by rw [hhv, hv]; decide)]
    exact ⟨⟨by rw [he]; rfl, hbl, h⟩, rfl⟩
  · rw [e, lineBit_man (by rw [hst]; exact g) (hlp.trans hp), if_pos (hhv.trans hv), hhb]
    refine alike_deliver ⟨by rw [he]; rfl, hbl, ?_⟩ (.inr rfl) g
    rcases h with h | h
    · exact .inl (by simp [Channel.pairFlags, h])
    · exact .inr h
  · rw [e, lineBit_dir (by rw [hst]; exact g) (hlp.trans hp)]
    exact alike_deliver ⟨he, hbl, h⟩ (.inr rfl) g

/-! ## The machine's invariant over one channel -/

/-- A write of a channel that has the invariant keeps the machine's. -/
theorem inv_set {s : State} (h : s.Inv) (c : ChanNo) {ch : Channel} (hch : ch.Inv s.cfg) : (s.setChan c ch).Inv := by
  obtain ⟨h1, h2, h3⟩ := h
  refine ⟨h1, by simpa using h2, fun x hx => ?_⟩
  rcases List.mem_or_eq_of_mem_set hx with h | rfl
  · exact h3 x h
  · exact hch
/-- Every channel that is read has the invariant. -/
theorem chan_inv {s : State} (h : s.Inv) (c : ChanNo) : (s.chan c).Inv s.cfg := by
  by_cases hc : c.toNat < s.chans.length
  · exact h.2.2 _ (State.chan_mem hc)
  · have : s.chan c = Channel.reset s.cfg := by simp [State.chan, List.getD_eq_getElem?_getD, hc]
    rw [this]; exact reset_inv _
/-- A change that keeps a channel's invariant keeps the machine's. -/
theorem inv_on {s : State} (h : s.Inv) (c : ChanNo) {f : Channel → Channel × Option Record} (hf : ∀ ch, ch.Inv s.cfg → (f ch).1.Inv s.cfg) : (s.onChan c f).Inv := by
  have := inv_set h c (hf _ (chan_inv h c))
  exact ⟨by rw [State.onChan_cfg]; exact this.1, by simpa using this.2.1, by simpa using this.2.2⟩

end Sys2Proof.Machine
end

