-- ==== Sys2Proof/Laws/Crc.lean ====
section
/-! SUPPORT. The CRC functions (R121 to R125): a step is injective in the register and in the message bit, sequences compose, and
validity is a comparison of the last two bytes. -/

namespace Sys2Proof.Machine

/-- R121: with a 0 fed back the register moves right, with a 1 the polynomial is added. -/
theorem crcBit_of (c : Half) (m : Bool) :
    (crcBit c m = c >>> 1 ∧ c.getLsbD 0 = m) ∨ (crcBit c m = (c >>> 1) ^^^ 0x8408#16 ∧ c.getLsbD 0 = !m) := by
  unfold crcBit
  cases c.getLsbD 0 <;> cases m
  · exact .inl ⟨rfl, rfl⟩
  · exact .inr ⟨rfl, rfl⟩
  · exact .inr ⟨rfl, rfl⟩
  · exact .inl ⟨rfl, rfl⟩

/-- Bit 15 of the new register is the bit fed back. -/
theorem crcBit_top (c : Half) (m : Bool) : (crcBit c m).getLsbD 15 = (c.getLsbD 0 ^^ m) := by
  have ht : (c >>> 1).getLsbD 15 = false := by
    rw [BitVec.getLsbD_ushiftRight]; exact BitVec.getLsbD_of_ge c 16 (by decide)
  rcases crcBit_of c m with ⟨e, h⟩ | ⟨e, h⟩ <;> rw [e, h]
  · rw [ht]; cases m <;> rfl
  · rw [BitVec.getLsbD_xor, ht]; cases m <;> decide

/-- A step loses nothing of the register. -/
theorem crcBit_inj {c c' : Half} {m : Bool} (h : crcBit c m = crcBit c' m) : c = c' := by
  have h0 : c.getLsbD 0 = c'.getLsbD 0 := by
    have := crcBit_top c m
    rw [h, crcBit_top] at this
    revert this
    cases c.getLsbD 0 <;> cases c'.getLsbD 0 <;> cases m <;> decide
  have hs : c >>> 1 = c' >>> 1 := by
    unfold crcBit at h
    rw [h0] at h
    split at h
    · exact (BitVec.xor_left_inj _).mp h
    · exact h
  apply BitVec.eq_of_getLsbD_eq
  intro i hi
  cases i with
  | zero => exact h0
  | succ i =>
    have := congrArg (fun v => BitVec.getLsbD v i) hs
    simpa only [BitVec.getLsbD_ushiftRight, Nat.add_comm 1 i] using this

/-- A step loses nothing of the message bit. -/
theorem crcBit_bit_inj {c : Half} {m m' : Bool} (h : crcBit c m = crcBit c m') : m = m' := by
  have := crcBit_top c m
  rw [h, crcBit_top] at this
  revert this
  cases c.getLsbD 0 <;> cases m <;> cases m' <;> decide

/-- Message bits in sequence lose nothing of the register. -/
theorem crcBits_inj {bits : List Bool} {c c' : Half} (h : bits.foldl crcBit c = bits.foldl crcBit c') : c = c' := by
  induction bits generalizing c c' with
  | nil => exact h
  | cons b rest ih => exact crcBit_inj (ih h)

theorem crcByte_inj {c c' : Half} {d : Byte} (h : crcByte c d = crcByte c' d) : c = c' := crcBits_inj h

@[simp] theorem crcBytes_nil (c : Half) : crcBytes c [] = c := rfl

@[simp] theorem crcBytes_cons (c : Half) (y : Byte) (s : List Byte) : crcBytes c (y :: s) = crcBytes (crcByte c y) s := rfl

theorem crcBytes_append (c : Half) (s t : List Byte) : crcBytes c (s ++ t) = crcBytes (crcBytes c s) t := List.foldl_append

theorem crcBytes_inj {s : List Byte} {c c' : Half} (h : crcBytes c s = crcBytes c' s) : c = c' := by
  induction s generalizing c c' with
  | nil => exact h
  | cons y rest ih => exact crcByte_inj (ih h)

/-- The value of two serialised bytes (R124, R125). -/
theorem deser_toNat (lo hi : Byte) : (deser lo hi).toNat = hi.toNat * 256 + lo.toNat := by
  have h1 := lo.isLt
  have h2 := hi.isLt
  have e1 : (lo.setWidth 16 : Half).toNat = lo.toNat := by rw [BitVec.toNat_setWidth, Nat.mod_eq_of_lt (by omega)]
  have e2 : (hi.setWidth 16 <<< 8 : Half).toNat = hi.toNat * 256 := by
    rw [BitVec.toNat_shiftLeft, BitVec.toNat_setWidth, Nat.mod_eq_of_lt (a := hi.toNat) (by omega), Nat.shiftLeft_eq,
      Nat.mod_eq_of_lt (by omega)]
  rw [deser, BitVec.toNat_or, e1, e2, show hi.toNat * 256 = hi.toNat <<< 8 by rw [Nat.shiftLeft_eq],
    Nat.shiftLeft_add_eq_or_of_lt (by simpa using h1)]

/-- `ser` and `deser` undo each other. -/
theorem deser_ser (v : Half) : deser (v.extractLsb' 0 8) (v.extractLsb' 8 8) = v := by
  apply BitVec.eq_of_toNat_eq
  have := v.isLt
  simp only [deser_toNat, BitVec.extractLsb'_toNat, Nat.shiftRight_eq_div_pow]
  omega

/-- R125 on a sequence whose last two bytes are named. -/
theorem valid_append (m : List Byte) (lo hi : Byte) : valid (m ++ [lo, hi]) = (checksum m == deser lo hi) := by
  simp [valid, List.getD_eq_getElem?_getD]

/-- A sequence of two or more bytes has a last two. -/
theorem exists_last_two {f : List Byte} (h : 2 ≤ f.length) : ∃ m lo hi, f = m ++ [lo, hi] := by
  have hn : f ≠ [] := by rintro rfl; simp at h
  refine ⟨f.dropLast.dropLast, f.dropLast.getLast ?_, f.getLast hn, ?_⟩
  · intro e
    have := congrArg List.length e
    simp at this; omega
  · conv_lhs => rw [← List.dropLast_append_getLast hn, ← List.dropLast_append_getLast (l := f.dropLast) (by
      intro e
      have := congrArg List.length e
      simp at this; omega)]
    simp

/-- R126: fewer than two bytes are not valid. -/
theorem valid_short {f : List Byte} (h : f.length < 2) : valid f = false := by
  simp [valid, show ¬ 2 ≤ f.length by omega]

/-! ## Single-bit errors and the residue -/

/-- A message bit flipped, and the same bits after it, never lead to the same register. -/
theorem crcBits_flip_ne (c : Half) (m : Bool) (bits : List Bool) : (m :: bits).foldl crcBit c ≠ ((!m) :: bits).foldl crcBit c := by
  intro h
  have := crcBit_bit_inj (crcBits_inj h)
  cases m <;> simp at this

/-- One bit of a byte flipped changes the register. -/
theorem crcByte_flip_ne (c : Half) (y : Byte) {k : Nat} (hk : k < 8) : crcByte c (y ^^^ (1#8 <<< k)) ≠ crcByte c y := by
  have key : ∀ y : Byte, ∀ k < 8, byteBits (y ^^^ (1#8 <<< k)) =
      (byteBits y).take k ++ (!(byteBits y).getD k false) :: (byteBits y).drop (k + 1) := by decide
  have key' : ∀ y : Byte, ∀ k < 8, byteBits y = (byteBits y).take k ++ (byteBits y).getD k false :: (byteBits y).drop (k + 1) := by
    decide
  intro h
  rw [crcByte, crcByte, key y k hk] at h
  conv at h => rhs; rw [key' y k hk]
  rw [List.foldl_append, List.foldl_append] at h
  exact crcBits_flip_ne _ _ _ h.symm

/-- One bit of a message flipped changes the register. -/
theorem crcBytes_flip_ne (c : Half) (a b : List Byte) (y : Byte) {k : Nat} (hk : k < 8) :
    crcBytes c (a ++ (y ^^^ (1#8 <<< k)) :: b) ≠ crcBytes c (a ++ y :: b) := by
  intro h
  rw [crcBytes_append, crcBytes_append, crcBytes_cons, crcBytes_cons] at h
  exact crcByte_flip_ne _ y hk (crcBytes_inj h)

/-- Bytes that carry the complement of the register bits clear the register's own part. -/
theorem crcBit_complement (c k : Half) (i : Nat) : crcBit ((c >>> i) ^^^ k) (!c.getLsbD i) = (c >>> (i + 1)) ^^^ crcBit k true := by
  have h0 : ((c >>> i) ^^^ k).getLsbD 0 = (c.getLsbD i ^^ k.getLsbD 0) := by
    rw [BitVec.getLsbD_xor, BitVec.getLsbD_ushiftRight, Nat.add_zero]
  have hs : ((c >>> i) ^^^ k) >>> 1 = (c >>> (i + 1)) ^^^ (k >>> 1) := by
    rw [BitVec.ushiftRight_xor_distrib, BitVec.shiftRight_add]
  unfold crcBit
  rw [h0, hs]
  cases c.getLsbD i <;> cases k.getLsbD 0 <;> simp [BitVec.xor_assoc]

/-- R128: a register followed by the serialisation of its complement leaves 0xF0B8. -/
theorem crcBytes_residue (c : Half) : crcBytes c (ser (c ^^^ 0xFFFF#16)) = 0xF0B8#16 := by
  have bits : byteBits ((c ^^^ 0xFFFF#16).extractLsb' 0 8) ++ byteBits ((c ^^^ 0xFFFF#16).extractLsb' 8 8) =
      (List.range 16).map fun i => !c.getLsbD i := by
    simp only [byteBits, List.map_cons, List.map_nil, BitVec.getLsbD_extractLsb', List.cons_append, List.nil_append]
    simp [List.range, List.range.loop]
  have run : ∀ n, ((List.range n).map fun i => !c.getLsbD i).foldl crcBit c =
      (c >>> n) ^^^ (List.replicate n true).foldl crcBit 0#16 := by
    intro n
    induction n with
    | zero => simp
    | succ n ih =>
      rw [List.range_succ, List.map_append, List.foldl_append, ih, List.replicate_succ', List.foldl_append]
      exact crcBit_complement c _ n
  have e : crcBytes c (ser (c ^^^ 0xFFFF#16)) =
      (byteBits ((c ^^^ 0xFFFF#16).extractLsb' 0 8) ++ byteBits ((c ^^^ 0xFFFF#16).extractLsb' 8 8)).foldl crcBit c := by
    rw [List.foldl_append]; rfl
  have hz : c >>> 16 = 0#16 := by
    apply BitVec.eq_of_toNat_eq
    have := c.isLt
    rw [BitVec.toNat_ushiftRight, Nat.shiftRight_eq_div_pow]
    simp only [BitVec.toNat_ofNat]
    omega
  rw [e, bits, run, hz, BitVec.zero_xor]
  decide +kernel

end Sys2Proof.Machine
end

