-- ==== Sys2Proof/Laws/Isolation.lean ====
section
/-! SUPPORT. What an instruction can do to its own channel and to the others, over whole states, and when a line symbol touches a
channel's counters. -/

namespace Sys2Proof.Machine

/-- Every instruction of a channel is one function of that channel, the configuration, TIME and, for a GSTATUS read alone, ILL; the
frames it produces are frames of its channel (R38). -/
theorem exec_chan {i : Instr} {c : ChanNo} (h : instrChan i = some c) :
    ∃ f : Config → Time → Bool → Channel → Channel × Option Record,
      (i ≠ .rdreg c 7#3 → ∀ cfg now a b, f cfg now a = f cfg now b) ∧
      (∀ cfg now a ch n d x bytes, (f cfg now a ch).2 = some (.frame d x n bytes) → d = c) ∧
      (∀ s, exec i s = .next { s.onChan c (f s.cfg s.now s.ill) with ill := if i = .rdreg c 7#3 then false else s.ill }) ∧
      (i = .rdreg c 7#3 → ∀ cfg now a ch, ∃ v, f cfg now a ch = (ch, some (.rdata c 7#3 v))) := by
  have onc : ∀ (s : State) f, ({ s.onChan c f with ill := s.ill } : State) = s.onChan c f := fun s f => by
    have := State.onChan_ill s c f
    cases hh : s.onChan c f; rw [hh] at this; simp only at this; subst this; rfl
  have fr : ∀ {ch : Channel} {r : Option Record} {n d x bytes}, RecOk c ch r → r = some (.frame d x n bytes) → d = c := by
    rintro ch r n d x bytes (rfl | ⟨-, f, -, -, -, rfl, -⟩) h
    · cases h
    · simp at h; exact h.1.symm
  cases i <;> simp only [instrChan, Option.some.injEq, reduceCtorEq] at h <;> try subst h
  case lbit c b => exact ⟨fun cfg now _ => Channel.lineBit cfg c now b, fun _ _ _ _ _ => rfl, fun _ _ _ ch _ _ _ _ => fr (lineBit_rec ..), fun s => by simp only [reduceCtorEq, if_false, onc]; rfl, fun h => by cases h⟩
  case eos c => exact ⟨fun _ _ _ ch => (ch.restart, none), fun _ _ _ _ _ => rfl, fun _ _ _ ch _ _ _ _ h => by simp at h, fun s => by simp only [reduceCtorEq, if_false, onc]; rfl, fun h => by cases h⟩
  case clrc c => exact ⟨fun _ _ _ ch => (ch.clearCounts, none), fun _ _ _ _ _ => rfl, fun _ _ _ ch _ _ _ _ h => by simp at h, fun s => by simp only [reduceCtorEq, if_false, onc]; rfl, fun h => by cases h⟩
  case syncA c => exact ⟨fun cfg now _ ch => (ch.syncSymbol cfg now .man, none), fun _ _ _ _ _ => rfl, fun _ _ _ ch _ _ _ _ h => by simp at h, fun s => by simp only [reduceCtorEq, if_false, onc]; rfl, fun h => by cases h⟩
  case syncB c => exact ⟨fun cfg now _ ch => (ch.syncSymbol cfg now .dir, none), fun _ _ _ _ _ => rfl, fun _ _ _ ch _ _ _ _ h => by simp at h, fun s => by simp only [reduceCtorEq, if_false, onc]; rfl, fun h => by cases h⟩
  case manPair10 c => exact ⟨fun cfg _ _ => Channel.pairSymbol cfg c true false, fun _ _ _ _ _ => rfl, fun _ _ _ ch _ _ _ _ => fr (pairSymbol_rec ..), fun s => by simp only [reduceCtorEq, if_false, onc]; rfl, fun h => by cases h⟩
  case manPair01 c => exact ⟨fun cfg _ _ => Channel.pairSymbol cfg c false true, fun _ _ _ _ _ => rfl, fun _ _ _ ch _ _ _ _ => fr (pairSymbol_rec ..), fun s => by simp only [reduceCtorEq, if_false, onc]; rfl, fun h => by cases h⟩
  case manPair00 c => exact ⟨fun cfg _ _ => Channel.pairSymbol cfg c false false, fun _ _ _ _ _ => rfl, fun _ _ _ ch _ _ _ _ => fr (pairSymbol_rec ..), fun s => by simp only [reduceCtorEq, if_false, onc]; rfl, fun h => by cases h⟩
  case manPair11 c => exact ⟨fun cfg _ _ => Channel.pairSymbol cfg c true true, fun _ _ _ _ _ => rfl, fun _ _ _ ch _ _ _ _ => fr (pairSymbol_rec ..), fun s => by simp only [reduceCtorEq, if_false, onc]; rfl, fun h => by cases h⟩
  case dirBit0 c => exact ⟨fun cfg _ _ => Channel.directSymbol cfg c false, fun _ _ _ _ _ => rfl, fun _ _ _ ch _ _ _ _ => fr (directSymbol_rec ..), fun s => by simp only [reduceCtorEq, if_false, onc]; rfl, fun h => by cases h⟩
  case dirBit1 c => exact ⟨fun cfg _ _ => Channel.directSymbol cfg c true, fun _ _ _ _ _ => rfl, fun _ _ _ ch _ _ _ _ => fr (directSymbol_rec ..), fun s => by simp only [reduceCtorEq, if_false, onc]; rfl, fun h => by cases h⟩
  case rdreg c idx =>
    refine ⟨fun cfg _ ill ch => (ch, some (.rdata c idx (match idx.toNat with
      | 0 => ch.cntOk | 1 => ch.cntCrc | 2 => ch.cntMan | 3 => ch.cntLen | 4 => ch.stateReg | 5 => 0#32 | 6 => 0#32
      | _ => BitVec.ofNat 16 cfg.maxBody ++ BitVec.ofNat 8 (cfg.nCh - 1) ++ 0#7 ++ BitVec.ofBool ill))), ?_, ?_, ?_, ?_⟩
    · intro h cfg now a b
      have : idx ≠ 7#3 := by rintro rfl; exact h rfl
      funext ch
      revert this; clear h
      have : idx.toNat < 8 := idx.isLt
      intro h
      have h7 : idx.toNat ≠ 7 := fun e => h (BitVec.eq_of_toNat_eq e)
      generalize idx.toNat = n at *
      match n, this with
      | 0, _ | 1, _ | 2, _ | 3, _ | 4, _ | 5, _ | 6, _ => rfl
      | 7, _ => exact absurd rfl h7
      | n + 8, h => omega
    · intro _ _ _ ch _ _ _ _ h; simp at h
    · intro s
      have e : ∀ r, s.onChan c (fun ch => (ch, some r)) = s.emit r := fun r => by
        show (s.setChan c (s.chan c)).emit r = _
        rw [State.setChan_chan_self]
      simp only [exec, execRdreg]
      have e2 : s.onChan c (fun ch => (ch, some (.rdata c idx (match idx.toNat with
      | 0 => ch.cntOk | 1 => ch.cntCrc | 2 => ch.cntMan | 3 => ch.cntLen | 4 => ch.stateReg | 5 => 0#32 | 6 => 0#32
      | _ => BitVec.ofNat 16 s.cfg.maxBody ++ BitVec.ofNat 8 (s.cfg.nCh - 1) ++ 0#7 ++ BitVec.ofBool s.ill)))) = s.emit (.rdata c idx (s.regView c idx)) := by
        rw [← e]; rfl
      rw [e2]
      by_cases h : idx = 7#3
      · subst h; simp; rfl
      · have : Instr.rdreg c idx ≠ .rdreg c 7#3 := by simpa using h
        simp [h]; rfl
    · intro h cfg now a ch
      obtain rfl : idx = 7#3 := by simpa using h
      exact ⟨_, rfl⟩

/-- Two states that agree on a channel, the configuration and TIME agree on it, and on the frames produced, after an instruction of
that channel (R83). -/
theorem exec_own {i : Instr} {c : ChanNo} (h : instrChan i = some c) {s s' : State} (hc : s'.cfg = s.cfg) (hn : s'.now = s.now)
    (hs : s.Has c) (hs' : s'.Has c) (hch : s'.chan c = s.chan c) :
    ∃ t t', exec i s = .next t ∧ exec i s' = .next t' ∧ t'.chan c = t.chan c ∧
      ∃ r r' : List Record, t.out = s.out ++ r ∧ t'.out = s'.out ++ r' ∧ r.filter (Record.isFrameOf c) = r'.filter (Record.isFrameOf c) := by
  obtain ⟨f, f1, f2, f3, f4⟩ := exec_chan h
  have hf : (f s'.cfg s'.now s'.ill (s'.chan c)).1 = (f s.cfg s.now s.ill (s.chan c)).1 ∧
            (f s.cfg s.now s.ill (s.chan c)).2.toList.filter (Record.isFrameOf c) = (f s'.cfg s'.now s'.ill (s'.chan c)).2.toList.filter (Record.isFrameOf c) := by
    rw [hc, hn, hch]
    by_cases hill : i = .rdreg c 7#3
    · have := fun a => f4 hill s.cfg s.now a (s.chan c)
      obtain ⟨v, hv⟩ := this s.ill
      obtain ⟨v', hv'⟩ := this s'.ill
      rw [hv, hv']; exact ⟨rfl, rfl⟩
    · rw [f1 hill s.cfg s.now s'.ill s.ill]; exact ⟨rfl, rfl⟩
  exact ⟨_, _, f3 s, f3 s', ((State.onChan_chan_same (has_lt hs') _).trans (hf.1.trans (State.onChan_chan_same (has_lt hs) _).symm)),
    _, _, State.onChan_out .., State.onChan_out .., hf.2⟩

/-- An instruction that is not of a channel leaves it alone and produces no frame of it. -/
theorem exec_other {i : Instr} {c : ChanNo} (h : instrChan i ≠ some c) (s : State) :
    ∃ t, exec i s = .next t ∧ t.chan c = s.chan c ∧ ∃ r : List Record, t.out = s.out ++ r ∧ r.filter (Record.isFrameOf c) = [] := by
  cases hi : instrChan i with
  | none =>
    cases i <;> simp only [instrChan, reduceCtorEq] at hi
    all_goals first | exact ⟨_, rfl, rfl, [_], rfl, rfl⟩ | exact ⟨_, rfl, rfl, [], (List.append_nil _).symm, rfl⟩
  | some d =>
    obtain ⟨f, f1, f2, f3, f4⟩ := exec_chan hi
    have hd : c ≠ d := by rintro rfl; exact h hi
    refine ⟨_, f3 s, State.onChan_chan_other hd _, _, State.onChan_out .., ?_⟩
    cases hr : (f s.cfg s.now s.ill (s.chan d)).2 with
    | none => rfl
    | some r =>
      cases r with
      | frame x ts n b => have := f2 _ _ _ _ _ _ _ _ hr; subst this; simp [Record.isFrameOf, hd.symm]
      | _ => simp [Record.isFrameOf]

/-- A Manchester pair leaves the counters alone, or it ends a candidate. -/
theorem pairSymbol_counts {cfg : Config} {c : ChanNo} {p1 p2 : Bool} {ch : Channel} :
   ch.SameCounts (ch.pairSymbol cfg c p1 p2).1 ∨ (ch.st ≠ .search ∧ ((∃ k, k ≠ .none ∧ ch.Ended k (ch.pairSymbol cfg c p1 p2).1) ∨ ch.SameCounts (ch.pairSymbol cfg c p1 p2).1)) := by
  cases hd : ch.pairDue p1
  · left; simp [Channel.pairSymbol, hd]; exact ⟨rfl, rfl, rfl, rfl, rfl⟩
  · right
    rw [pairSymbol_due hd]
    have h : ch.st ≠ .search := by simp [Channel.pairDue] at hd; tauto
    refine ⟨h, ?_⟩
    rcases deliver_goes (cfg := cfg) (c := c) (d := pairData cfg.manchPol p1 p2) (ch := ch.pairFlags p1 p2) h with ⟨k, h1, h2, h3⟩ | ⟨h1, h2, h3⟩
    · exact .inl ⟨k, h1, h2⟩
    · exact .inr h2.2.1

/-- A direct line bit leaves the counters alone, or it ends a candidate. -/
theorem directSymbol_counts {cfg : Config} {c : ChanNo} {q : Bool} {ch : Channel} :
   ch.SameCounts (ch.directSymbol cfg c q).1 ∨ (ch.st ≠ .search ∧ ((∃ k, k ≠ .none ∧ ch.Ended k (ch.directSymbol cfg c q).1) ∨ ch.SameCounts (ch.directSymbol cfg c q).1)) := by
  cases hd : ch.directDue
  · left; simp [Channel.directSymbol, hd]; exact ⟨rfl, rfl, rfl, rfl, rfl⟩
  · right
    rw [directSymbol_due hd]
    have h : ch.st ≠ .search := by simp [Channel.directDue] at hd; tauto
    refine ⟨h, ?_⟩
    rcases deliver_goes (cfg := cfg) (c := c) (d := !q) h with ⟨k, h1, h2, h3⟩ | ⟨h1, h2, h3⟩
    · exact .inl ⟨k, h1, h2⟩
    · exact .inr h2.2.1

end Sys2Proof.Machine
end

