-- ==== Sys2Proof/Laws/PerInstr.lean ====
section
/-! SUPPORT. The family RoundTrip: an instruction that is well formed under a legal configuration is what its own encoding decodes
to. One lemma per constructor of Instr. -/

namespace Sys2Proof.Laws.RoundTrip

/-- Decoding the encoding of `i` gives `i` back, under every configuration in which `i` is well formed. -/
def Statement (i : Instr) : Prop :=
  ∀ cfg : Config, cfg.Wf → i.wf cfg = true → decodeCode cfg (encode cfg i) = .ok i

theorem lbit (c : ChanNo) (b : Bool) : Statement (.lbit c b) := fun _ _ h =>
  congrArg Except.ok (decode_lbitWord (of_decide_eq_true h) b)

theorem eos (c : ChanNo) : Statement (.eos c) := fun _ _ h => congrArg Except.ok (decode_eosWord (of_decide_eq_true h))

theorem clrc (c : ChanNo) : Statement (.clrc c) := fun _ _ h => congrArg Except.ok (decode_clrcWord (of_decide_eq_true h))

theorem rdreg (c : ChanNo) (idx : BitVec 3) : Statement (.rdreg c idx) := fun _ _ h =>
  congrArg Except.ok (decode_rdregWord (of_decide_eq_true h) idx)

theorem cinit : Statement .cinit := fun _ _ _ => congrArg Except.ok (decode_cinitWord _)

theorem cbyte (data : Byte) : Statement (.cbyte data) := fun _ _ _ => congrArg Except.ok (decode_cbyteWord _ data)

theorem crd : Statement .crd := fun _ _ _ => congrArg Except.ok (decode_crdWord _)

theorem illegalOp7 (rest : BitVec 28) : Statement (.illegalOp7 rest) := fun _ _ _ =>
  congrArg Except.ok (decode_illegalOp7Word _ rest)

theorem illegalOp8F (rest : BitVec 31) : Statement (.illegalOp8F rest) := fun _ _ _ =>
  congrArg Except.ok (decode_illegalOp8FWord _ rest)

theorem illegalOther (cmd : Word) : Statement (.illegalOther cmd) := fun cfg _ h => by
  simp only [Instr.wf, Bool.and_eq_true, decide_eq_true_eq, Bool.not_eq_true'] at h
  exact congrArg Except.ok (decode_illegalOtherWord h.1 h.2)

theorem syncA (c : ChanNo) : Statement (.syncA c) := fun cfg _ h => by
  have hc : cfg.hasChan c := of_decide_eq_true h
  simp [encode, decodeCode, hc, decodePattern]

theorem syncB (c : ChanNo) : Statement (.syncB c) := fun cfg hw h => by
  have hc : cfg.hasChan c := of_decide_eq_true h
  simp [encode, decodeCode, hc, decodePattern, (Config.bits_patA_ne_patB hw).symm]

theorem manPair10 (c : ChanNo) : Statement (.manPair10 c) := fun cfg _ h => by
  have hc : cfg.hasChan c := of_decide_eq_true h
  simp [encode, decodeCode, hc, decodePair]

theorem manPair01 (c : ChanNo) : Statement (.manPair01 c) := fun cfg _ h => by
  have hc : cfg.hasChan c := of_decide_eq_true h
  simp [encode, decodeCode, hc, decodePair]

theorem manPair00 (c : ChanNo) : Statement (.manPair00 c) := fun cfg _ h => by
  have hc : cfg.hasChan c := of_decide_eq_true h
  simp [encode, decodeCode, hc, decodePair]

theorem manPair11 (c : ChanNo) : Statement (.manPair11 c) := fun cfg _ h => by
  have hc : cfg.hasChan c := of_decide_eq_true h
  simp [encode, decodeCode, hc, decodePair]

theorem dirBit0 (c : ChanNo) : Statement (.dirBit0 c) := fun cfg _ h => by
  have hc : cfg.hasChan c := of_decide_eq_true h
  simp [encode, decodeCode, hc, decodeBit]

theorem dirBit1 (c : ChanNo) : Statement (.dirBit1 c) := fun cfg _ h => by
  have hc : cfg.hasChan c := of_decide_eq_true h
  simp [encode, decodeCode, hc, decodeBit]

end Sys2Proof.Laws.RoundTrip
end

