-- ==== Sys2Proof/Tests/Slice0.lean ====
section
/-! SUPPORT. The model's own tests: ill-formed terms that the checks refuse, words written out from the spec's encodings, one-step tests
whose expected values are the spec's examples, and for each obligation with hypotheses a witness that meets them all. -/

namespace Sys2Proof.Tests

open Sys2Proof Sys2Proof.Machine

/-! ## Well-formedness: one ill-formed term for each check -/

theorem test_wf_lbit : (Instr.lbit 2#8 true).wf Config.initial = false := by decide
theorem test_wf_eos : (Instr.eos 2#8).wf Config.initial = false := by decide
theorem test_wf_clrc : (Instr.clrc 2#8).wf Config.initial = false := by decide
theorem test_wf_rdreg : (Instr.rdreg 2#8 0#3).wf Config.initial = false := by decide
theorem test_wf_syncs : (Instr.syncA 2#8).wf Config.initial = false ∧ (Instr.syncB 2#8).wf Config.initial = false := by decide
theorem test_wf_pairs : (Instr.manPair10 2#8).wf Config.initial = false ∧ (Instr.manPair01 2#8).wf Config.initial = false ∧
    (Instr.manPair00 2#8).wf Config.initial = false ∧ (Instr.manPair11 2#8).wf Config.initial = false := by decide
theorem test_wf_bits : (Instr.dirBit0 2#8).wf Config.initial = false ∧ (Instr.dirBit1 2#8).wf Config.initial = false := by decide
/-- CRD's own word is not an illegal one. -/
theorem test_wf_illegalOther_legal : (Instr.illegalOther 0x60000000#32).wf Config.initial = false := by decide
/-- A word with op 7 stands in its own row. -/
theorem test_wf_illegalOther_op7 : (Instr.illegalOther 0x70000000#32).wf Config.initial = false := by decide

theorem test_cfg_nCh_low : ¬ ({ Config.initial with nCh := 0 } : Config).Wf := by decide
theorem test_cfg_nCh_high : ¬ ({ Config.initial with nCh := 257 } : Config).Wf := by decide
theorem test_cfg_syncW_low : ¬ ({ Config.initial with syncW := 0, syncA := 0#32, syncB := 1#32 } : Config).Wf := by decide
theorem test_cfg_syncW_high : ¬ ({ Config.initial with syncW := 33 } : Config).Wf := by decide
theorem test_cfg_syncA_wide : ¬ ({ Config.initial with syncA := 0x10000#32 } : Config).Wf := by decide
theorem test_cfg_syncB_wide : ¬ ({ Config.initial with syncB := 0x10000#32 } : Config).Wf := by decide
theorem test_cfg_sync_equal : ¬ ({ Config.initial with syncB := 0x3C5A#32 } : Config).Wf := by decide
theorem test_cfg_body_order : ¬ ({ Config.initial with minBody := 256 } : Config).Wf := by decide
theorem test_cfg_body_high : ¬ ({ Config.initial with maxBody := 65536 } : Config).Wf := by decide
theorem test_cfg_tsW_low : ¬ ({ Config.initial with tsW := 0 } : Config).Wf := by decide
theorem test_cfg_tsW_high : ¬ ({ Config.initial with tsW := 65 } : Config).Wf := by decide

/-! ## Decoding: words written out field by field (R90, R92): op, rsv1, ch, rsv2, arg -/

theorem test_decode_lbit : decode 2 (0b0000_0000_00000001_00000000_00000001#32) = .lbit 1#8 true := by decide
theorem test_decode_eos : decode 3 (0b0001_0000_00000010_00000000_00000000#32) = .eos 2#8 := by decide
theorem test_decode_clrc : decode 2 (0b0010_0000_00000001_00000000_00000000#32) = .clrc 1#8 := by decide
theorem test_decode_rdreg : decode 2 (0b0011_0000_00000001_00000000_00000110#32) = .rdreg 1#8 6#3 := by decide
theorem test_decode_cinit : decode 1 (0b0100_0000_00000000_00000000_00000000#32) = .cinit := by decide
theorem test_decode_cbyte : decode 1 (0b0101_0000_00000000_00000000_10110001#32) = .cbyte 0xB1#8 := by decide
theorem test_decode_crd : decode 1 (0b0110_0000_00000000_00000000_00000000#32) = .crd := by decide
theorem test_decode_op7 : decode 256 (0b0111_0000_00000000_00000000_00000101#32) = .illegalOp7 5#28 := by decide
theorem test_decode_op8 : decode 256 (0b1000_0000_00000000_00000000_00000101#32) = .illegalOp8F 5#31 := by decide
theorem test_decode_opF : decode 256 (0b1111_0000_00000000_00000000_00000000#32) = .illegalOp8F 0x70000000#31 := by decide
/-- LBIT with a reserved bit, with a channel that does not exist, and with arg = 2. -/
theorem test_decode_other : decode 2 (0b0000_0001_00000000_00000000_00000001#32) = .illegalOther 0x01000001#32 ∧
    decode 2 (0b0000_0000_00000010_00000000_00000001#32) = .illegalOther 0x00020001#32 ∧
    decode 2 (0b0000_0000_00000000_00000000_00000010#32) = .illegalOther 0x00000002#32 := by decide

/-- The line bits of 0x555555553C5A, the TESTCFG pattern of the opcode table's row SYNC_A, first-arriving bit first. -/
def patternBitsA : List Bool :=
  ["0101", "0101", "0101", "0101", "0101", "0101", "0101", "0101", "0011", "1100", "0101", "1010"].flatMap
    fun digit => digit.toList.map (· == '1')

/-- The line bits of 0x55555555C3A5, the row SYNC_B. -/
def patternBitsB : List Bool :=
  ["0101", "0101", "0101", "0101", "0101", "0101", "0101", "0101", "1100", "0011", "1010", "0101"].flatMap
    fun digit => digit.toList.map (· == '1')

/-- What decoding answers, as an option. -/
def decoded (code : Code) : Option Instr := (decodeCode Config.initial code).toOption

theorem test_decode_syncA : decoded (.pattern 1#8 patternBitsA) = some (.syncA 1#8) := by decide +kernel
theorem test_decode_syncB : decoded (.pattern 1#8 patternBitsB) = some (.syncB 1#8) := by decide +kernel
/-- The patterns of R98 and R99, and a channel that does not exist. -/
theorem test_decode_pairs : decoded (.pair 0#8 true false) = some (.manPair10 0#8) ∧ decoded (.pair 1#8 false true) = some (.manPair01 1#8) ∧
    decoded (.pair 0#8 false false) = some (.manPair00 0#8) ∧ decoded (.pair 0#8 true true) = some (.manPair11 0#8) ∧
    decoded (.pair 2#8 true true) = none := by decide
theorem test_decode_bits : decoded (.bit 0#8 false) = some (.dirBit0 0#8) ∧ decoded (.bit 1#8 true) = some (.dirBit1 1#8) := by decide
/-- The opcode table's words, numbered as the table numbers their bits. -/
theorem test_decodeTableWord : decodeTableWord 32 0x30010007 = some (.rdreg 1#8 7#3) ∧ decodeTableWord 8 0b10 = some (.manPair10 0#8) ∧
    decodeTableWord 1 1 = some (.dirBit1 0#8) ∧ decodeTableWord 8 4 = none := by decide

/-! ## One step -/

/-- The next state, as an option. -/
def nextOf : Host.Outcome State Fault Refusal → Option State
  | .next t => some t
  | _ => none

/-- One step after reset, with a command word next. -/
def stepWord (w : Nat) : Option State := nextOf (step (State.reset.withFetchWord 32 w))

/-- The reset state with channel 0 changed. -/
def chan0 (ch : Channel) : State := State.reset.setChan 0#8 ch

/-- One instruction with channel 0 as given, and what channel 0 is then. -/
def execOn (ch : Channel) (i : Instr) : Option Channel := (nextOf (exec i (chan0 ch))).map (·.chan 0#8)

/-- A channel after reset. -/
def idle : Channel := Channel.reset Config.initial

/-- A frame buffer that begins with some bytes. -/
def buffer (bytes : List Byte) : List Byte := bytes ++ List.replicate (Config.initial.frameMax - bytes.length) 0#8

/-- SEARCH with one bit of a TESTCFG pattern still to come. -/
def beforeA : Channel := { idle with sh := 0x2AAAAAAA9E2D#64, fill := 47 }
def beforeB : Channel := { idle with sh := 0x2AAAAAAAE1D2#64, fill := 47 }

/-- SEARCH with a TESTCFG pattern in the window. -/
def fullA : Channel := { idle with sh := 0x555555553C5A#64, fill := 48 }
def fullB : Channel := { idle with sh := 0x55555555C3A5#64, fill := 48 }

/-- A new Manchester or direct candidate. -/
def newMan : Channel := { fullA with st := .len, lp := .man }
def newDir : Channel := { fullB with st := .len, lp := .dir }

/-- R154's worked example: STATE reads 1 and ts is TIME. -/
theorem test_lbit_match : (nextOf (exec (.lbit 0#8 false) { chan0 beforeA with now := 7#64 })).map
    (fun t => (t.regView 0#8 4#3, (t.chan 0#8).ts)) = some (1#32, 7#64) := by decide +kernel
/-- R160: the first half of a pair. -/
theorem test_lbit_latch : execOn newMan (.lbit 0#8 true) = some { newMan with hv := true, hb := true } := by decide +kernel
/-- R180's example: the last line bit of the frame 03 01 02 03 E4 82. The raw byte of 0x82 is 0xD7, so seven data bits are 1101011. -/
theorem test_lbit_frame : (nextOf (exec (.lbit 0#8 false) (chan0 { newMan with
      st := .body, hv := true, hb := true, acc := 0b1101011#8, nb := 7, lcnt := 1, lenb := 3#16, len := 3#16, rem := 1
      buf := buffer [0x03#8, 0x01#8, 0x02#8, 0x03#8, 0xE4#8], wptr := 5, ts := 9#64 }))).map (fun t => (t.out, t.regView 0#8 0#3)) =
    some ([.frame 0#8 9#64 6#17 [0x03#8, 0x01#8, 0x02#8, 0x03#8, 0xE4#8, 0x82#8]], 1#32) := by decide +kernel
/-- R42: FRAME_MAX = MAX_BODY + 4 entries, and append writes the entry at wptr alone. -/
theorem test_append : idle.buf.length = 259 ∧
    ({ idle with buf := [1#8, 2#8, 3#8], wptr := 1 } : Channel).append 9#8 =
      { idle with buf := [1#8, 9#8, 3#8], wptr := 2 } := by decide +kernel
/-- R221's example: STATE goes from BODY to 0, and CNT_OK stays. -/
theorem test_eos : execOn { newMan with st := .body, lcnt := 1, len := 3#16, rem := 4, buf := buffer [3#8, 1#8], wptr := 2, cntOk := 5#32 } (.eos 0#8) =
    some { idle with len := 3#16, buf := buffer [3#8, 1#8], cntOk := 5#32 } := by decide +kernel
/-- R223's example. -/
theorem test_clrc : execOn { idle with cntCrc := 1#32, last := .crcFail } (.clrc 0#8) = some idle := by decide +kernel
/-- R224's example: 0x00FF0100 after reset with N_CH = 2 and MAX_BODY = 255. -/
theorem test_rdreg_gstatus : (stepWord 0x30000007).map (·.out) = some [.rdata 0#8 7#3 0x00FF0100#32] := by decide
/-- R47: LAST = CRC_FAIL, LP = DIR, ST = BODY. -/
theorem test_rdreg_state : (nextOf (exec (.rdreg 0#8 4#3) (chan0 { newDir with st := .body, last := .crcFail }))).map (·.out) =
    some [.rdata 0#8 4#3 0x26#32] := by decide
theorem test_cinit : (nextOf (exec .cinit { State.reset with crcS := 0x2F8D#16 })).map (·.crcS) = some 0xFFFF#16 := by decide
/-- R131's example. -/
theorem test_cbyte : (stepWord 0x50000031).map (·.crcS) = some 0x2F8D#16 := by decide
/-- R132: right after reset the checksum is that of the empty sequence; after 123456789 it is 0x906E. -/
theorem test_crd_empty : (stepWord 0x60000000).map (·.out) = some [.crcv 0#16] := by decide
theorem test_crd : (nextOf (exec .crd { State.reset with crcS := 0x6F91#16 })).map (·.out) = some [.crcv 0x906E#16] := by decide
theorem test_illegalOp7 : (stepWord 0x70000000).map (fun t => (t.ill, t.out, t.chans)) = some (true, [], State.reset.chans) := by decide +kernel
theorem test_illegalOp8F : (stepWord 0xF0000000).map (fun t => (t.ill, t.out, t.chans)) = some (true, [], State.reset.chans) := by decide +kernel
theorem test_illegalOther : (stepWord 0x00000002).map (fun t => (t.ill, t.out, t.chans)) = some (true, [], State.reset.chans) := by decide +kernel
theorem test_syncA : (execOn fullA (.syncA 0#8)).map (fun ch => (ch.st, ch.lp)) = some (.len, .man) := by decide
theorem test_syncB : (execOn fullB (.syncB 0#8)).map (fun ch => (ch.st, ch.lp)) = some (.len, .dir) := by decide
/-- A window that holds the other pattern is no match. -/
theorem test_syncA_other : execOn fullB (.syncA 0#8) = some fullB := by decide +kernel
theorem test_syncB_other : execOn fullA (.syncB 0#8) = some fullA := by decide +kernel
/-- R98, MANCH_POL = FIRST: data 1, data 0, and the two collisions. -/
theorem test_manPair10 : (execOn { newMan with hv := true, hb := true, acc := 1#8, nb := 1 } (.manPair10 0#8)).map
    (fun ch => (ch.acc, ch.nb, ch.hv, ch.coll)) = some (3#8, 2, false, false) := by decide
theorem test_manPair01 : (execOn { newMan with hv := true, hb := false, acc := 1#8, nb := 1 } (.manPair01 0#8)).map
    (fun ch => (ch.acc, ch.nb, ch.hv, ch.coll)) = some (2#8, 2, false, false) := by decide
theorem test_manPair00 : (execOn { newMan with hv := true, hb := false } (.manPair00 0#8)).map
    (fun ch => (ch.nb, ch.hv, ch.coll, ch.st)) = some (1, false, true, .len) := by decide
/-- A collision in the length field ends the candidate as MANCH_ERR when the field completes (R184). -/
theorem test_manPair11 : (execOn { newMan with hv := true, hb := true, nb := 7 } (.manPair11 0#8)).map
    (fun ch => (ch.st, ch.last, ch.cntMan)) = some (.search, .manchErr, 1#32) := by decide
/-- R99: line bit 0 carries data 1. -/
theorem test_dirBit0 : (execOn { newDir with acc := 1#8, nb := 1 } (.dirBit0 0#8)).map (fun ch => (ch.acc, ch.nb)) = some (3#8, 2) := by decide
/-- R165's example, last bit: line bits 01010111 are frame byte 0x02, here the high byte of a length field of 512 or more, which is a
LEN_ERR with MAX_BODY = 255 when its second byte completes (R184). -/
theorem test_dirBit1 : (execOn { newDir with acc := 0b1010100#8, nb := 7 } (.dirBit1 0#8)).map (fun ch => (ch.lenb, ch.lcnt, ch.st)) =
    some (2#16, 1, .len) := by decide
theorem test_dirBit1_lenErr : (execOn { newDir with acc := 0b1010100#8, nb := 7, lcnt := 1, lenb := 2#16, buf := buffer [2#8], wptr := 1 }
    (.dirBit1 0#8)).map (fun ch => (ch.st, ch.last, ch.len)) = some (.search, .lenErr, 0x0202#16) := by decide
/-- The line symbols' rows run in a step: the LBIT that completes the symbol. -/
theorem test_step_pair : (nextOf (step (State.reset.withFetchWord 8 0b10))).map (fun t => ((t.chan 0#8).acc, (t.chan 0#8).nb)) =
    some (1#8, 1) := by decide +kernel
theorem test_step_bit : (nextOf (step (State.reset.withFetchWord 1 0))).map (fun t => ((t.chan 0#8).acc, (t.chan 0#8).nb)) =
    some (1#8, 1) := by decide +kernel

/-! ## The assembler (R105, R106) -/

/-- R95's words from their text, an operand out of range, and a line with a comment. -/
theorem test_assembleText : assembleText Config.initial "rdreg 1, 7\n cbyte 0x31 ; one byte\n".toList = some [0x30010007#32, 0x50000031#32] ∧
    assembleText Config.initial "eos 2".toList = none ∧
    assembleText Config.initial "lbits 0, \"01_1\"".toList = some [0x00000000#32, 0x00000001#32, 0x00000001#32] := by decide +kernel

/-! ## Witnesses of the obligations' hypotheses -/

/-- A state of two channels with inputs. -/
def fed (input : List Event) : State := { State.reset with input := input }

theorem witness_EncodingExamplesDecode : decode 4 0x00030001#32 = .lbit 3#8 true ∧ decode 3 0x00030001#32 = .illegalOther 0x00030001#32 ∧
    decode 1 0x00000001#32 = .lbit 0#8 true ∧ decode 3 0x10020000#32 = .eos 2#8 ∧ decode 2 0x20010000#32 = .clrc 1#8 := by decide
theorem witness_IllegalWordsAreTheListedOnes : isIllegal (decode 2 0x30000008#32) = true ∧ isIllegal (decode 2 0x30000007#32) = false ∧
    isIllegal (decode 2 0x10000100#32) = true ∧ isIllegal (decode 2 0x40010000#32) = true := by decide
theorem witness_DecodeOfEncodeIsTheInstruction : Config.initial.Wf ∧
    [Instr.lbit 1#8 true, .eos 1#8, .clrc 0#8, .rdreg 1#8 7#3, .cinit, .cbyte 0xFF#8, .crd, .illegalOp7 0#28, .illegalOp8F 0#31,
      .illegalOther 0x00000002#32, .syncA 1#8, .syncB 1#8, .manPair10 1#8, .manPair01 0#8, .manPair00 0#8, .manPair11 0#8, .dirBit0 0#8,
      .dirBit1 1#8].all (·.wf Config.initial) = true := by decide
theorem witness_IllegalConfigurationsAreRefused :
    (1 ≤ Config.initial.syncW ∧ Config.initial.syncW ≤ 32 ∧ Config.initial.syncA.toNat < 2 ^ Config.initial.syncW ∧
      Config.initial.syncB.toNat < 2 ^ Config.initial.syncW) ∧
    ({ State.reset with cfg := { Config.initial with syncB := 0x3C5A#32 } } : State).cfg.syncA = 0x3C5A#32 ∧
    ({ Config.initial with minBody := 256 } : Config).maxBody < 256 ∧
    ({ Config.initial with syncB := 0x3C5A#32 } : Config).patA = ({ Config.initial with syncB := 0x3C5A#32 } : Config).patB := by decide
theorem witness_ResetEventGivesResetValues : (fed [.rst]).cfg.Wf ∧ (fed [.rst]).input = .rst :: [] ∧ Config.initial.hasChan 1#8 := by decide
theorem witness_ResetStateHasResetValues : Config.initial.Wf ∧ Config.initial.hasChan 0#8 ∧ Config.initial.hasChan 1#8 := by decide
theorem witness_StepRunsTheDecodedCommand : (fed [.cmd 0x60000000#32 3#64]).cfg.Wf ∧ (fed [.cmd 0x60000000#32 3#64]).started = true ∧
    (fed [.cmd 0x60000000#32 3#64]).input = .cmd 0x60000000#32 3#64 :: [] := by decide
theorem witness_CommandBeforeResetIsRefused :
    let s : State := { fed [.cmd 0x60000000#32 3#64] with started := false }
    s.cfg.Wf ∧ s.started = false ∧ s.input = .cmd 0x60000000#32 3#64 :: [] := by decide
theorem witness_WaitingChangesNothing : State.reset.cfg.Wf ∧ State.reset.input = [] ∧ (fed [.hold]).input = .hold :: [] := by decide
theorem witness_TheBlockNeverStops : State.reset.cfg.Wf ∧ State.reset.started = true := by decide
theorem witness_CbyteRegisterTrace : State.reset.crcS = 0xFFFF#16 := by decide
theorem witness_ResidueFormAgrees : 2 ≤ [0x00#8, 0x00#8].length ∧ valid [0x00#8, 0x00#8] = true ∧
    valid [0x00#8, 0x01#8] = false := by decide +kernel
theorem witness_StandaloneUnitComputesTheChecksum :
    let cmds := [(0x40000000#32, 7#64), (0x50000031#32, 3#64), (0x60000000#32, 9#64)]
    let s := fed (cmdEvents cmds ++ [.hold])
    s.cfg.Wf ∧ s.started = true ∧
    cmds.map Prod.fst = 0x40000000#32 :: [0x31#8].map (fun d => 0x50000000#32 ||| d.setWidth 32) ++ [0x60000000#32] ∧
    s.input = cmdEvents cmds ++ [.hold] := by decide
/-- Each clause at its boundary: the last bit of pattern A, of pattern B, of neither, and a window one bit short. -/
theorem witness_LbitInSearchShiftsAndTests :
    (chan0 beforeA).cfg.Wf ∧ (chan0 beforeA).Has 0#8 ∧ ((chan0 beforeA).chan 0#8).st = .search ∧
    (2 * beforeA.sh.toNat + 0) % 2 ^ 48 = patternValue Config.initial .man ∧
    (2 * beforeB.sh.toNat + 1) % 2 ^ 48 = patternValue Config.initial .dir ∧
    (2 * beforeA.sh.toNat + 1) % 2 ^ 48 ≠ patternValue Config.initial .man ∧
    min (beforeA.fill + 1) 48 = 48 ∧ min (({ beforeA with fill := 46 } : Channel).fill + 1) 48 ≠ 48 := by decide
theorem witness_SyncSymbolsStartCandidates :
    (chan0 fullA).cfg.Wf ∧ (chan0 fullA).Has 0#8 ∧ ((chan0 fullA).chan 0#8).st = .search ∧ ((chan0 fullA).chan 0#8).fill = 32 + 16 ∧
    ((chan0 fullA).chan 0#8).sh.toNat = patternValue Config.initial .man ∧
    ((chan0 fullB).chan 0#8).sh.toNat = patternValue Config.initial .dir := by decide
theorem witness_NoMatchBeforeTheWindowIsFull : Config.initial.Wf ∧ idle.st = .search ∧
    idle.fill + (List.replicate 47 (true, 0#64)).length < 32 + Config.initial.syncW := by decide
theorem witness_HeaderStartsACandidate :
    let s := fed (lbitEvents 0#8 (patternBitsA.map (·, 5#64)) ++ [.hold])
    s.cfg.Wf ∧ s.started = true ∧ s.Has 0#8 ∧
    s.input = lbitEvents 0#8 ((patternBitsA.dropLast.map (·, 5#64)) ++ [(false, 5#64)]) ++ [.hold] ∧
    ((patternBitsA.dropLast.map (·, 5#64)) ++ [(false, 5#64)]).map Prod.fst = header Config.initial .man ∧
    ((patternBitsB.dropLast.map (·, 5#64)) ++ [(true, 5#64)]).map Prod.fst = header Config.initial .dir ∧
    (s.chan 0#8).st = .search ∧ (s.chan 0#8).fill = 0 := by decide +kernel
/-- Each clause: a completed pattern A, B, or neither, a pair whose first half is held, and a direct bit. -/
theorem witness_LbitCompletesLineSymbols :
    (chan0 beforeA).Has 0#8 ∧ ((chan0 beforeA).chan 0#8).st = .search ∧
    (beforeA.searchShift Config.initial false).windowIs Config.initial Config.initial.patA = true ∧
    (beforeB.searchShift Config.initial true).windowIs Config.initial Config.initial.patA = false ∧
    (beforeB.searchShift Config.initial true).windowIs Config.initial Config.initial.patB = true ∧
    (beforeB.searchShift Config.initial false).windowIs Config.initial Config.initial.patB = false ∧
    (({ newMan with hv := true, hb := true } : Channel).pairDue true = true) ∧ newDir.directDue = true := by decide +kernel
theorem witness_SymbolsNotDueChangeNothing :
    (chan0 fullA).cfg.Wf ∧ ((chan0 fullA).chan 0#8).sh.toNat ≠ patternValue Config.initial .dir ∧
    ((chan0 fullB).chan 0#8).sh.toNat ≠ patternValue Config.initial .man ∧ (idle.sh.toNat ≠ patternValue Config.initial .man) ∧
    ((chan0 newMan).chan 0#8).st ≠ .search ∧ ((chan0 beforeA).chan 0#8).fill ≠ 32 + Config.initial.syncW ∧
    ((chan0 newMan).chan 0#8).pairDue true = false ∧ ((chan0 newMan).chan 0#8).directDue = false := by decide
theorem witness_FirstHalfIsLatched : (chan0 newMan).Has 0#8 ∧ ((chan0 newMan).chan 0#8).st ≠ .search ∧
    ((chan0 newMan).chan 0#8).lp = .man ∧ ((chan0 newMan).chan 0#8).hv = false := by decide
/-- Both values of the held half, at the greatest nb. -/
theorem witness_ManchesterPairsDeliverTheirDataBit : [true, false].all (fun half =>
    let s := chan0 { newMan with hv := true, hb := half, nb := 6 }
    decide (s.Has 0#8 ∧ (s.chan 0#8).st ≠ .search ∧ (s.chan 0#8).lp = .man ∧ (s.chan 0#8).hv = true ∧ (s.chan 0#8).nb < 7 ∧
      (s.chan 0#8).hb = half)) = true := by decide
theorem witness_DirectBitsDeliverTheirInverse :
    let s := chan0 { newDir with nb := 6 }
    s.Has 0#8 ∧ (s.chan 0#8).st ≠ .search ∧ (s.chan 0#8).lp = .dir ∧ (s.chan 0#8).nb < 7 := by decide
theorem witness_EighthDataBitCompletesAFrameByte :
    let s := chan0 { newMan with hv := true, nb := 7 }
    let u := chan0 { newDir with nb := 7 }
    s.Has 0#8 ∧ (s.chan 0#8).st ≠ .search ∧ (s.chan 0#8).nb = 7 ∧ (s.chan 0#8).lp = .man ∧ (s.chan 0#8).hv = true ∧
    u.Has 0#8 ∧ (u.chan 0#8).st ≠ .search ∧ (u.chan 0#8).nb = 7 ∧ (u.chan 0#8).lp = .dir := by decide
theorem witness_DirectByteIsLineByteXor55 : [false, true, false, true, false, true, true, true].length = 8 := by decide
theorem witness_LengthFieldTakesSixteenLineBits :
    (List.replicate 15 (true, 0#64)).length < 16 ∧ (List.replicate 16 (true, 0#64)).length = 16 := by decide
/-- A direct candidate with one length byte. -/
def dirSecond (y : Byte) : Channel := { newDir with lcnt := 1, lenb := y.setWidth 16, buf := buffer [y], wptr := 1 }
theorem inv_newMan : newMan.Inv Config.initial := ⟨by decide +kernel, by decide +kernel, by decide +kernel, by decide +kernel⟩
theorem inv_newDir : newDir.Inv Config.initial := ⟨by decide +kernel, by decide +kernel, by decide +kernel, by decide +kernel⟩
/-- Each clause: the first of two bytes, a collision, a length just out of range, and the greatest accepted one. -/
theorem witness_LengthByteOutcomes : newDir.Inv Config.initial ∧ newDir.st = .len ∧ newDir.lcnt = 0 ∧
    ({ newMan with coll := true } : Channel).Inv Config.initial ∧ newMan.Inv Config.initial ∧
    (dirSecond 1#8).Inv Config.initial ∧ (dirSecond 1#8).lenb.toNat * 256 + (0#8).toNat = Config.initial.maxBody + 1 ∧
    (dirSecond 0#8).Inv Config.initial ∧ (dirSecond 0#8).lenb.toNat * 256 + (0xFF#8).toNat = Config.initial.maxBody :=
  ⟨inv_newDir, rfl, rfl, ⟨by decide +kernel, by decide +kernel, by decide +kernel, by decide +kernel⟩, inv_newMan, ⟨by decide +kernel, by decide +kernel, by decide +kernel, by decide +kernel⟩,
    by decide +kernel, ⟨by decide +kernel, by decide +kernel, by decide +kernel, by decide +kernel⟩, by decide +kernel⟩
/-- A Manchester candidate in BODY with one body byte, at its first and at its last byte; its checksum byte to come is `lastOk`. -/
def bodyFirst : Channel := { newMan with st := .body, lcnt := 1, lenb := 1#16, len := 1#16, rem := 3, buf := buffer [1#8], wptr := 1 }
def bodyLast : Channel := { newMan with
  st := .body, lcnt := 1, lenb := 1#16, len := 1#16, rem := 1, buf := buffer [1#8, 0#8, (checksum [1#8, 0#8]).extractLsb' 0 8], wptr := 3 }
def lastOk : Byte := (checksum [1#8, 0#8]).extractLsb' 8 8
theorem inv_bodyFirst : bodyFirst.Inv Config.initial := ⟨by decide +kernel, by decide +kernel, by decide +kernel, by decide +kernel⟩
theorem inv_bodyLast : bodyLast.Inv Config.initial := ⟨by decide +kernel, by decide +kernel, by decide +kernel, by decide +kernel⟩
/-- Each clause: a byte before the last, and the last of a collided, a valid and an invalid candidate. -/
theorem witness_BodyByteOutcomes : bodyFirst.Inv Config.initial ∧ bodyFirst.rem = 3 ∧ bodyLast.Inv Config.initial ∧ bodyLast.rem = 1 ∧
    ({ bodyLast with coll := true } : Channel).Inv Config.initial ∧ valid (bodyLast.frame ++ [lastOk]) = true ∧
    valid (bodyLast.frame ++ [lastOk + 1#8]) = false :=
  ⟨inv_bodyFirst, rfl, inv_bodyLast, rfl, ⟨by decide +kernel, by decide +kernel, by decide +kernel, by decide +kernel⟩,
    by decide +kernel, by decide +kernel⟩
theorem witness_OutcomeCountsAndRestarts : CandOutcome.ok ≠ .none ∧ CandOutcome.lenErr ≠ .none := by decide
theorem witness_CandidateRunsToItsOutcome : (chan0 bodyLast).Has 0#8 ∧ ((chan0 bodyLast).chan 0#8).st ≠ .search := by decide
theorem witness_CollidedCandidateEndsAsManchErr :
    let s := chan0 { bodyLast with coll := true }
    s.Has 0#8 ∧ (s.chan 0#8).st ≠ .search ∧ (s.chan 0#8).coll = true := by decide
/-- Two different channels that are alike because they have collided, and two that are alike in all but a stale buffer entry. -/
theorem witness_PlaceholderAndStaleBytesAreUnobservable :
    ({ newMan with coll := true, acc := 1#8, nb := 1 } : Channel).Alike { newMan with coll := true, acc := 0#8, nb := 1 } ∧
    ({ newMan with buf := buffer [1#8] } : Channel).Alike { newMan with buf := buffer [2#8] } ∧ newMan.st ≠ .search := by decide +kernel
/-- The TIMEs 0, 1, 2, ... of a run of line bits. -/
def timed (bits : List Bool) : List (Bool × Time) := bits.zipIdx.map fun p => (p.1, BitVec.ofNat 64 p.2)
/-- The shortest bodies, in both protocols. -/
theorem witness_FrameOnTheAirIsEmitted : [LineProtocol.man, .dir].all (fun lp =>
    let bits := timed (airBits Config.initial lp [])
    let s := fed (lbitEvents 0#8 bits ++ [.hold])
    decide (s.cfg.Wf ∧ s.started = true ∧ s.Has 0#8 ∧ (s.chan 0#8).st = .search ∧ (s.chan 0#8).fill = 0 ∧
      (s.chan 0#8).buf.length = s.cfg.frameMax ∧ s.cfg.minBody ≤ ([] : List Byte).length ∧ ([] : List Byte).length ≤ s.cfg.maxBody ∧
      bits.map Prod.fst = airBits s.cfg lp [] ∧ (bits[31 + s.cfg.syncW]?).map Prod.snd = some 47#64 ∧
      s.input = lbitEvents 0#8 bits ++ [.hold])) = true := by decide +kernel
/-- A direct frame without a body at its last LBIT. -/
def dirLast : Channel := { newDir with
  st := .body, lcnt := 2, rem := 1, nb := 7, acc := ((checksum [0#8, 0#8]).extractLsb' 8 8 ^^^ 0xAA#8) >>> 1, ts := 4#64
  buf := buffer [0#8, 0#8, (checksum [0#8, 0#8]).extractLsb' 0 8], wptr := 3 }
def lastDir : State := { chan0 dirLast with
  input := [.cmd (cmdWord 0#4 0#8 (if ((checksum [0#8, 0#8]).extractLsb' 8 8 ^^^ 0xAA#8).getLsbD 0 then 0#8 else 1#8)) 9#64] }
theorem inv_reset : State.reset.Inv :=
  ⟨by decide, by decide, fun ch h => by rw [List.eq_of_mem_replicate h]; exact reset_inv _⟩
theorem inv_lastDir : lastDir.Inv :=
  inv_set inv_reset 0#8 (ch := dirLast) ⟨by decide +kernel, by decide +kernel, by decide +kernel, by decide +kernel⟩
/-- The state after a step. -/
def after (s : State) : State := (nextOf (step s)).getD s
theorem witness_EmittedFramesAreFramesOfABody : lastDir.Inv ∧ nextOf (step lastDir) = some (after lastDir) ∧
    (after lastDir).out = lastDir.out ++ [.frame 0#8 4#64 4#17 (frameOf Config.initial .dir [])] :=
  ⟨inv_lastDir, by decide +kernel, by decide +kernel⟩
theorem witness_FrameLengthOnTheAir : (assemble Config.initial (.mframe 0 [1, 2, 3])).isSome = true ∧
    (assemble Config.initial (.dframe 0 [1, 2, 3])).isSome = true := by decide +kernel
theorem witness_AssemblerSpellsLegalWords : assemble Config.initial (.rdreg 1 7) = some [0x30010007#32] ∧
    ∀ w, Asm.rdreg 1 7 ≠ .word w := ⟨by decide, fun _ h => by cases h⟩
theorem witness_channel_commands : (chan0 bodyLast).cfg.Wf ∧ (chan0 bodyLast).Has 0#8 ∧ (chan0 bodyLast).Has 1#8 := by decide
theorem witness_GstatusReadClearsIll : isIllegal (decode State.reset.cfg.nCh 0x70000000#32) = true := by decide
/-- Two states that agree on channel 0 and TIME and differ elsewhere. -/
theorem witness_ChannelsAreIndependent :
    let s := chan0 bodyLast
    let s' := { (chan0 bodyLast).setChan 1#8 newDir with crcS := 0#16, ill := true }
    instrChan (.lbit 0#8 true) = some 0#8 ∧ s.Has 0#8 ∧ s'.Has 0#8 ∧ s'.cfg = s.cfg ∧ s'.now = s.now ∧ s'.chan 0#8 = s.chan 0#8 ∧
    s' ≠ s := by decide +kernel
theorem witness_ChannelSeesOnlyItsOwnCommands :
    let s := fed [.cmd 0x00000001#32 0#64, .cmd 0x00010001#32 0#64, .hold, .cmd 0x60000000#32 0#64, .rst]
    s.cfg.Wf ∧ s.started = true ∧ s.Has 0#8 ∧ (s.input.filter (eventConcerns 2 0#8)).length = 2 := by decide
theorem witness_FramerAndCrcUnitAreSeparate : nextOf (exec .crd State.reset) = some (State.reset.emit (.crcv 0#16)) ∧
    instrChan (.eos 0#8) = some 0#8 := by decide +kernel
/-- ILL goes to 1 by an illegal word, and to 0 by a GSTATUS read and by reset. -/
theorem witness_IllChangesOnlyAsStated :
    (after (fed [.cmd 0x70000000#32 0#64])).ill = true ∧
    (after { fed [.cmd 0x30000007#32 0#64] with ill := true }).ill = false ∧ (after { fed [.rst] with ill := true }).ill = false := by
  decide
/-- A match of B changes the protocol of a channel whose last match was A, and reset changes it back. -/
theorem witness_ProtocolChangesOnlyAtAMatch :
    ((after { chan0 beforeB with input := [.cmd 0x00000001#32 0#64] }).chan 0#8).lp = .dir ∧ ((chan0 beforeB).chan 0#8).lp = .man ∧
    ((after { chan0 newDir with input := [.rst] }).chan 0#8).lp = .man := by decide +kernel
theorem witness_EveryStepKeepsTheInvariant : lastDir.Inv ∧ nextOf (step lastDir) = some (after lastDir) ∧ State.reset.Inv :=
  ⟨inv_lastDir, by decide +kernel, inv_reset⟩

end Sys2Proof.Tests
end

section
/-! The proof of what R12 says of a configuration that breaks its constraints (00_scope.md). -/

namespace Sys2Proof

/-- R13: of sync words that fit in SYNC_W bits, each has a search pattern of its own. -/
theorem Config.pattern_inj {cfg : Config} (hw : cfg.syncW ≤ 32) {a b : BitVec 32} (ha : a.toNat < 2 ^ cfg.syncW)
    (hb : b.toNat < 2 ^ cfg.syncW) : cfg.pattern a = cfg.pattern b ↔ a = b := by
  rw [← BitVec.toNat_inj, Config.pattern_toNat hw ha, Config.pattern_toNat hw hb, Nat.add_left_cancel_iff, BitVec.toNat_inj]

/-- R12: a configuration that breaks one of the two constraints is not legal. -/
theorem Config.not_wf_of_breaks_constraint {cfg : Config} (h : cfg.syncA = cfg.syncB ∨ cfg.maxBody < cfg.minBody) : ¬ cfg.Wf := by
  rintro ⟨-, -, -, hsync, ⟨hbody, -⟩, -⟩
  rcases h with h | h
  · exact hsync h
  · exact Nat.not_le_of_lt h hbody

namespace Machine

/-- R12, R153: the test of pattern A comes first, so equal patterns never select direct. -/
theorem matchTest_of_patA_eq_patB {cfg : Config} (h : cfg.patA = cfg.patB) (now : Time) (ch : Channel) :
    ch.matchTest cfg now = ch ∨ ch.matchTest cfg now = ch.syncMatch cfg now .man := by
  rcases matchTest_cases cfg now ch with ⟨-, hman⟩ | ⟨hA, hB, -⟩ | ⟨-, -, hnone⟩
  · exact .inr hman
  · rw [h, hB] at hA
    cases hA
  · exact .inl hnone

/-- Settles O7: patterns are injective in the sync word, a step checks the configuration first, and the match test tries
pattern A first. -/
theorem illegalConfigurationsAreRefused : Obligations.IllegalConfigurationsAreRefused :=
  ⟨fun _ _ hw hA hB => Config.pattern_inj hw hA hB,
    fun _ h => step_illegalConfig (Config.not_wf_of_breaks_constraint h),
    fun _ now ch h => matchTest_of_patA_eq_patB h now ch⟩

end Machine
end Sys2Proof
end

section
/-! The proofs of the family `10_state.md`: what an instruction does to the state, said once, then the invariants of R52, the frame and
independence of the instructions (R38), the causes of every change of ILL, of a protocol and of a counter, and the values after reset. -/

namespace Sys2Proof.Machine

/-! ## What an instruction does to the channels -/

/-- What an instruction does to the channel it concerns. An instruction of the global state concerns none, and RDREG only reads. -/
def chanEffect (cfg : Config) (now : Time) : Instr → Channel → Channel
  | .lbit c b, ch => (ch.lineBit cfg c now b).1
  | .eos _, ch => ch.restart
  | .clrc _, ch => ch.clearCounts
  | .syncA _, ch => ch.syncSymbol cfg now .man
  | .syncB _, ch => ch.syncSymbol cfg now .dir
  | .manPair10 c, ch => (ch.pairSymbol cfg c true false).1
  | .manPair01 c, ch => (ch.pairSymbol cfg c false true).1
  | .manPair00 c, ch => (ch.pairSymbol cfg c false false).1
  | .manPair11 c, ch => (ch.pairSymbol cfg c true true).1
  | .dirBit0 c, ch => (ch.directSymbol cfg c false).1
  | .dirBit1 c, ch => (ch.directSymbol cfg c true).1
  | .rdreg _ _, ch | .cinit, ch | .cbyte _, ch | .crd, ch => ch
  | .illegalOp7 _, ch | .illegalOp8F _, ch | .illegalOther _, ch => ch

/-- RDREG answers the state with its record, and ILL cleared by a GSTATUS read alone (R224, R225). -/
theorem exec_rdreg (c : ChanNo) (idx : BitVec 3) (s : State) :
    exec (.rdreg c idx) s = .next { s with
      out := s.out ++ [.rdata c idx (s.regView c idx)]
      ill := if idx = 7#3 then false else s.ill } := by
  by_cases h : idx = 7#3
  · subst h; rfl
  · simp [exec, execRdreg, State.emit, h]

/-- R38: an instruction writes the channel it concerns with its effect there, and no other. -/
theorem exec_chans {i : Instr} {s t : State} (h : exec i s = .next t) :
    (instrChan i = none ∧ t.chans = s.chans) ∨
    ∃ c, instrChan i = some c ∧ t.chans = (s.setChan c (chanEffect s.cfg s.now i (s.chan c))).chans := by
  cases i with
  | cinit | cbyte _ | crd | illegalOp7 _ | illegalOp8F _ | illegalOther _ => cases h; exact .inl ⟨rfl, rfl⟩
  | eos c | clrc c | syncA c | syncB c => cases h; exact .inr ⟨c, rfl, rfl⟩
  | lbit c _ | manPair10 c | manPair01 c | manPair00 c | manPair11 c | dirBit0 c | dirBit1 c =>
    cases h; exact .inr ⟨c, rfl, State.onChan_chans ..⟩
  | rdreg c idx =>
    rw [exec_rdreg] at h
    cases h
    exact .inr ⟨c, rfl, (congrArg State.chans (State.setChan_chan_self s c)).symm⟩

/-- No instruction changes the configuration (R10). -/
theorem exec_cfg {i : Instr} {s t : State} (h : exec i s = .next t) : t.cfg = s.cfg := by
  obtain ⟨u, hu, hcfg, -⟩ := exec_frame i s
  rw [h] at hu
  cases hu
  exact hcfg

/-- A channel reads the same after an instruction, or the instruction concerns it and it reads the instruction's effect. -/
theorem exec_chan_cases {i : Instr} {s t : State} (h : exec i s = .next t) (c : ChanNo) :
    t.chan c = s.chan c ∨ (instrChan i = some c ∧ t.chan c = chanEffect s.cfg s.now i (s.chan c)) := by
  rcases exec_chans h with ⟨-, hchans⟩ | ⟨d, hd, hchans⟩
  · exact .inl (State.chan_congr hchans (exec_cfg h) c)
  · have hread : t.chan c = (s.setChan d (chanEffect s.cfg s.now i (s.chan d))).chan c :=
      State.chan_congr hchans (exec_cfg (s := s) h) c
    by_cases hcd : c = d
    · subst hcd
      by_cases hlt : c.toNat < s.chans.length
      · exact .inr ⟨hd, hread.trans (State.setChan_chan_same hlt _)⟩
      · exact .inl (hread.trans (by simp [State.chan, List.getD_eq_getElem?_getD, hlt]))
    · exact .inl (hread.trans (State.setChan_chan_other hcd _))

/-! ## The invariants of R52 -/

/-- The machine's invariant is about the configuration and the channels alone. -/
theorem inv_of_same_chans {s t : State} (hcfg : t.cfg = s.cfg) (hchans : t.chans = s.chans) (h : s.Inv) : t.Inv := by
  simpa only [State.Inv, hcfg, hchans] using h

/-- The effect of an instruction on its channel keeps the channel's invariant. -/
theorem chanEffect_inv {cfg : Config} (hw : cfg.Wf) (now : Time) (i : Instr) {ch : Channel} (h : ch.Inv cfg) :
    (chanEffect cfg now i ch).Inv cfg := by
  cases i with
  | lbit c b => exact lineBit_inv hw c now b h
  | eos _ => exact restart_inv h
  | clrc _ => exact clearCounts_inv h
  | syncA _ => exact syncSymbol_inv now .man h
  | syncB _ => exact syncSymbol_inv now .dir h
  | manPair10 c | manPair01 c | manPair00 c | manPair11 c => exact pairSymbol_inv c _ _ h
  | dirBit0 c | dirBit1 c => exact directSymbol_inv c _ h
  | rdreg _ _ | cinit | cbyte _ | crd | illegalOp7 _ | illegalOp8F _ | illegalOther _ => exact h

/-- Every instruction keeps the machine's invariant. -/
theorem exec_inv {i : Instr} {s t : State} (h : s.Inv) (ht : exec i s = .next t) : t.Inv := by
  rcases exec_chans ht with ⟨-, hchans⟩ | ⟨c, -, hchans⟩
  · exact inv_of_same_chans (exec_cfg ht) hchans h
  · have hset := inv_set h c (chanEffect_inv h.1 s.now i (chan_inv h c))
    exact inv_of_same_chans (s := s.setChan c _) (exec_cfg (s := s) ht) hchans hset

/-- The reset event gives the channels their states after reset, which meet the invariant whatever was there before. -/
theorem rst_inv {s : State} (hw : s.cfg.Wf) : s.rst.Inv := by
  refine ⟨hw, List.length_replicate, fun ch hch => ?_⟩
  rw [List.eq_of_mem_replicate hch]
  exact reset_inv _

/-- Settles O60: a step waits, stalls, resets or runs an instruction, and each keeps the invariant. -/
theorem everyStepKeepsTheInvariant : Obligations.EveryStepKeepsTheInvariant := by
  intro s t h hstep
  obtain ⟨hw, ⟨-, rfl⟩ | ⟨rest, -, rfl⟩ | ⟨rest, -, rfl⟩ | ⟨w, now, rest, -, -, hexec⟩⟩ := step_next hstep
  · exact h
  · exact h
  · exact rst_inv hw
  · exact exec_inv (s := { s with input := rest, now := now }) h hexec

/-- Settles O59: the channels of a reset state are channels after reset. -/
theorem invariantHoldsAtReset : Obligations.InvariantHoldsAtReset := by
  have hreset : ∀ cfg : Config, cfg.Wf → (State.resetOf cfg).Inv := fun cfg hw => rst_inv (s := State.resetOf cfg) hw
  exact ⟨hreset, hreset Config.initial (by decide)⟩

/-! ## What an instruction does to the global state -/

/-- R129: only CINIT and CBYTE write the CRC register. -/
theorem exec_crcS {i : Instr} {s t : State} (h : exec i s = .next t) (hinit : i ≠ .cinit) (hbyte : ∀ d, i ≠ .cbyte d) :
    t.crcS = s.crcS := by
  cases hi : instrChan i with
  | some c =>
    obtain ⟨f, -, -, hexec, -⟩ := exec_chan hi
    rw [hexec s] at h
    cases h
    exact State.onChan_crcS ..
  | none =>
    cases i <;> simp only [instrChan, reduceCtorEq] at hi
    case cinit => exact absurd rfl hinit
    case cbyte d => exact absurd rfl (hbyte d)
    all_goals cases h; rfl

/-- R49: an illegal word sets ILL, a GSTATUS read clears it, and every other instruction leaves it alone. -/
theorem exec_ill {i : Instr} {s t : State} (h : exec i s = .next t) :
    (isIllegal i = true ∧ t.ill = true) ∨ ((∃ c, i = .rdreg c 7#3) ∧ t.ill = false) ∨ t.ill = s.ill := by
  cases hi : instrChan i with
  | some c =>
    obtain ⟨f, -, -, hexec, -⟩ := exec_chan hi
    rw [hexec s] at h
    cases h
    by_cases hg : i = .rdreg c 7#3
    · exact .inr (.inl ⟨⟨c, hg⟩, if_pos hg⟩)
    · exact .inr (.inr (if_neg hg))
  | none =>
    cases i <;> simp only [instrChan, reduceCtorEq] at hi
    case illegalOp7 | illegalOp8F | illegalOther => cases h; exact .inl ⟨rfl, rfl⟩
    all_goals cases h; exact .inr (.inr rfl)

/-- Settles O51: the frame of every meaning, and what it leaves of the channels, of the CRC register and of ILL. -/
theorem instructionsLeaveTheRestAlone : Obligations.InstructionsLeaveTheRestAlone := by
  intro i s
  obtain ⟨t, ht, hcfg, hinput, hnow, hstarted, hlength, -⟩ := exec_frame i s
  refine ⟨t, ht, hcfg, hinput, hnow, hstarted, hlength, fun c hc => ?_, exec_crcS ht, fun hlegal hread => ?_⟩
  · exact (exec_chan_cases ht c).resolve_right fun ⟨hi, _⟩ => hc hi
  · rcases exec_ill ht with ⟨hillegal, -⟩ | ⟨⟨c, hc⟩, -⟩ | hsame
    · rw [hlegal] at hillegal; cases hillegal
    · exact absurd hc (hread c)
    · exact hsame

/-- Settles O53: an instruction of a channel is one function of the channel, the configuration, TIME and, for a GSTATUS read, ILL. -/
theorem channelsAreIndependent : Obligations.ChannelsAreIndependent := by
  intro i s s' c hi hs hs' hcfg hnow hchan hill
  obtain ⟨f, hf, -, hexec, -⟩ := exec_chan hi
  have hresult : f s'.cfg s'.now s'.ill (s'.chan c) = f s.cfg s.now s.ill (s.chan c) := by
    rw [hcfg, hnow, hchan]
    by_cases hg : i = .rdreg c 7#3
    · rw [hill hg]
    · rw [hf hg _ _ s'.ill s.ill]
  refine ⟨_, _, (f s.cfg s.now s.ill (s.chan c)).2, hexec s, hexec s', ?_, State.onChan_out .., ?_, State.onChan_crcS .., rfl,
    State.onChan_cfg .., State.onChan_started .., fun d hd => ⟨State.onChan_chan_other hd _, State.onChan_chan_other hd _⟩⟩
  · calc (s'.onChan c (f s'.cfg s'.now s'.ill)).chan c
      _ = (f s'.cfg s'.now s'.ill (s'.chan c)).1 := State.onChan_chan_same (has_lt hs') _
      _ = (f s.cfg s.now s.ill (s.chan c)).1 := by rw [hresult]
      _ = (s.onChan c (f s.cfg s.now s.ill)).chan c := (State.onChan_chan_same (has_lt hs) _).symm
  · rw [← hresult]
    exact State.onChan_out ..

/-- Settles O56: of the steps, waiting and a stall leave ILL alone, a reset clears it, and the rest are instructions. -/
theorem illChangesOnlyAsStated : Obligations.IllChangesOnlyAsStated := by
  intro s t hstep hne
  obtain ⟨-, ⟨-, rfl⟩ | ⟨rest, -, rfl⟩ | ⟨rest, hin, rfl⟩ | ⟨w, now, rest, hin, -, hexec⟩⟩ := step_next hstep
  · exact absurd rfl hne
  · exact absurd rfl hne
  · exact .inr ⟨rfl, .inl ⟨rest, hin⟩⟩
  · rcases exec_ill hexec with ⟨hillegal, hset⟩ | ⟨⟨c, hread⟩, hclear⟩ | hsame
    · exact .inl ⟨hset, w, now, rest, hin, hillegal⟩
    · exact .inr ⟨hclear, .inr ⟨c, w, now, rest, hin, hread⟩⟩
    · exact absurd hsame hne

/-! ## The line protocol -/

/-- R152, R154: an LBIT that changes its channel's protocol takes it from SEARCH to LEN. -/
theorem lineBit_lp_changes_at_match {cfg : Config} {c : ChanNo} {now : Time} {b : Bool} {ch : Channel}
    (h : (ch.lineBit cfg c now b).1.lp ≠ ch.lp) : ch.st = .search ∧ (ch.lineBit cfg c now b).1.st = .len := by
  by_cases hs : ch.st = .search
  · rw [lineBit_search hs] at h ⊢
    refine ⟨hs, ?_⟩
    rcases matchTest_cases cfg now (ch.searchShift cfg b) with ⟨-, e⟩ | ⟨-, -, e⟩ | ⟨-, -, e⟩ <;> simp only [e] at h ⊢
    · rfl
    · rfl
    · exact absurd rfl h
  · rcases lineBit_goes (cfg := cfg) (c := c) (now := now) (b := b) hs with ⟨k, -, hended, -⟩ | ⟨-, hgoes, -⟩
    · obtain ⟨-, -, -, -, -, -, -, -, -, -, -, -, -, hlp, -⟩ := hended
      exact absurd hlp h
    · obtain ⟨-, -, -, -, hlp, -⟩ := hgoes
      exact absurd hlp h

/-- Of the command words, only an LBIT can change the protocol of its channel. -/
theorem decode_eq_lbit_of_lp_ne {cfg : Config} {now : Time} {nCh : Nat} {w : Word} {ch : Channel}
    (h : (chanEffect cfg now (decode nCh w) ch).lp ≠ ch.lp) : ∃ c b, decode nCh w = .lbit c b := by
  rcases decode_cases nCh w with ⟨c, b, -, -, e⟩ | ⟨c, -, -, e⟩ | ⟨c, -, -, e⟩ | ⟨c, idx, -, -, e⟩ | ⟨-, e⟩ | ⟨d, -, e⟩ |
    ⟨-, e⟩ | ⟨r, -, e⟩ | ⟨r, -, e⟩ | ⟨-, -, e⟩
  case inl => exact ⟨c, b, e⟩
  all_goals
    rw [e] at h
    exact absurd rfl h

/-- Settles O57: only a reset or an instruction changes a protocol, and of the instructions only the LBIT at a match. -/
theorem protocolChangesOnlyAtAMatch : Obligations.ProtocolChangesOnlyAtAMatch := by
  intro s t c hstep hne
  obtain ⟨-, ⟨-, rfl⟩ | ⟨rest, -, rfl⟩ | ⟨rest, hin, rfl⟩ | ⟨w, now, rest, hin, -, hexec⟩⟩ := step_next hstep
  · exact absurd rfl hne
  · exact absurd rfl hne
  · exact .inl ⟨rest, hin⟩
  · refine .inr ?_
    rcases exec_chan_cases hexec c with hsame | ⟨hi, heffect⟩
    · exact absurd (congrArg Channel.lp hsame) hne
    · rw [heffect] at hne ⊢
      obtain ⟨d, b, e⟩ := decode_eq_lbit_of_lp_ne hne
      rw [e] at hi hne ⊢
      cases hi
      obtain ⟨hsearch, hlen⟩ := lineBit_lp_changes_at_match hne
      exact ⟨hsearch, hlen, b, w, now, rest, hin, e⟩

/-! ## The counters -/

/-- The counters and `last` are the same, or the candidate has ended with an outcome, which is the one they count (R191). -/
abbrev Channel.SameCountsOrEnded (ch t : Channel) : Prop :=
  ch.SameCounts t ∨ (ch.st ≠ .search ∧ ∃ k, k ≠ .none ∧ ch.Ended k t)

/-- What a Manchester pair or a direct bit does to the counters, due (in a candidate) or not. -/
theorem sameCountsOrEnded_of_symbol {ch t : Channel}
    (h : ch.SameCounts t ∨ (ch.st ≠ .search ∧ ((∃ k, k ≠ .none ∧ ch.Ended k t) ∨ ch.SameCounts t))) :
    ch.SameCountsOrEnded t := by
  rcases h with hsame | ⟨hs, hended | hsame⟩
  · exact .inl hsame
  · exact .inr ⟨hs, hended⟩
  · exact .inl hsame

/-- The match test counts nothing. -/
theorem matchTest_sameCounts (cfg : Config) (now : Time) (ch : Channel) : ch.SameCounts (ch.matchTest cfg now) := by
  rcases matchTest_cases cfg now ch with ⟨-, e⟩ | ⟨-, -, e⟩ | ⟨-, -, e⟩ <;> rw [e] <;> exact ⟨rfl, rfl, rfl, rfl, rfl⟩

/-- A sync word counts nothing. -/
theorem syncSymbol_sameCounts (cfg : Config) (now : Time) (p : LineProtocol) (ch : Channel) :
    ch.SameCounts (ch.syncSymbol cfg now p) := by
  cases p <;> rw [Channel.syncSymbol] <;> split <;> exact ⟨rfl, rfl, rfl, rfl, rfl⟩

/-- An LBIT leaves the counters alone, or it ends a candidate. -/
theorem lineBit_sameCountsOrEnded (cfg : Config) (c : ChanNo) (now : Time) (b : Bool) (ch : Channel) :
    ch.SameCountsOrEnded (ch.lineBit cfg c now b).1 := by
  by_cases hs : ch.st = .search
  · rw [lineBit_search hs]
    exact .inl (matchTest_sameCounts cfg now (ch.searchShift cfg b))
  · rcases lineBit_goes (cfg := cfg) (c := c) (now := now) (b := b) hs with ⟨k, hk, hended, -⟩ | ⟨-, ⟨-, hsame, -⟩, -⟩
    · exact .inr ⟨hs, k, hk, hended⟩
    · exact .inl hsame

/-- What an instruction does to the counters of its channel: nothing, or it is CLRC, or it ends a candidate. -/
theorem chanEffect_counts (cfg : Config) (now : Time) (i : Instr) (ch : Channel) :
    (∃ c, i = .clrc c) ∨ ch.SameCountsOrEnded (chanEffect cfg now i ch) := by
  cases i with
  | clrc c => exact .inl ⟨c, rfl⟩
  | lbit c b => exact .inr (lineBit_sameCountsOrEnded cfg c now b ch)
  | syncA _ | syncB _ => exact .inr (.inl (syncSymbol_sameCounts cfg now _ ch))
  | manPair10 _ | manPair01 _ | manPair00 _ | manPair11 _ => exact .inr (sameCountsOrEnded_of_symbol pairSymbol_counts)
  | dirBit0 _ | dirBit1 _ => exact .inr (sameCountsOrEnded_of_symbol directSymbol_counts)
  | eos _ | rdreg _ _ | cinit | cbyte _ | crd | illegalOp7 _ | illegalOp8F _ | illegalOther _ =>
    exact .inr (.inl ⟨rfl, rfl, rfl, rfl, rfl⟩)

/-- Settles O58: by what the instruction does to the counters of the channel it concerns. -/
theorem countersChangeOnlyAsStated : Obligations.CountersChangeOnlyAsStated := by
  intro i s c _
  obtain ⟨t, ht, -⟩ := exec_frame i s
  refine ⟨t, ht, ?_⟩
  rcases exec_chan_cases ht c with hsame | ⟨hi, heffect⟩
  · rw [hsame]
    exact .inl ⟨rfl, rfl, rfl, rfl, rfl⟩
  · rw [heffect]
    rcases chanEffect_counts s.cfg s.now i (s.chan c) with ⟨d, rfl⟩ | hsame | ⟨hs, k, hk, hcounted, hsearch, -⟩
    · cases hi
      exact .inr (.inl ⟨rfl, rfl, rfl, rfl, rfl, rfl⟩)
    · exact .inl hsame
    · exact .inr (.inr ⟨hi, hs, hsearch, k, hk, hcounted⟩)

/-! ## The register view (R46 to R48) -/

/-- STATE in numbers (R47). -/
theorem stateReg_toNat (ch : Channel) :
    ch.stateReg.toNat = ch.last.code.toNat * 16 + ch.lp.code.toNat * 4 + ch.st.code.toNat := by
  simp only [Channel.stateReg, append_toNat, BitVec.toNat_ofNat]
  omega

/-- GSTATUS in numbers, under a configuration whose values fit its fields (R48). -/
theorem gstatus_toNat {s : State} (hw : s.cfg.Wf) :
    s.gstatus.toNat = s.cfg.maxBody * 2 ^ 16 + (s.cfg.nCh - 1) * 2 ^ 8 + s.ill.toNat := by
  obtain ⟨⟨-, hnCh⟩, -, -, -, ⟨-, hmax⟩, -⟩ := hw
  simp only [State.gstatus, append_toNat, BitVec.toNat_ofNat, BitVec.toNat_ofBool]
  omega

/-- Settles O48: the record's value is the register view, index by index. -/
theorem rdregReadsTheRegisterView : Obligations.RdregReadsTheRegisterView := by
  intro s c idx hw _
  refine ⟨s.regView c idx, exec_rdreg c idx s, ?_, ?_, ?_, ?_, ?state, ?_, ?_, ?gstatus⟩ <;> rintro rfl
  case state =>
    refine (stateReg_toNat (s.chan c)).trans ?_
    congr 2
    · cases (s.chan c).last <;> rfl
    · cases (s.chan c).lp <;> rfl
    · cases (s.chan c).st <;> rfl
  case gstatus => exact gstatus_toNat hw
  all_goals rfl

/-! ## Reset (R53, R280) -/

/-- Every channel reads its reset value after the reset event. -/
@[simp] theorem State.rst_chan (s : State) (c : ChanNo) : s.rst.chan c = Channel.reset s.cfg := by
  simp [State.chan, List.getD_eq_getElem?_getD, List.getElem?_getD_replicate_default_eq]

/-- Every channel reads its reset value in a reset state. -/
@[simp] theorem State.resetOf_chan (cfg : Config) (c : ChanNo) : (State.resetOf cfg).chan c = Channel.reset cfg :=
  State.rst_chan (State.resetOf cfg) c

/-- The buffer of a channel after reset has its FRAME_MAX entries (R42). -/
@[simp] theorem reset_buf_length (cfg : Config) : (Channel.reset cfg).buf.length = cfg.frameMax := List.length_replicate

/-- Settles O8: the step is the reset event, after which every channel is a channel after reset. -/
theorem resetEventGivesResetValues : Obligations.ResetEventGivesResetValues := by
  intro s rest hw hin
  refine ⟨_, step_rst hw hin, rfl, rfl, List.length_replicate, fun c _ => ?_, rfl, rfl, rfl, rfl⟩
  rw [State.rst_chan]
  exact ⟨reset_atReset _, reset_buf_length _⟩

/-- Every register of a reset state but GSTATUS reads 0 (R46, R53). -/
theorem resetOf_regView (cfg : Config) (c : ChanNo) {idx : BitVec 3} (h : idx ≠ 7#3) :
    ((State.resetOf cfg).regView c idx).toNat = 0 := by
  have hidx : idx = 0#3 ∨ idx = 1#3 ∨ idx = 2#3 ∨ idx = 3#3 ∨ idx = 4#3 ∨ idx = 5#3 ∨ idx = 6#3 := by
    revert h; revert idx; decide
  rcases hidx with rfl | rfl | rfl | rfl | rfl | rfl | rfl <;> simp only [State.regView, State.resetOf_chan]
  case inr.inr.inr.inr.inl => exact stateReg_toNat _
  all_goals rfl

/-- Settles O9: each channel of a reset state is a channel after reset, and ILL is 0 in its GSTATUS. -/
theorem resetStateHasResetValues : Obligations.ResetStateHasResetValues := by
  refine ⟨rfl, fun cfg hw => ⟨rfl, rfl, rfl, rfl, List.length_replicate, fun c _ => ?_⟩⟩
  rw [State.resetOf_chan]
  refine ⟨reset_atReset cfg, ?_, fun idx => ?_⟩
  · rw [reset_buf_length, Config.frameMax]
    omega
  · split
    next h =>
      subst h
      exact (gstatus_toNat (s := State.resetOf cfg) hw).trans (Nat.add_zero _)
    next h => exact resetOf_regView cfg c h

end Sys2Proof.Machine
end

section
/-! The proofs of the family `20_memory.md`: the place of the data bits in a byte (R73), the length field and its byte order (R75), and
a channel's independence of the commands that are not its own (R83). -/

namespace Sys2Proof.Machine

/-! ## The data bits of a byte (R73) -/

/-- Settles O33: each data bit moves the ones before it by one place, in numbers. -/
theorem dataBitOrderOfAByte : Obligations.DataBitOrderOfAByte := by
  intro d0 d1 d2 d3 d4 d5 d6 d7
  have h0 := d0.toNat_le
  have h1 := d1.toNat_le
  have h2 := d2.toNat_le
  have h3 := d3.toNat_le
  have h4 := d4.toNat_le
  have h5 := d5.toNat_le
  have h6 := d6.toNat_le
  have h7 := d7.toNat_le
  constructor <;> simp only [List.foldl, addDataBit_toNat, BitVec.toNat_ofNat] <;> omega

/-! ## The length field (R75) -/

/-- R75: the value of the length field whose last byte is `y`. -/
def Channel.lengthValue (cfg : Config) (y : Byte) (ch : Channel) : Nat :=
  match ch.lp, cfg.lenOrder with
  | .man, _ => y.toNat
  | .dir, .big => ch.lenb.toNat * 256 + y.toNat
  | .dir, .little => y.toNat * 256 + ch.lenb.toNat

/-- In LEN the length field goes on after this byte if and only if the byte is the first of a direct field's two. -/
theorem lengthField_goes_on_iff {ch : Channel} (h : ch.LenInv) : ch.lcnt + 1 ≠ ch.lp.lw ↔ ch.lp = .dir ∧ ch.lcnt = 0 := by
  obtain ⟨hlt, -⟩ := h
  cases hp : ch.lp <;> simp only [hp, LineProtocol.lw] at hlt ⊢
  case man => simp; omega
  case dir => simp; omega

/-- A byte of 8 bits keeps its value in 16. -/
theorem byte_setWidth_toNat (y : Byte) : (y.setWidth 16 : Half).toNat = y.toNat :=
  BitVec.toNat_setWidth_of_le (by decide)

/-- R182: after its last byte the length field holds its value. -/
theorem addLengthByte_last {cfg : Config} {ch : Channel} (y : Byte) (h : ch.LenInv) (hlast : ch.lcnt + 1 = ch.lp.lw) :
    (addLengthByte cfg ch.lp ch.lcnt ch.lenb y).toNat = ch.lengthValue cfg y := by
  obtain ⟨-, -, -, hfirst, hsecond⟩ := h
  unfold Channel.lengthValue
  cases hp : ch.lp <;> simp only [hp, LineProtocol.lw] at hlast
  · have h0 : ch.lcnt = 0 := by omega
    rw [h0, hfirst h0, addLengthByte_man, byte_setWidth_toNat]
  · have h1 : ch.lcnt = 1 := by omega
    rw [h1, hsecond h1, addLengthByte_dir_second, byte_setWidth_toNat]
    cases cfg.lenOrder <;> rfl

/-- R182: the first byte of a direct length field is kept in the low byte. -/
theorem lengthStored_first_of_two (cfg : Config) (y : Byte) {ch : Channel} (h : ch.LenInv) (hdir : ch.lp = .dir) (h0 : ch.lcnt = 0) :
    ch.lengthStored cfg y = { ch with buf := (ch.append y).buf, wptr := 1, lcnt := 1, lenb := y.setWidth 16 } := by
  obtain ⟨-, hwptr, -, hfirst, -⟩ := h
  have hlenb : addLengthByte cfg ch.lp 0 ch.lenb y = y.setWidth 16 := by rw [hdir, hfirst h0, addLengthByte_dir_first]
  simp [Channel.lengthStored, Channel.append, hlenb, h0, hwptr]

/-- In LEN there is no frame byte before the first of the length field. -/
theorem frame_eq_nil_of_lcnt_zero {ch : Channel} (h : ch.LenInv) (h0 : ch.lcnt = 0) : ch.frame = [] := by
  obtain ⟨-, hwptr, -⟩ := h
  rw [Channel.frame, hwptr, h0, List.take_zero]

/-- R184: the accepted lengths are those in [MIN_BODY, MAX_BODY]. -/
theorem lenAccepted_iff (cfg : Config) (len : Half) :
    lenAccepted cfg len = true ↔ ¬ (len.toNat < cfg.minBody ∨ cfg.maxBody < len.toNat) := by
  simp [lenAccepted]

/-- Settles O36: of the four things a frame byte can do in LEN, the invariant says that the field goes on at the first of two direct
bytes alone, and what the length value is at the last. -/
theorem lengthByteOutcomes : Obligations.LengthByteOutcomes := by
  intro cfg c y ch hinv hst len t
  have happend : (ch.append y).frame = ch.frame ++ [y] := append_frame (inv_wptr_lt hinv (by simp [hst])) y
  obtain ⟨-, -, hlen, -⟩ := hinv
  have hlenInv : ch.LenInv := hlen hst
  have hlast : ch.lcnt + 1 = ch.lp.lw →
      ¬ (ch.lp = .dir ∧ ch.lcnt = 0) ∧ (addLengthByte cfg ch.lp ch.lcnt ch.lenb y).toNat = len := fun heq =>
    ⟨fun hdir => (lengthField_goes_on_iff hlenInv).mpr hdir heq, addLengthByte_last y hlenInv heq⟩
  rcases frameByte_len (cfg := cfg) (c := c) (y := y) hst with
    ⟨hne, e⟩ | ⟨heq, hcoll, e⟩ | ⟨heq, hcoll, hacc, e⟩ | ⟨heq, hcoll, hacc, e⟩
  all_goals
    refine ⟨congrArg Prod.snd e, ?_⟩
    have ht : t = _ := congrArg Prod.fst e
    rw [ht]
  · obtain ⟨hdir, h0⟩ := (lengthField_goes_on_iff hlenInv).mp hne
    rw [if_pos ⟨hdir, h0⟩]
    rw [frame_eq_nil_of_lcnt_zero hlenInv h0] at happend
    exact ⟨lengthStored_first_of_two cfg y hlenInv hdir h0, happend⟩
  all_goals
    obtain ⟨hnotFirst, hvalue⟩ := hlast heq
    rw [if_neg hnotFirst]
  · rw [if_pos hcoll]
    exact ⟨outcome_ended .manchErr (by decide) _, by simp⟩
  · rw [lenAccepted_iff, hvalue] at hacc
    rw [if_neg (by simp [hcoll]), if_neg hacc, ← hvalue]
    exact ⟨rfl, rfl, happend⟩
  · rw [Bool.eq_false_iff, Ne, lenAccepted_iff, not_not, hvalue] at hacc
    rw [if_neg (by simp [hcoll]), if_pos hacc]
    exact ⟨outcome_ended .lenErr (by decide) _, by simpa using hvalue⟩

/-! ## A channel and the commands of the others (R83) -/

/-- A state that takes the whole of its input: legal, started, and with channel `c`. -/
structure State.Ready (c : ChanNo) (s : State) : Prop where
  wf : s.cfg.Wf
  started : s.started = true
  has : s.Has c

/-- Two states alike in what R83 speaks of: the configuration, channel `c`, and the frames of channel `c`. -/
structure State.AgreesOn (c : ChanNo) (s s' : State) : Prop where
  cfg : s'.cfg = s.cfg
  chan : s'.chan c = s.chan c
  frames : s'.out.filter (Record.isFrameOf c) = s.out.filter (Record.isFrameOf c)

/-- A ready state takes the next event and is ready for the rest. -/
theorem step_ready {c : ChanNo} {s : State} {e : Event} {rest : List Event} (h : s.Ready c) (hin : s.input = e :: rest) :
    ∃ t, step s = .next t ∧ t.Ready c ∧ t.cfg = s.cfg ∧ t.input = rest := by
  obtain ⟨hwf, hstarted, hlength, hchan⟩ := h
  cases e with
  | hold => exact ⟨_, step_hold hwf hin, ⟨hwf, hstarted, hlength, hchan⟩, rfl, rfl⟩
  | rst => exact ⟨_, step_rst hwf hin, ⟨hwf, rfl, List.length_replicate, hchan⟩, rfl, rfl⟩
  | cmd w now =>
    obtain ⟨t, ht, hcfg, hinput, -, hst, hlen, -⟩ :=
      exec_frame (decode s.cfg.nCh w) { s with input := rest, now := now }
    refine ⟨t, (step_cmd hwf hstarted hin).trans ht, ⟨?_, hst.trans hstarted, ?_, ?_⟩, hcfg, hinput⟩
    · rw [hcfg]; exact hwf
    · rw [hlen, hcfg]; exact hlength
    · rw [hcfg]; exact hchan

/-- An event that does not concern channel `c` changes nothing that R83 speaks of. -/
theorem step_other_agreesOn {c : ChanNo} {s s' t : State} {e : Event} {rest : List Event} (hs : s.Ready c)
    (h : s.AgreesOn c s') (hin : s.input = e :: rest) (he : eventConcerns s.cfg.nCh c e = false) (ht : step s = .next t) :
    t.AgreesOn c s' := by
  obtain ⟨hcfg, hchan, hframes⟩ := h
  cases e with
  | hold =>
    rw [step_hold hs.wf hin] at ht
    cases ht
    exact ⟨hcfg, hchan, hframes⟩
  | rst => cases he
  | cmd w now =>
    have hi : instrChan (decode s.cfg.nCh w) ≠ some c := by simpa [eventConcerns] using he
    obtain ⟨u, hu, huchan, r, hout, hr⟩ := exec_other hi { s with input := rest, now := now }
    rw [step_cmd hs.wf hs.started hin] at ht
    have hucfg := exec_cfg ht
    rw [hu] at ht
    cases ht
    refine ⟨hcfg.trans hucfg.symm, hchan.trans huchan.symm, ?_⟩
    rw [hout, List.filter_append, hr, List.append_nil, hframes]

/-- The same event that concerns channel `c` does the same to what R83 speaks of. -/
theorem step_own_agreesOn {c : ChanNo} {s s' t t' : State} {e : Event} {rest rest' : List Event} (hs : s.Ready c)
    (hs' : s'.Ready c) (h : s.AgreesOn c s') (hin : s.input = e :: rest) (hin' : s'.input = e :: rest')
    (he : eventConcerns s.cfg.nCh c e = true) (ht : step s = .next t) (ht' : step s' = .next t') : t.AgreesOn c t' := by
  obtain ⟨hcfg, hchan, hframes⟩ := h
  cases e with
  | hold => cases he
  | rst =>
    rw [step_rst hs.wf hin] at ht
    rw [step_rst hs'.wf hin'] at ht'
    cases ht
    cases ht'
    refine ⟨hcfg, ?_, hframes⟩
    rw [State.rst_chan, State.rst_chan, hcfg]
  | cmd w now =>
    have hi : instrChan (decode s.cfg.nCh w) = some c := by simpa [eventConcerns] using he
    obtain ⟨u, u', hu, hu', huchan, r, r', hout, hout', hr⟩ :=
      exec_own hi (s := { s with input := rest, now := now }) (s' := { s' with input := rest', now := now }) hcfg rfl hs.has
        hs'.has hchan
    rw [step_cmd hs.wf hs.started hin] at ht
    rw [step_cmd hs'.wf hs'.started hin', congrArg Config.nCh hcfg] at ht'
    have hucfg := exec_cfg ht
    have hucfg' := exec_cfg ht'
    rw [hu] at ht
    rw [hu'] at ht'
    cases ht
    cases ht'
    refine ⟨hucfg'.trans (hcfg.trans hucfg.symm), huchan, ?_⟩
    rw [hout, hout', List.filter_append, List.filter_append, hframes, hr]

/-- The first of several steps. -/
theorem steps_succ {s t : State} (h : step s = .next t) (n : Nat) : steps (n + 1) s = steps n t := by
  rw [steps, h]

/-- R83 over a whole input: a state that takes all of it and one that takes what concerns channel `c` end alike. -/
theorem steps_agreesOn {c : ChanNo} {input : List Event} {s s' : State} (hs : s.Ready c) (hs' : s'.Ready c)
    (h : s.AgreesOn c s') (hin : s.input = input) (hin' : s'.input = input.filter (eventConcerns s.cfg.nCh c)) :
    ∃ t t', steps s.input.length s = .next t ∧ steps s'.input.length s' = .next t' ∧ t.AgreesOn c t' := by
  induction input generalizing s s' with
  | nil => exact ⟨s, s', by rw [hin]; rfl, by rw [hin']; rfl, h⟩
  | cons e rest ih =>
    obtain ⟨t, ht, htready, htcfg, htin⟩ := step_ready hs hin
    have hsteps : steps s.input.length s = steps t.input.length t := by rw [hin, htin, List.length_cons, steps_succ ht]
    rw [hsteps]
    cases he : eventConcerns s.cfg.nCh c e with
    | false =>
      rw [List.filter_cons_of_neg (by simp [he]), ← htcfg] at hin'
      exact ih htready hs' (step_other_agreesOn hs h hin he ht) htin hin'
    | true =>
      rw [List.filter_cons_of_pos he, ← htcfg] at hin'
      obtain ⟨t', ht', htready', -, htin'⟩ := step_ready hs' hin'
      have hsteps' : steps s'.input.length s' = steps t'.input.length t' := by
        rw [hin', htin', List.length_cons, steps_succ ht']
      rw [hsteps']
      exact ih htready htready' (step_own_agreesOn hs hs' h hin hin' he ht ht') htin htin'

/-- Settles O54: a run of the whole input and one of the channel's own events start alike, and so they end alike. -/
theorem channelSeesOnlyItsOwnCommands : Obligations.ChannelSeesOnlyItsOwnCommands := by
  intro s c hwf hstarted hhas own
  obtain ⟨t, t', ht, ht', -, hchan, hframes⟩ :=
    steps_agreesOn (s := s) (s' := { s with input := own }) ⟨hwf, hstarted, hhas⟩ ⟨hwf, hstarted, hhas⟩ ⟨rfl, rfl, rfl⟩ rfl rfl
  exact ⟨t, t', ht, ht', hchan, hframes⟩

end Sys2Proof.Machine
end

section
/-! The proofs of the family `30_encoding.md`, first part: the decoder and the encoder undo each other (R107), and from that which words
each command and the illegal words are (R90 to R94, R227), in numbers and as rows of the opcode table. -/

namespace Sys2Proof

/-! ## Encoding and decoding undo each other (R107) -/

/-- Settles O5: row by row, by what the decoder makes of the words and line bits that the encoder writes. -/
theorem decodeOfEncodeIsTheInstruction : Obligations.DecodeOfEncodeIsTheInstruction := by
  intro cfg i hw hi
  cases i with
  | lbit c b => exact Laws.RoundTrip.lbit c b cfg hw hi
  | eos c => exact Laws.RoundTrip.eos c cfg hw hi
  | clrc c => exact Laws.RoundTrip.clrc c cfg hw hi
  | rdreg c idx => exact Laws.RoundTrip.rdreg c idx cfg hw hi
  | cinit => exact Laws.RoundTrip.cinit cfg hw hi
  | cbyte data => exact Laws.RoundTrip.cbyte data cfg hw hi
  | crd => exact Laws.RoundTrip.crd cfg hw hi
  | illegalOp7 rest => exact Laws.RoundTrip.illegalOp7 rest cfg hw hi
  | illegalOp8F rest => exact Laws.RoundTrip.illegalOp8F rest cfg hw hi
  | illegalOther w => exact Laws.RoundTrip.illegalOther w cfg hw hi
  | syncA c => exact Laws.RoundTrip.syncA c cfg hw hi
  | syncB c => exact Laws.RoundTrip.syncB c cfg hw hi
  | manPair10 c => exact Laws.RoundTrip.manPair10 c cfg hw hi
  | manPair01 c => exact Laws.RoundTrip.manPair01 c cfg hw hi
  | manPair00 c => exact Laws.RoundTrip.manPair00 c cfg hw hi
  | manPair11 c => exact Laws.RoundTrip.manPair11 c cfg hw hi
  | dirBit0 c => exact Laws.RoundTrip.dirBit0 c cfg hw hi
  | dirBit1 c => exact Laws.RoundTrip.dirBit1 c cfg hw hi

/-- Settles O6: each thing the decoder can make of a word is well formed and encodes to that word. -/
theorem encodeOfDecodeIsTheWord : Obligations.EncodeOfDecodeIsTheWord := by
  intro cfg w
  rcases decode_cases cfg.nCh w with ⟨c, b, hc, hw, e⟩ | ⟨c, hc, hw, e⟩ | ⟨c, hc, hw, e⟩ | ⟨c, idx, hc, hw, e⟩ | ⟨hw, e⟩ |
    ⟨d, hw, e⟩ | ⟨hw, e⟩ | ⟨r, hw, e⟩ | ⟨r, hw, e⟩ | ⟨hop, hrow, e⟩ <;> rw [e]
  case inl | inr.inl | inr.inr.inl | inr.inr.inr.inl => exact ⟨decide_eq_true hc, congrArg Code.cmd hw.symm⟩
  case inr.inr.inr.inr.inr.inr.inr.inr.inr =>
    exact ⟨Bool.and_eq_true_iff.mpr ⟨decide_eq_true hop, by rw [hrow]; rfl⟩, rfl⟩
  all_goals exact ⟨rfl, congrArg Code.cmd hw.symm⟩

/-! ## The words of each command (R90 to R93) -/

/-- A command that is what its own word decodes to is the decoding of no other word. -/
theorem decode_eq_iff {cfg : Config} {i : Instr} {v : Word} (hencode : encode cfg i = .cmd v)
    (hdecode : i.wf cfg = true → decode cfg.nCh v = i) (w : Word) :
    decode cfg.nCh w = i ↔ i.wf cfg = true ∧ w.toNat = v.toNat := by
  constructor
  · rintro rfl
    obtain ⟨hwf, hword⟩ := encodeOfDecodeIsTheWord cfg w
    exact ⟨hwf, congrArg BitVec.toNat (Code.cmd.inj (hword.symm.trans hencode))⟩
  · rintro ⟨hwf, hw⟩
    rw [BitVec.eq_of_toNat_eq hw]
    exact hdecode hwf

/-- Settles O2: each command is the decoding of its own word alone, whose value is the sum of its fields at their places. -/
theorem legalWordsDecodeToTheirCommand : Obligations.LegalWordsDecodeToTheirCommand := by
  intro nCh w
  let cfg : Config := { Config.initial with nCh := nCh }
  refine ⟨fun c b => ?_, fun c => ?_, fun c => ?_, fun c idx => ?_, ?_, fun d => ?_, ?_⟩
  · have hbit : (0#7 ++ BitVec.ofBool b : BitVec 8).toNat = b.toNat := by cases b <;> rfl
    refine (decode_eq_iff (cfg := cfg) (i := .lbit c b) rfl (fun h => decode_lbitWord (of_decide_eq_true h) b) w).trans ?_
    simp [Instr.wf, cfg, cmdWord_toNat, hbit]
  · refine (decode_eq_iff (cfg := cfg) rfl (fun h => decode_eosWord (of_decide_eq_true h)) w).trans ?_
    simp [Instr.wf, cfg, cmdWord_toNat]
  · refine (decode_eq_iff (cfg := cfg) rfl (fun h => decode_clrcWord (of_decide_eq_true h)) w).trans ?_
    simp [Instr.wf, cfg, cmdWord_toNat]
  · have hidx : (0#5 ++ idx : BitVec 8).toNat = idx.toNat := by rw [append_toNat]; simp
    refine (decode_eq_iff (cfg := cfg) (i := .rdreg c idx) rfl (fun h => decode_rdregWord (of_decide_eq_true h) idx) w).trans ?_
    simp [Instr.wf, cfg, cmdWord_toNat, hidx]
  · refine (decode_eq_iff (cfg := cfg) rfl (fun _ => decode_cinitWord nCh) w).trans ?_
    simp [Instr.wf, cmdWord_toNat]
  · refine (decode_eq_iff (cfg := cfg) rfl (fun _ => decode_cbyteWord nCh d) w).trans ?_
    simp [Instr.wf, cmdWord_toNat]
  · refine (decode_eq_iff (cfg := cfg) rfl (fun _ => decode_crdWord nCh) w).trans ?_
    simp [Instr.wf, cmdWord_toNat]

/-! ## Legal and illegal words (R93, R227) -/

open Machine

/-- The decoder calls a word illegal if and only if it is not legal (R93, R94). -/
theorem isIllegal_decode (nCh : Nat) (w : Word) : isIllegal (decode nCh w) = !legal nCh w := by
  unfold decode
  cases legal nCh w with
  | true =>
    rw [if_pos rfl, decodeLegal]
    split <;> rfl
  | false =>
    rw [if_neg (by decide), decodeIllegal]
    split
    · rfl
    · split <;> rfl

/-- The word of an instruction that is no illegal word is legal. -/
theorem legal_of_decode {nCh : Nat} {w : Word} {i : Instr} (h : decode nCh w = i) (hi : isIllegal i = false) :
    legal nCh w = true := by
  have hlegal := isIllegal_decode nCh w
  rw [h, hi] at hlegal
  simpa using hlegal.symm

/-- The upper bits of an argument as a number. -/
theorem extractLsb'_eq_zero_iff {k : Nat} (start : Nat) (hk : start + k = 8) (a : BitVec 8) :
    a.extractLsb' start k = 0 ↔ a.toNat / 2 ^ start = 0 := by
  have hpow : 2 ^ 8 = 2 ^ start * 2 ^ k := by rw [← Nat.pow_add, hk]
  have hlt : a.toNat / 2 ^ start < 2 ^ k := Nat.div_lt_of_lt_mul (hpow ▸ a.isLt)
  rw [← BitVec.toNat_inj, BitVec.extractLsb'_toNat, Nat.shiftRight_eq_div_pow, Nat.mod_eq_of_lt hlt]
  simp

/-- R92 and R93 over the values of the fields: the legal ones, op by op. -/
abbrev LegalValues (nCh op rsv1 ch rsv2 arg : Nat) : Prop :=
  rsv1 = 0 ∧ rsv2 = 0 ∧
    ((op = 0 ∧ ch < nCh ∧ arg / 2 = 0) ∨ (op = 1 ∧ ch < nCh ∧ arg = 0) ∨ (op = 2 ∧ ch < nCh ∧ arg = 0) ∨
     (op = 3 ∧ ch < nCh ∧ arg / 8 = 0) ∨ (op = 4 ∧ ch = 0 ∧ arg = 0) ∨ (op = 5 ∧ ch = 0) ∨ (op = 6 ∧ ch = 0 ∧ arg = 0))

/-- A word is legal by the values of its fields. -/
theorem legal_iff_values (nCh : Nat) (w : Word) :
    legal nCh w = true ↔
      LegalValues nCh (w.toNat / 2 ^ 28) (w.toNat / 2 ^ 24 % 16) (w.toNat / 2 ^ 16 % 256) (w.toNat / 2 ^ 8 % 256) (w.toNat % 256) := by
  rw [legal_iff, LegalFields, extractLsb'_eq_zero_iff 1 rfl, extractLsb'_eq_zero_iff 3 rfl]
  simp only [← BitVec.toNat_inj, opField_toNat, rsv1Field_toNat, chField_toNat, rsv2Field_toNat, argField_toNat]
  rfl

/-- R227 is the negation of R93, op by op. -/
theorem not_legalValues_iff (nCh op rsv1 ch rsv2 arg : Nat) :
    ¬ LegalValues nCh op rsv1 ch rsv2 arg ↔
      7 ≤ op ∨ rsv1 ≠ 0 ∨ rsv2 ≠ 0 ∨ (op ≤ 3 ∧ nCh ≤ ch) ∨ (4 ≤ op ∧ op ≤ 6 ∧ ch ≠ 0) ∨ (op = 0 ∧ arg / 2 ≠ 0) ∨
        ((op = 1 ∨ op = 2 ∨ op = 4 ∨ op = 6) ∧ arg ≠ 0) ∨ (op = 3 ∧ arg / 8 ≠ 0) := by
  have hop : op = 0 ∨ op = 1 ∨ op = 2 ∨ op = 3 ∨ op = 4 ∨ op = 5 ∨ op = 6 ∨ 7 ≤ op := by omega
  rcases hop with rfl | rfl | rfl | rfl | rfl | rfl | rfl | h <;> omega

/-- R228: an illegal word sets ILL and does nothing else. -/
theorem exec_of_isIllegal {i : Instr} (h : isIllegal i = true) (s : State) : exec i s = .next { s with ill := true } := by
  cases i with
  | illegalOp7 _ | illegalOp8F _ | illegalOther _ => rfl
  | _ => cases h

/-- Settles O3: the conditions of R227 are the negation of R93's over the fields' values, and an illegal word does what R228 says. -/
theorem illegalWordsAreTheListedOnes : Obligations.IllegalWordsAreTheListedOnes := by
  intro nCh w op rsv1 ch rsv2 arg
  refine ⟨?_, exec_of_isIllegal⟩
  rw [isIllegal_decode, Bool.not_eq_true', Bool.eq_false_iff, Ne, legal_iff_values]
  exact not_legalValues_iff nCh op rsv1 ch rsv2 arg

/-! ## The opcode table (R92) -/

/-- A row covers only words of its own op. -/
theorem opField_eq_of_covers {nCh : Nat} {w : Word} {row : OpRow} (hrow : row ∈ opRows) (h : row.covers nCh w = true) :
    opField row.pattern = opField w := by
  have hmask : ∀ row ∈ opRows, opField row.mask = BitVec.allOnes 4 := by decide
  simp only [OpRow.covers, Bool.and_eq_true, beq_iff_eq, masked_iff] at h
  obtain ⟨⟨hop, -⟩, -⟩ := h
  rw [← hop, hmask row hrow, BitVec.and_allOnes]

/-- Settles O4: the rows name the same words legal as R93, and no two rows have the same op. -/
theorem tableRowsCoverLegalWordsOnce : Obligations.TableRowsCoverLegalWordsOnce := by
  intro nCh w
  refine ⟨by rw [isIllegal_decode, legal_eq_inCommandRow, Bool.not_eq_false'], ?_⟩
  have hops : ∀ op : BitVec 4, opRows.countP (fun row => opField row.pattern == op) ≤ 1 := by decide
  calc (opRows.filter fun row => row.covers nCh w).length
    _ = opRows.countP fun row => row.covers nCh w := List.countP_eq_length_filter.symm
    _ ≤ opRows.countP fun row => opField row.pattern == opField w :=
        List.countP_mono_left fun row hrow h => by simpa using opField_eq_of_covers hrow h
    _ ≤ 1 := hops (opField w)

/-! ## The examples of R95 -/

/-- A word of op 0 to 6 that is not legal decodes to its own row of illegal words (R94). -/
theorem decode_illegalOther_of_not_legal {nCh : Nat} {w : Word} (hop : (opField w).toNat ≤ 6) (h : legal nCh w = false) :
    decode nCh w = .illegalOther w :=
  decode_illegalOtherWord hop (by rw [← legal_eq_inCommandRow, h])

/-- Settles O1: each legal word has the value of its command, and the other three are not legal. -/
theorem encodingExamplesDecode : Obligations.EncodingExamplesDecode := by
  intro nCh
  have command := legalWordsDecodeToTheirCommand nCh
  refine ⟨fun h => ?_, fun h => ?_, fun h => ?_, fun h => ?_, fun h => ?_, fun h => ?_, fun h => ?_, ?_, ?_, ?_, ?_, ?_, ?_⟩
  · obtain ⟨hlbit, -⟩ := command 0x00000001#32
    exact (hlbit _ _).mpr ⟨h, rfl⟩
  · obtain ⟨hlbit, -⟩ := command 0x00010000#32
    exact (hlbit _ _).mpr ⟨h, rfl⟩
  · obtain ⟨hlbit, -⟩ := command 0x00030001#32
    exact (hlbit _ _).mpr ⟨h, rfl⟩
  · obtain ⟨-, heos, -⟩ := command 0x10020000#32
    exact (heos _).mpr ⟨h, rfl⟩
  · obtain ⟨-, -, hclrc, -⟩ := command 0x20010000#32
    exact (hclrc _).mpr ⟨h, rfl⟩
  · obtain ⟨-, -, -, hrdreg, -⟩ := command 0x30000004#32
    exact (hrdreg _ _).mpr ⟨h, rfl⟩
  · obtain ⟨-, -, -, hrdreg, -⟩ := command 0x30010007#32
    exact (hrdreg _ _).mpr ⟨h, rfl⟩
  · exact decode_cinitWord nCh
  · exact decode_cbyteWord nCh 0x31#8
  · exact decode_crdWord nCh
  · exact decode_illegalOp7Word nCh 0#28
  · exact decode_illegalOther_of_not_legal (by decide) (by simp [Bool.eq_false_iff, legal_iff_values])
  · exact decode_illegalOther_of_not_legal (by decide) (by simp [Bool.eq_false_iff, legal_iff_values])

end Sys2Proof
end

section
/-! The proofs of the family `30_encoding.md`, second part: the assembler (R105, R106), the line symbols within a byte (R98, R99), and
which instruction produces which record (R97). -/

namespace Sys2Proof.Machine

/-! ## The assembler (R105, R106) -/

/-- An accepted channel operand is a channel. -/
theorem chanOperand_lt {cfg : Config} {n : Nat} {c : ChanNo} (h : chanOperand cfg n = some c) : c.toNat < cfg.nCh := by
  unfold chanOperand at h
  split at h
  next hn =>
    cases h
    exact lt_of_le_of_lt (Nat.mod_le _ _) hn
  next => cases h

/-- Accepted byte operands are as many bytes. -/
theorem byteOperands_length {ds : List Nat} {bs : List Byte} (h : byteOperands ds = some bs) : bs.length = ds.length := by
  unfold byteOperands at h
  split at h
  next => cases h; exact List.length_map _
  next => cases h

@[simp] theorem lbitWords_length (c : ChanNo) (bits : List Bool) : (lbitWords c bits).length = bits.length := List.length_map _

theorem lbitWords_legal {nCh : Nat} {c : ChanNo} (hc : c.toNat < nCh) (bits : List Bool) :
    ∀ w ∈ lbitWords c bits, legal nCh w = true := by
  intro w hw
  obtain ⟨b, -, rfl⟩ := List.mem_map.mp hw
  exact legal_of_decode (decode_lbitWord hc b) rfl

theorem cbyteWords_legal (nCh : Nat) (ds : List Byte) : ∀ w ∈ cbyteWords ds, legal nCh w = true := by
  intro w hw
  obtain ⟨d, -, rfl⟩ := List.mem_map.mp hw
  exact legal_of_decode (decode_cbyteWord nCh d) rfl

/-- An RDREG word with its index as a number. -/
theorem rdregWord_legal {nCh : Nat} {c : ChanNo} (hc : c.toNat < nCh) {idx : Nat} (hi : idx < 8) :
    legal nCh (cmdWord 3#4 c (BitVec.ofNat 8 idx)) = true := by
  have harg : ∀ idx < 8, BitVec.ofNat 8 idx = 0#5 ++ BitVec.ofNat 3 idx := by decide
  rw [harg idx hi]
  exact legal_of_decode (decode_rdregWord hc _) rfl

/-- The pseudo-instruction of a protocol's frame (R106). -/
def frameAsm : LineProtocol → Nat → List Nat → Asm
  | .man => .mframe
  | .dir => .dframe

/-- A frame's pseudo-instruction, where it assembles, is the LBIT words of the frame's on-air layout. -/
theorem assemble_frameAsm {cfg : Config} {lp : LineProtocol} {n : Nat} {ds : List Nat} {ws : List Word}
    (h : assemble cfg (frameAsm lp n ds) = some ws) :
    ∃ c body, chanOperand cfg n = some c ∧ byteOperands ds = some body ∧ ws = lbitWords c (airBits cfg lp body) := by
  cases hc : chanOperand cfg n with
  | none => cases lp <;> simp [frameAsm, assemble, hc] at h
  | some c =>
    cases hbody : byteOperands ds with
    | none => cases lp <;> simp [frameAsm, assemble, hc, hbody] at h
    | some body =>
      refine ⟨c, body, rfl, rfl, ?_⟩
      cases lp <;> simp only [frameAsm, assemble, hc, hbody, Option.ite_none_right_eq_some, Option.some.injEq] at h <;>
        exact h.2.symm

/-- Settles O45: form by form, each word is the word of a command. -/
theorem assemblerSpellsLegalWords : Obligations.AssemblerSpellsLegalWords := by
  intro cfg line ws h hword
  have one : ∀ {v : Word}, legal cfg.nCh v = true → ∀ w ∈ [v], legal cfg.nCh w = true := by
    intro v hv w hw
    rw [List.mem_singleton.mp hw]
    exact hv
  cases line with
  | word w => exact absurd rfl (hword w)
  | mframe n ds =>
    obtain ⟨c, body, hc, -, rfl⟩ := assemble_frameAsm (lp := .man) h
    exact lbitWords_legal (chanOperand_lt hc) _
  | dframe n ds =>
    obtain ⟨c, body, hc, -, rfl⟩ := assemble_frameAsm (lp := .dir) h
    exact lbitWords_legal (chanOperand_lt hc) _
  | cinit => cases h; exact one (legal_of_decode (decode_cinitWord _) rfl)
  | crd => cases h; exact one (legal_of_decode (decode_crdWord _) rfl)
  | cbyte d =>
    obtain ⟨bs, -, rfl⟩ := Option.map_eq_some_iff.mp h
    exact cbyteWords_legal _ bs
  | cbytes ds =>
    obtain ⟨bs, -, rfl⟩ := Option.map_eq_some_iff.mp h
    exact cbyteWords_legal _ bs
  | crcof ds =>
    obtain ⟨bs, -, rfl⟩ := Option.map_eq_some_iff.mp h
    refine List.forall_mem_append.mpr ⟨List.forall_mem_cons.mpr ⟨?_, cbyteWords_legal _ bs⟩, one ?_⟩
    · exact legal_of_decode (decode_cinitWord _) rfl
    · exact legal_of_decode (decode_crdWord _) rfl
  | eos n =>
    obtain ⟨c, hc, rfl⟩ := Option.map_eq_some_iff.mp h
    exact one (legal_of_decode (decode_eosWord (chanOperand_lt hc)) rfl)
  | clrc n =>
    obtain ⟨c, hc, rfl⟩ := Option.map_eq_some_iff.mp h
    exact one (legal_of_decode (decode_clrcWord (chanOperand_lt hc)) rfl)
  | lbits n bits =>
    obtain ⟨c, hc, rfl⟩ := Option.map_eq_some_iff.mp h
    exact lbitWords_legal (chanOperand_lt hc) bits
  | lhdr n lp =>
    obtain ⟨c, hc, rfl⟩ := Option.map_eq_some_iff.mp h
    exact lbitWords_legal (chanOperand_lt hc) _
  | rdall n =>
    obtain ⟨c, hc, rfl⟩ := Option.map_eq_some_iff.mp h
    have register : ∀ idx < 8, legal cfg.nCh (cmdWord 3#4 c (BitVec.ofNat 8 idx)) = true := fun idx hi =>
      rdregWord_legal (chanOperand_lt hc) hi
    simp only [List.forall_mem_cons, List.not_mem_nil, false_implies, implies_true, and_true]
    exact ⟨register 0 (by decide), register 1 (by decide), register 2 (by decide), register 3 (by decide), register 4 (by decide)⟩
  | lbit n b =>
    simp only [assemble] at h
    split at h
    next c hc =>
      split at h
      · cases h; exact lbitWords_legal (chanOperand_lt hc) _
      · cases h
    next => cases h
  | rdreg n idx =>
    simp only [assemble] at h
    split at h
    next c hc =>
      split at h
      next hi => cases h; exact one (rdregWord_legal (chanOperand_lt hc) hi)
      next => cases h
    next => cases h

/-! ## Line symbols within a byte (R98, R99) -/

/-- A change of an existing channel that produces no record, as a next state. -/
theorem onChan_quiet {s : State} {c : ChanNo} (hs : s.Has c) {f : Channel → Channel × Option Record} {ch : Channel}
    (h : f (s.chan c) = (ch, none)) :
    s.OnlyChan c (s.onChan c f) ∧ (s.onChan c f).out = s.out ∧ (s.onChan c f).chan c = ch := by
  refine ⟨onChan_only s c f, ?_, ?_⟩
  · rw [State.onChan_out, h, Option.toList_none, List.append_nil]
  · rw [State.onChan_chan_same (has_lt hs), h]

/-- R163: a data bit that does not complete the byte enters it, and there is no record. -/
theorem deliver_tookDataBit (cfg : Config) (c : ChanNo) (d : Bool) {ch : Channel} (hnb : ch.nb < 7) :
    ∃ t, ch.deliver cfg c d = (t, none) ∧ ch.TookDataBit cfg.bitOrder d.toNat t := by
  rcases deliver_cases cfg c d ch with ⟨-, e⟩ | ⟨h7, -⟩
  · exact ⟨_, e, (addDataBit_toNat cfg.bitOrder ch.acc d).trans (by cases cfg.bitOrder <;> rfl), rfl⟩
  · omega

theorem exec_decodePair (c : ChanNo) (p1 p2 : Bool) (s : State) :
    exec (decodePair c p1 p2) s = .next (s.onChan c (Channel.pairSymbol s.cfg c p1 p2)) := by
  cases p1 <;> cases p2 <;> rfl

theorem exec_decodeBit (c : ChanNo) (q : Bool) (s : State) :
    exec (decodeBit c q) s = .next (s.onChan c (Channel.directSymbol s.cfg c q)) := by
  cases q <;> rfl

/-- A pair that is due, within a byte: its flags, then its data bit. -/
theorem exec_pair_within_byte {s : State} {c : ChanNo} {p1 : Bool} (hs : s.Has c) (hst : (s.chan c).st ≠ .search)
    (hlp : (s.chan c).lp = .man) (hhv : (s.chan c).hv = true) (hhb : (s.chan c).hb = p1) (hnb : (s.chan c).nb < 7) (p2 : Bool) :
    ∃ t, exec (decodePair c p1 p2) s = .next t ∧ s.OnlyChan c t ∧ t.out = s.out ∧
      ((s.chan c).pairFlags p1 p2).TookDataBit s.cfg.bitOrder (pairData s.cfg.manchPol p1 p2).toNat (t.chan c) := by
  have hdue : (s.chan c).pairDue p1 = true := by simp [Channel.pairDue, hst, hlp, hhv, hhb]
  obtain ⟨ch, e, htook⟩ :=
    deliver_tookDataBit s.cfg c (pairData s.cfg.manchPol p1 p2) (ch := (s.chan c).pairFlags p1 p2) hnb
  obtain ⟨honly, hout, hchan⟩ := onChan_quiet (f := Channel.pairSymbol s.cfg c p1 p2) hs ((pairSymbol_due hdue p2).trans e)
  exact ⟨_, exec_decodePair c p1 p2 s, honly, hout, by rw [hchan]; exact htook⟩

/-- R160: a pair of two different halves only empties the latch. -/
theorem pairFlags_of_ne {p1 p2 : Bool} (h : p1 ≠ p2) (ch : Channel) : ch.pairFlags p1 p2 = { ch with hv := false } := by
  simp [Channel.pairFlags, h]

/-- R160, R166: a pair of two equal halves also sets the collision flag. -/
theorem pairFlags_self (p : Bool) (ch : Channel) : ch.pairFlags p p = { ch with hv := false, coll := true } := by
  simp [Channel.pairFlags]

/-- Settles O30: the four pairs, each with its flags and its data bit. -/
theorem manchesterPairsDeliverTheirDataBit : Obligations.ManchesterPairsDeliverTheirDataBit := by
  intro s c hs hst hlp hhv hnb ch first
  have pair := fun {p1 : Bool} (hhb : (s.chan c).hb = p1) => exec_pair_within_byte hs hst hlp hhv hhb hnb
  refine ⟨fun hhb => ?_, fun hhb => ?_, fun hhb => ?_, fun hhb => ?_⟩
  · have hdata : (pairData s.cfg.manchPol true false).toNat = first := by
      show _ = if s.cfg.manchPol = .first then 1 else 0
      cases s.cfg.manchPol <;> rfl
    rw [← hdata, ← pairFlags_of_ne (p1 := true) (p2 := false) (by decide)]
    exact pair hhb false
  · have hdata : (pairData s.cfg.manchPol false true).toNat = 1 - first := by
      show _ = 1 - if s.cfg.manchPol = .first then 1 else 0
      cases s.cfg.manchPol <;> rfl
    rw [← hdata, ← pairFlags_of_ne (p1 := false) (p2 := true) (by decide)]
    exact pair hhb true
  · rw [← pairFlags_self false]
    exact pair hhb false
  · rw [← pairFlags_self true]
    exact pair hhb true

/-- A direct bit that is due, within a byte, delivers its inverse. -/
theorem exec_directBit_within_byte {s : State} {c : ChanNo} (hs : s.Has c) (hst : (s.chan c).st ≠ .search)
    (hlp : (s.chan c).lp = .dir) (hnb : (s.chan c).nb < 7) (q : Bool) :
    ∃ t, exec (decodeBit c q) s = .next t ∧ s.OnlyChan c t ∧ t.out = s.out ∧
      (s.chan c).TookDataBit s.cfg.bitOrder (!q).toNat (t.chan c) := by
  have hdue : (s.chan c).directDue = true := by simp [Channel.directDue, hst, hlp]
  obtain ⟨ch, e, htook⟩ := deliver_tookDataBit s.cfg c (!q) hnb
  obtain ⟨honly, hout, hchan⟩ := onChan_quiet (f := Channel.directSymbol s.cfg c q) hs ((directSymbol_due hdue q).trans e)
  exact ⟨_, exec_decodeBit c q s, honly, hout, by rw [hchan]; exact htook⟩

/-- Settles O31: the two line bits. -/
theorem directBitsDeliverTheirInverse : Obligations.DirectBitsDeliverTheirInverse := fun _ _ hs hst hlp hnb =>
  ⟨exec_directBit_within_byte hs hst hlp hnb false, exec_directBit_within_byte hs hst hlp hnb true⟩

/-! ## Records (R97) -/

/-- An instruction that takes a line bit is a function of its channel whose record, if any, is a frame of that channel in BODY. -/
theorem exec_takesLineBit {i : Instr} (h : takesLineBit i = true) (s : State) :
    ∃ c t r, instrChan i = some c ∧ exec i s = .next t ∧ t.out = s.out ++ r.toList ∧ RecOk c (s.chan c) r := by
  cases i with
  | lbit c b => exact ⟨c, _, _, rfl, rfl, State.onChan_out .., lineBit_rec ..⟩
  | manPair10 c | manPair01 c | manPair00 c | manPair11 c => exact ⟨c, _, _, rfl, rfl, State.onChan_out .., pairSymbol_rec ..⟩
  | dirBit0 c | dirBit1 c => exact ⟨c, _, _, rfl, rfl, State.onChan_out .., directSymbol_rec ..⟩
  | _ => cases h

/-- Settles O52: the instructions that take a line bit, then the others one by one. -/
theorem recordsComeFromTheirCommands : Obligations.RecordsComeFromTheirCommands := by
  intro i s
  by_cases h : takesLineBit i = true
  · obtain ⟨c, t, r, hc, ht, hout, hrec⟩ := exec_takesLineBit h s
    refine ⟨t, ht, ?_⟩
    rcases hrec with rfl | ⟨hst, f, -, -, -, rfl, -⟩
    · exact .inl (by simpa using hout)
    · exact .inr ⟨_, hout, h, hc, hst⟩
  · cases i with
    | rdreg c idx => exact ⟨_, exec_rdreg c idx s, .inr ⟨_, rfl, rfl⟩⟩
    | crd => exact ⟨_, rfl, .inr ⟨_, rfl, rfl⟩⟩
    | eos _ | clrc _ | cinit | cbyte _ | illegalOp7 _ | illegalOp8F _ | illegalOther _ | syncA _ | syncB _ =>
      exact ⟨_, rfl, .inl rfl⟩
    | _ => exact absurd rfl h

end Sys2Proof.Machine
end

section
/-! The proofs of the family `30_encoding.md`, third part: frames on the air (R101, R102). How long they are, what the framer does with
one from an empty search window, and that an emitted frame is the frame of a body. -/

namespace Sys2Proof.Machine

/-! ## The length of a frame on the air (R102) -/

/-- Lists of one length, one after another. -/
theorem length_flatMap_of_forall {α β : Type} {f : α → List β} {n : Nat} (h : ∀ x, (f x).length = n) (l : List α) :
    (l.flatMap f).length = n * l.length := by
  simp [List.length_flatMap, h, Nat.mul_comm]

@[simp] theorem header_length (cfg : Config) (lp : LineProtocol) : (header cfg lp).length = cfg.patW := by
  cases lp <;> exact bitsMsbFirst_length _ _

@[simp] theorem lenBytes_length (cfg : Config) (lp : LineProtocol) (k : Nat) : (lenBytes cfg lp k).length = lp.lw := by
  unfold lenBytes
  cases lp <;> cases cfg.lenOrder <;> rfl

@[simp] theorem frameOf_length (cfg : Config) (lp : LineProtocol) (body : List Byte) :
    (frameOf cfg lp body).length = lp.lw + body.length + 2 := by
  simp [frameOf, ser, Nat.add_assoc]

/-- Each data bit of a raw byte takes BPD line bits (R18, R102). -/
@[simp] theorem lineCode_length (cfg : Config) (lp : LineProtocol) (y : Byte) : (lineCode cfg lp y).length = 8 * lp.bpd := by
  have hcode : ∀ d, (codeBit cfg.manchPol lp d).length = lp.bpd := by
    intro d
    cases lp <;> cases cfg.manchPol <;> rfl
  have hdata : (dataBits cfg.bitOrder (y ^^^ lp.mask)).length = 8 := by cases cfg.bitOrder <;> rfl
  rw [lineCode, length_flatMap_of_forall hcode, hdata, Nat.mul_comm]

/-- A frame takes the preamble and sync word, and 8 BPD line bits for each of its bytes. -/
theorem airBits_length (cfg : Config) (lp : LineProtocol) (body : List Byte) :
    (airBits cfg lp body).length = cfg.patW + 8 * lp.bpd * (lp.lw + body.length + 2) := by
  rw [airBits, List.length_append, header_length, length_flatMap_of_forall (lineCode_length cfg lp), frameOf_length]

/-- Settles O44: the layout's length with each protocol's BPD and LW, and one LBIT word for each of its bits. -/
theorem frameLengthOnTheAir : Obligations.FrameLengthOnTheAir := by
  intro cfg body
  have hman : ∀ body, (airBits cfg .man body).length = 32 + cfg.syncW + 16 * (body.length + 3) := fun body => by
    simp only [airBits_length, Config.patW, Config.preambleW, LineProtocol.bpd, LineProtocol.lw]
    omega
  have hdir : ∀ body, (airBits cfg .dir body).length = 32 + cfg.syncW + 8 * (body.length + 4) := fun body => by
    simp only [airBits_length, Config.patW, Config.preambleW, LineProtocol.bpd, LineProtocol.lw]
    omega
  refine ⟨hman body, hdir body, fun n ds ws => ⟨fun h => ?_, fun h => ?_⟩⟩
  · obtain ⟨c, bs, -, hbs, rfl⟩ := assemble_frameAsm (lp := .man) h
    rw [lbitWords_length, hman, byteOperands_length hbs]
  · obtain ⟨c, bs, -, hbs, rfl⟩ := assemble_frameAsm (lp := .dir) h
    rw [lbitWords_length, hdir, byteOperands_length hbs]

/-! ## A frame through the framer (R154, R184, R188) -/

/-- A frame carries the checksum of its length field and body (R101, R125). -/
theorem valid_frameOf (cfg : Config) (lp : LineProtocol) (body : List Byte) : valid (frameOf cfg lp body) = true := by
  rw [frameOf, ser, valid_append, deser_ser]
  exact beq_self_eq_true _

/-- A candidate's outcome counts from any earlier channel with the same counters, protocol and timestamp. -/
theorem Channel.Ended.of_sameCounts {k : CandOutcome} {ch mid t : Channel} (h : mid.Ended k t) (hcounts : ch.SameCounts mid)
    (hlp : mid.lp = ch.lp) (hts : mid.ts = ch.ts) : ch.Ended k t := by
  obtain ⟨hok, hcrc, hman, hlen, -⟩ := hcounts
  simpa only [Channel.Ended, Channel.Counted, hok, hcrc, hman, hlen, hlp, hts] using h

/-- What a sync match starts: a candidate without a bit, a byte or a collision yet (R154). -/
theorem Channel.Matched.candidate {p : LineProtocol} {stamp : Nat} {ch t : Channel} (h : ch.Matched p stamp t) :
    t.lp = p ∧ t.st = .len ∧ t.hv = false ∧ t.nb = 0 ∧ t.acc = 0#8 ∧ t.coll = false ∧ t.lcnt = 0 ∧ t.lenb = 0#16 ∧ t.wptr = 0 ∧
      t.buf = ch.buf ∧ ch.SameCounts t := by
  obtain ⟨-, h⟩ := h
  generalize t.sh = sh, t.fill = fill, t.ts = ts at h
  subst h
  exact ⟨rfl, rfl, rfl, rfl, rfl, rfl, rfl, rfl, rfl, rfl, rfl, rfl, rfl, rfl, rfl⟩

/-- The parts of a frame's on-air layout: preamble and sync word, length field, and the rest of the frame. -/
theorem airBits_parts (cfg : Config) (lp : LineProtocol) (body : List Byte) :
    ∃ tail, frameOf cfg lp body = lenBytes cfg lp body.length ++ tail ∧ tail.length = body.length + 2 ∧
      airBits cfg lp body =
        header cfg lp ++ ((lenBytes cfg lp body.length).flatMap (lineCode cfg lp) ++ tail.flatMap (lineCode cfg lp)) := by
  refine ⟨body ++ ser (checksum (lenBytes cfg lp body.length ++ body)), ?_, ?_, ?_⟩
  · rw [frameOf, List.append_assoc]
  · simp [ser]
  · rw [airBits, frameOf, List.append_assoc, List.flatMap_append]

/-- A list is what stands before its last entry, and that entry. -/
theorem take_append_of_getElem? {α : Type} {l : List α} {n : Nat} {x : α} (hlen : l.length = n + 1) (hx : l[n]? = some x) :
    l.take n ++ [x] = l := by
  have h := List.take_add_one (l := l) (i := n)
  rw [hx, List.take_of_length_le (by omega)] at h
  exact h.symm

/-- From an empty search window a whole frame is emitted and counted: its header starts a candidate, its length field takes the
candidate into BODY, and the rest of it ends the candidate as OK. -/
theorem frame_run {cfg : Config} (hw : cfg.Wf) (c : ChanNo) {lp : LineProtocol} {body : List Byte} {bits : List (Bool × Time)}
    {stamp : Bool × Time} {ch : Channel} (hs : ch.st = .search) (hf : ch.fill = 0) (hbuf : ch.buf.length = cfg.frameMax)
    (hmin : cfg.minBody ≤ body.length) (hmax : body.length ≤ cfg.maxBody) (hman : lp = .man → body.length ≤ 255)
    (hbits : bits.map Prod.fst = airBits cfg lp body) (hstamp : bits[31 + cfg.syncW]? = some stamp) :
    ∃ (t : Channel) (ts : Time), Channel.lineBits cfg c bits ch =
        (t, [.frame c ts (BitVec.ofNat 17 (frameOf cfg lp body).length) (frameOf cfg lp body)]) ∧
      ts.toNat = stamp.2.toNat % 2 ^ cfg.tsW ∧ ({ ch with lp := lp, ts := ts } : Channel).Ended .ok t ∧
      t.len.toNat = body.length := by
  have hmax' : body.length ≤ 65535 := by obtain ⟨-, -, -, -, ⟨-, h⟩, -⟩ := hw; omega
  rw [Config.frameMax] at hbuf
  obtain ⟨tail, hframe, htail, hparts⟩ := airBits_parts cfg lp body
  rw [hparts, List.map_eq_append_iff] at hbits
  obtain ⟨hdr, after, rfl, hhdr, hafter⟩ := hbits
  obtain ⟨field, last, rfl, hfield, hlast⟩ := List.map_eq_append_iff.mp hafter
  have hlen : hdr.length = 31 + cfg.syncW + 1 := by
    have := congrArg List.length hhdr
    simp only [List.length_map, header_length, Config.patW, Config.preambleW] at this
    omega
  rw [List.getElem?_append_left (by omega)] at hstamp
  have hsplit := take_append_of_getElem? hlen hstamp
  obtain ⟨t1, e1, hmatched⟩ :=
    header_run hw c lp (hdr.take (31 + cfg.syncW)) stamp ch hs hf (by rw [hsplit]; exact hhdr)
  rw [hsplit] at e1
  obtain ⟨hlp1, hst1, hhv1, hnb1, hacc1, hcoll1, hlcnt1, hlenb1, hwptr1, hbuf1, hcounts1⟩ := hmatched.candidate
  obtain ⟨hts1, -⟩ := hmatched
  obtain ⟨t2, e2, hst2, hhv2, hnb2, hacc2, hcoll2, hrem2, hwptr2, hbuf2, hframe2, hlen2, hlp2, hts2, hcounts2⟩ :=
    length_run c body.length field t1 hst1 hhv1 hnb1 hacc1 hcoll1 hlcnt1 hlenb1 hwptr1 (by rw [hbuf1]; omega) hmin hmax hmax'
      (by rw [hlp1]; exact hman) (by rw [hlp1]; exact hfield)
  rw [hlp1] at hwptr2 hframe2
  have hbytes : t2.frame ++ tail = frameOf cfg lp body := by rw [hframe2, hframe]
  have hroom : t2.wptr + tail.length ≤ t2.buf.length := by
    have hlw : lp.lw ≤ 2 := by cases lp <;> decide
    rw [hwptr2, hbuf2, hbuf1]
    omega
  obtain ⟨t3, e3, hended, hlen3⟩ :=
    body_run c tail last t2 hst2 hhv2 hnb2 hacc2 hcoll2 (by rw [hrem2, htail]) (by rintro rfl; simp at htail) hroom
      (by rw [hlp2, hlp1]; exact hlast) (by rw [hbytes]; exact valid_frameOf cfg lp body)
  rw [hbytes, hts2] at e3
  refine ⟨t3, t1.ts, ?_, hts1, (hended.of_sameCounts hcounts2 hlp2 hts2).of_sameCounts hcounts1 hlp1 rfl, by rw [hlen3, hlen2]⟩
  rw [lineBits_append, e1, lineBits_append, e2, e3]
  rfl

/-- Settles O42: the steps are the channel's own run over the frame's line bits. -/
theorem frameOnTheAirIsEmitted : Obligations.FrameOnTheAirIsEmitted := by
  intro s c lp body bits stamp rest hw hstarted hs hst hfill hbuf hmin hmax hman hbits hstamp hin
  obtain ⟨t, ts, hrun, hts, hended, hlen⟩ := frame_run hw c hst hfill hbuf hmin hmax hman hbits hstamp
  obtain ⟨now, hsteps⟩ := steps_lbitEvents c bits s rest hw hstarted hs.1 hs.2 hin
  rw [hrun] at hsteps
  refine ⟨_, ts, _, hsteps, rfl, ⟨rfl, rfl, rfl, rfl, List.length_set, fun d hd => ?_⟩, rfl, hts, ?_, ?_⟩
  · exact State.setChan_chan_other hd t
  · obtain ⟨-, -, -, -, ⟨-, hmax'⟩, -⟩ := hw
    have hlw : lp.lw ≤ 2 := by cases lp <;> decide
    rw [frameOf_length, BitVec.toNat_ofNat, Nat.mod_eq_of_lt (by omega)]
  · have hchan : (s.setChan c t).chan c = t := State.setChan_chan_same (has_lt hs) t
    show Channel.Ended .ok _ ((s.setChan c t).chan c) ∧ ((s.setChan c t).chan c).len.toNat = body.length
    rw [hchan]
    exact ⟨hended, hlen⟩

/-! ## An emitted frame (R101, R188) -/

/-- `deser` and `ser` undo each other (R124, R125). -/
theorem ser_deser (lo hi : Byte) : ser (deser lo hi) = [lo, hi] := by
  have hlo := lo.isLt
  have hhi := hi.isLt
  have low : (deser lo hi).extractLsb' 0 8 = lo := by
    apply BitVec.eq_of_toNat_eq
    rw [BitVec.extractLsb'_toNat, deser_toNat, Nat.shiftRight_zero]
    omega
  have high : (deser lo hi).extractLsb' 8 8 = hi := by
    apply BitVec.eq_of_toNat_eq
    rw [BitVec.extractLsb'_toNat, deser_toNat, Nat.shiftRight_eq_div_pow]
    omega
  rw [ser, low, high]

/-- A valid sequence that begins with the length field of as many body bytes as it has is the frame of those bytes. -/
theorem eq_frameOf_of_valid {cfg : Config} {lp : LineProtocol} {k : Nat} {f : List Byte} (hvalid : valid f = true)
    (hlen : f.length = lp.lw + k + 2) (hfield : f.take lp.lw = lenBytes cfg lp k) :
    ∃ body, body.length = k ∧ f = frameOf cfg lp body := by
  obtain ⟨m, lo, hi, rfl⟩ := exists_last_two (f := f) (by omega)
  rw [valid_append, beq_iff_eq] at hvalid
  have hm : m.length = lp.lw + k := by simpa using hlen
  rw [List.take_append_of_le_length (by omega)] at hfield
  have hbody : (m.drop lp.lw).length = k := by rw [List.length_drop]; omega
  have hmessage : lenBytes cfg lp (m.drop lp.lw).length ++ m.drop lp.lw = m := by
    rw [hbody, ← hfield, List.take_append_drop]
  refine ⟨m.drop lp.lw, hbody, ?_⟩
  rw [frameOf, hmessage, hvalid, ser_deser]

/-- With its last byte a candidate in BODY has a length field, as many body bytes as it says, and two more (R52, R187). -/
theorem frame_of_last_byte {cfg : Config} {ch : Channel} (h : ch.Inv cfg) (hst : ch.st = .body) (hrem : ch.rem - 1 = 0) (y : Byte) :
    (ch.append y).frame.length = ch.lp.lw + ch.len.toNat + 2 ∧
      (ch.append y).frame.take ch.lp.lw = lenBytes cfg ch.lp ch.len.toNat := by
  have hlt := inv_wptr_lt h (by rw [hst]; decide)
  obtain ⟨-, -, -, hbody⟩ := h
  obtain ⟨-, hrem1, -, hwptr, -, -, hfield, -⟩ := hbody hst
  have hlen : ch.frame.length = ch.wptr := List.length_take_of_le (by omega)
  rw [append_frame hlt y]
  constructor
  · rw [List.length_append, hlen, List.length_singleton]
    omega
  · rw [List.take_append_of_le_length (by omega), Channel.frame, List.take_take, Nat.min_eq_left (by omega), hfield]

/-- A step that adds a record runs a command word (R97). -/
theorem exec_of_new_record {s t : State} {r : Record} (hstep : step s = .next t) (hout : t.out = s.out ++ [r]) :
    ∃ w now rest, exec (decode s.cfg.nCh w) { s with input := rest, now := now } = .next t := by
  have hnew : t.out ≠ s.out := fun h => by simp [h] at hout
  obtain ⟨-, ⟨-, rfl⟩ | ⟨rest, -, rfl⟩ | ⟨rest, -, rfl⟩ | ⟨w, now, rest, -, -, hexec⟩⟩ := step_next hstep
  · exact absurd rfl hnew
  · exact absurd rfl hnew
  · exact absurd rfl hnew
  · exact ⟨w, now, rest, hexec⟩

/-- An instruction that adds a FRAME record is of the record's channel, whose candidate is at the last byte of that frame. -/
theorem recOk_of_exec {i : Instr} {s t : State} {c : ChanNo} {ts : Time} {n : BitVec 17} {bytes : List Byte}
    (h : exec i s = .next t) (hout : t.out = s.out ++ [.frame c ts n bytes]) :
    instrChan i = some c ∧ RecOk c (s.chan c) (some (.frame c ts n bytes)) := by
  obtain ⟨u, hu, hrecord⟩ := recordsComeFromTheirCommands i s
  rw [h] at hu
  cases hu
  rcases hrecord with hsame | ⟨r, hr, hsource⟩
  · simp [hsame] at hout
  · obtain rfl : r = .frame c ts n bytes := by simpa using hr.symm.trans hout
    obtain ⟨htakes, hc, -⟩ := hsource
    obtain ⟨d, v, r, hd, hv, hvout, hrec⟩ := exec_takesLineBit htakes s
    obtain rfl : c = d := Option.some.inj (hc.symm.trans hd)
    rw [h] at hv
    cases hv
    obtain rfl : r = some (.frame c ts n bytes) := by
      cases r <;> simpa [hout] using hvout.symm
    exact ⟨hc, hrec⟩

/-- The channel of a well-formed instruction exists. -/
theorem hasChan_of_wf {cfg : Config} {i : Instr} {c : ChanNo} (h : i.wf cfg = true) (hc : instrChan i = some c) : cfg.hasChan c := by
  cases i <;> cases hc <;> exact of_decide_eq_true h

/-- Settles O43: the record is the one that a valid candidate of its channel produces at its last byte. -/
theorem emittedFramesAreFramesOfABody : Obligations.EmittedFramesAreFramesOfABody := by
  intro s t c ts n bytes hinv hstep hout
  obtain ⟨w, now, rest, hexec⟩ := exec_of_new_record hstep hout
  obtain ⟨hc, hrec⟩ : instrChan _ = some c ∧ RecOk c (s.chan c) (some (.frame c ts n bytes)) :=
    recOk_of_exec (s := { s with input := rest, now := now }) hexec hout
  have hch : (s.chan c).Inv s.cfg := chan_inv hinv c
  obtain ⟨hwf, -⟩ := encodeOfDecodeIsTheWord s.cfg w
  rcases hrec with hnone | ⟨hst, f, hvalid, -, hrem, hrecord, y, hf⟩
  · cases hnone
  · cases hrecord
    obtain ⟨hlen, hfield⟩ := frame_of_last_byte hch hst hrem y
    rw [← hf] at hlen hfield
    obtain ⟨body, hbody, hframe⟩ := eq_frameOf_of_valid hvalid hlen hfield
    obtain ⟨-, -, -, hbodyInv⟩ := hch
    obtain ⟨-, -, -, -, hmin, hmax, -⟩ := hbodyInv hst
    refine ⟨hasChan_of_wf hwf hc, rfl, hst, hvalid, ?_, body, hframe, by omega, by omega⟩
    have hlw : (s.chan c).lp.lw ≤ 2 := by cases (s.chan c).lp <;> decide
    have hL := (s.chan c).len.isLt
    rw [BitVec.toNat_ofNat, Nat.mod_eq_of_lt (by omega)]

end Sys2Proof.Machine
end

section
/-! The proofs of the family `40_crc.md`: the CRC functions in numbers and with the spec's values (R121 to R124), validity and its
residue form (R125 to R128), and the standalone CRC unit (R129 to R133). -/

namespace Sys2Proof.Machine

/-! ## One bit and one byte (R121, R122) -/

/-- The bit fed back is the parity of the register and the message bit. -/
theorem feedback_iff (c : Half) (m : Bool) : (c.getLsbD 0 ^^ m) = true ↔ (c.toNat % 2 + m.toNat) % 2 = 1 := by
  rw [BitVec.getLsbD, Nat.testBit_zero]
  cases m
  · simp
  · simp only [Bool.xor_true, Bool.not_eq_true', decide_eq_false_iff_not, Bool.toNat_true]
    omega

/-- Settles O14: the register moves right, and the polynomial is added where the bit fed back is 1. -/
theorem crcBitStep : Obligations.CrcBitStep := by
  refine ⟨fun c m => ?_, by decide, by decide⟩
  have hhalf : (c >>> 1).toNat = c.toNat / 2 := BitVec.toNat_ushiftRight ..
  simp only [crcBit, feedback_iff]
  split
  · rw [BitVec.toNat_xor, hhalf]; rfl
  · exact hhalf

/-- Settles O15: the list of a byte's bits written out. -/
theorem crcByteStep : Obligations.CrcByteStep := by
  refine ⟨fun c d => rfl, ?_, ?_, ?_, ?_, ?_, ?_, ?_⟩ <;> decide

/-! ## The checksum and its serialisation (R123, R124) -/

/-- R124 in numbers: the low byte, then the high byte. -/
theorem ser_toNat (v : Half) : (ser v).map BitVec.toNat = [v.toNat % 256, v.toNat / 256] := by
  have hv := v.isLt
  have hhigh : v.toNat / 256 % 256 = v.toNat / 256 := Nat.mod_eq_of_lt (by omega)
  simp [ser, BitVec.extractLsb'_toNat, Nat.shiftRight_eq_div_pow, hhigh]

/-- Settles O16: the checksum by its definition, its values by evaluation. -/
theorem checksumAndSerialisation : Obligations.ChecksumAndSerialisation := by
  refine ⟨fun s => rfl, ?_, ?_, ?_, ?_, ser_toNat, ?_⟩ <;> decide +kernel

/-! ## Validity (R125 to R128) -/

/-- R125: the last two bytes hold the checksum of the rest. -/
theorem valid_iff (f : List Byte) :
    valid f = true ↔ 2 ≤ f.length ∧
      checksum (f.take (f.length - 2)) = deser (f.getD (f.length - 2) 0#8) (f.getD (f.length - 1) 0#8) := by
  rw [valid, Bool.and_eq_true, decide_eq_true_iff, beq_iff_eq]

/-- Settles O17: the checksum and the value of the last two bytes are compared as numbers. -/
theorem frameValidity : Obligations.FrameValidity := by
  refine ⟨fun f => ?_, fun f => valid_short, by decide +kernel⟩
  rw [valid_iff, ← BitVec.toNat_inj, deser_toNat]

/-- Two bytes leave the residue exactly when they hold the complement of the register: one register leads to it over them, because a
step loses nothing of the register. -/
theorem crcBytes_ser_eq_residue (c v : Half) : crcBytes c (ser v) = 0xF0B8#16 ↔ c ^^^ 0xFFFF#16 = v := by
  constructor
  · intro h
    have hv : crcBytes (v ^^^ 0xFFFF#16) (ser v) = 0xF0B8#16 := by
      simpa [BitVec.xor_assoc] using crcBytes_residue (v ^^^ 0xFFFF#16)
    rw [crcBytes_inj (h.trans hv.symm), BitVec.xor_assoc, BitVec.xor_self, BitVec.xor_zero]
  · rintro rfl
    exact crcBytes_residue c

/-- R128: the residue form of validity. -/
theorem valid_iff_residue {f : List Byte} (h : 2 ≤ f.length) : valid f = true ↔ crcBytes 0xFFFF#16 f = 0xF0B8#16 := by
  obtain ⟨m, lo, hi, rfl⟩ := exists_last_two h
  rw [valid_append, beq_iff_eq, crcBytes_append, ← ser_deser lo hi, crcBytes_ser_eq_residue, checksum]

/-- Settles O19: a message's own checksum leaves the residue, and nothing else does. -/
theorem residueFormAgrees : Obligations.ResidueFormAgrees := by
  refine ⟨fun m => ?_, fun f => valid_iff_residue⟩
  calc crcBytes 0xFFFF#16 (m ++ ser (checksum m))
    _ = crcBytes (crcBytes 0xFFFF#16 m) (ser (checksum m)) := crcBytes_append ..
    _ = 0xF0B8#16 := crcBytes_residue _

/-- R127 (a). -/
theorem valid_append_checksum (m : List Byte) : valid (m ++ ser (checksum m)) = true := by
  rw [ser, valid_append, deser_ser, beq_self_eq_true]

/-- One byte of a sequence holds the bit that `flipBit` flips. -/
theorem flipBit_parts {f : List Byte} {k : Nat} (hk : k < 8 * f.length) :
    ∃ a y b, f = a ++ y :: b ∧ flipBit f k = a ++ (y ^^^ (1#8 <<< (k % 8))) :: b := by
  have hbyte : k / 8 < f.length := by omega
  refine ⟨f.take (k / 8), f[k / 8], f.drop (k / 8 + 1), ?_, List.modify_eq_take_cons_drop hbyte⟩
  rw [← List.drop_eq_getElem_cons hbyte, List.take_append_drop]

/-- R127 (b): a valid sequence with one bit flipped leaves another register than the residue. -/
theorem valid_flipBit {f : List Byte} {k : Nat} (hvalid : valid f = true) (hk : k < 8 * f.length) : valid (flipBit f k) = false := by
  have hlen : 2 ≤ f.length := ((valid_iff f).mp hvalid).1
  have hlen' : 2 ≤ (flipBit f k).length := by rwa [flipBit, List.length_modify]
  rw [valid_iff_residue hlen] at hvalid
  rw [Bool.eq_false_iff, ne_eq, valid_iff_residue hlen', ← hvalid]
  obtain ⟨a, y, b, hf, hflip⟩ := flipBit_parts hk
  rw [hflip, hf]
  exact crcBytes_flip_ne _ a b y (Nat.mod_lt k (by decide))

/-- Settles O18: R127 (b) of the valid sequence of R127 (a). -/
theorem roundTripAndSingleBitErrors : Obligations.RoundTripAndSingleBitErrors := by
  intro m
  refine ⟨valid_append_checksum m, fun k hk => valid_flipBit (valid_append_checksum m) ?_⟩
  simpa [ser] using hk

/-! ## The commands of the standalone unit (R130 to R133) -/

theorem exec_cinit (s : State) : exec .cinit s = .next { s with crcS := 0xFFFF#16 } := rfl

theorem exec_cbyte (d : Byte) (s : State) : exec (.cbyte d) s = .next { s with crcS := crcByte s.crcS d } := rfl

theorem exec_crd (s : State) : exec .crd s = .next { s with out := s.out ++ [.crcv (s.crcS ^^^ 0xFFFF#16)] } := rfl

/-- Settles O21: the meaning of each command. -/
theorem crcCommandsAct : Obligations.CrcCommandsAct := fun s => ⟨exec_cinit s, fun d => exec_cbyte d s, exec_crd s⟩

/-- CBYTE on a register of known value. -/
theorem exec_cbyte_register {s : State} {c c' : Half} {d : Byte} (hs : s.crcS = c) (hc : crcByte c d = c') :
    ∃ t, exec (.cbyte d) s = .next t ∧ t.crcS = c' :=
  ⟨_, exec_cbyte d s, by rw [← hc, ← hs]⟩

/-- Settles O20: each command finds the register that the one before it left. -/
theorem cbyteRegisterTrace : Obligations.CbyteRegisterTrace := by
  intro s hs
  obtain ⟨t1, e1, h1⟩ := exec_cbyte_register (d := 0x31#8) (c' := 0x2F8D#16) hs (by decide)
  obtain ⟨t2, e2, h2⟩ := exec_cbyte_register (d := 0x32#8) (c' := 0x4D53#16) h1 (by decide)
  obtain ⟨t3, e3, h3⟩ := exec_cbyte_register (d := 0x33#8) (c' := 0x634B#16) h2 (by decide)
  obtain ⟨t4, e4, h4⟩ := exec_cbyte_register (d := 0x34#8) (c' := 0x8B13#16) h3 (by decide)
  obtain ⟨t5, e5, h5⟩ := exec_cbyte_register (d := 0x35#8) (c' := 0x44BF#16) h4 (by decide)
  obtain ⟨t6, e6, h6⟩ := exec_cbyte_register (d := 0x36#8) (c' := 0x198D#16) h5 (by decide)
  obtain ⟨t7, e7, h7⟩ := exec_cbyte_register (d := 0x37#8) (c' := 0x1AC8#16) h6 (by decide)
  obtain ⟨t8, e8, h8⟩ := exec_cbyte_register (d := 0x38#8) (c' := 0xF795#16) h7 (by decide)
  obtain ⟨t9, e9, h9⟩ := exec_cbyte_register (d := 0x39#8) (c' := 0x6F91#16) h8 (by decide)
  exact ⟨t1, t2, t3, t4, t5, t6, t7, t8, t9, e1, h1, e2, h2, e3, h3, e4, h4, e5, h5, e6, h6, e7, h7, e8, h8, e9, h9,
    by rw [h9]; decide⟩

/-! ## R132's procedure -/

/-- The first of the commands supplied is the one that the step runs; the others stay in the input. -/
theorem step_first_cmd {s : State} {cmds : List (Word × Time)} {w : Word} {ws : List Word} {rest : List Event}
    (hwf : s.cfg.Wf) (hstarted : s.started = true) (hcmds : cmds.map Prod.fst = w :: ws)
    (hin : s.input = cmdEvents cmds ++ rest) :
    ∃ now cmds', cmds'.map Prod.fst = ws ∧
      step s = exec (decode s.cfg.nCh w) { s with input := cmdEvents cmds' ++ rest, now := now } := by
  obtain ⟨⟨w, now⟩, cmds', rfl, rfl, hws⟩ := List.map_eq_cons_iff.mp hcmds
  exact ⟨now, cmds', hws, step_cmd hwf hstarted hin⟩

/-- CBYTE commands, and a CRD after them, fold their bytes into the register and read its complement. -/
theorem steps_cbytes_crd (bytes : List Byte) :
    ∀ (s : State) (cmds : List (Word × Time)) (rest : List Event), s.cfg.Wf → s.started = true →
      cmds.map Prod.fst = cbyteWords bytes ++ [cmdWord 6#4 0#8 0#8] → s.input = cmdEvents cmds ++ rest →
      ∃ now, steps (bytes.length + 1) s = .next { s with
        input := rest
        now := now
        crcS := crcBytes s.crcS bytes
        out := s.out ++ [.crcv (crcBytes s.crcS bytes ^^^ 0xFFFF#16)] } := by
  induction bytes with
  | nil =>
    intro s cmds rest hwf hstarted hcmds hin
    obtain ⟨now, cmds', hnil, hstep⟩ := step_first_cmd hwf hstarted hcmds hin
    obtain rfl := List.map_eq_nil_iff.mp hnil
    rw [decode_crdWord, exec_crd] at hstep
    exact ⟨now, steps_succ hstep 0⟩
  | cons d bytes ih =>
    intro s cmds rest hwf hstarted hcmds hin
    obtain ⟨now, cmds', hcmds', hstep⟩ := step_first_cmd hwf hstarted hcmds hin
    rw [decode_cbyteWord, exec_cbyte] at hstep
    obtain ⟨now', h⟩ := ih { s with input := cmdEvents cmds' ++ rest, now := now, crcS := crcByte s.crcS d } cmds' rest hwf hstarted hcmds' rfl
    exact ⟨now', (steps_succ hstep _).trans h⟩

/-- Settles O22: CINIT sets the register that the checksum starts from, and the bytes and CRD follow. -/
theorem standaloneUnitComputesTheChecksum : Obligations.StandaloneUnitComputesTheChecksum := by
  intro s bytes cmds rest hwf hstarted hcmds hin
  have hword : ∀ d : Byte, 0x50000000#32 ||| d.setWidth 32 = cmdWord 5#4 0#8 d := by decide
  have hcmds : cmds.map Prod.fst = cmdWord 4#4 0#8 0#8 :: (cbyteWords bytes ++ [cmdWord 6#4 0#8 0#8]) := by
    simp only [hword] at hcmds
    exact hcmds
  obtain ⟨now, cmds', hcmds', hstep⟩ := step_first_cmd hwf hstarted hcmds hin
  rw [decode_cinitWord, exec_cinit] at hstep
  obtain ⟨now', h⟩ :=
    steps_cbytes_crd bytes { s with input := cmdEvents cmds' ++ rest, now := now, crcS := 0xFFFF#16 } cmds' rest hwf hstarted hcmds' rfl
  refine ⟨_, (steps_succ hstep _).trans h, rfl, ?_, rfl, rfl, rfl, rfl⟩
  rw [checksum, BitVec.xor_assoc, BitVec.xor_self, BitVec.xor_zero]

/-! ## The framer and the standalone unit (R129) -/

/-- A change of one channel does not read the CRC register. -/
theorem onChan_with_crcS (s : State) (c : ChanNo) (f : Channel → Channel × Option Record) (v : Half) :
    ({ s with crcS := v } : State).onChan c f = { s.onChan c f with crcS := v } := by
  show State.emitOpt { s.setChan c (f (s.chan c)).1 with crcS := v } (f (s.chan c)).2 = _
  rw [State.onChan]
  cases (f (s.chan c)).2 <;> rfl

/-- Settles O55: an instruction of a channel is a change of that channel, and a command of the CRC unit names no channel. -/
theorem framerAndCrcUnitAreSeparate : Obligations.FramerAndCrcUnitAreSeparate := by
  intro i s t h
  constructor
  · rintro ⟨c, hc⟩
    obtain ⟨f, -, -, hexec, -⟩ := exec_chan hc
    rw [hexec s] at h
    cases h
    refine ⟨State.onChan_crcS .., fun v => ?_⟩
    rw [hexec { s with crcS := v }, onChan_with_crcS]
  · rintro (rfl | ⟨d, rfl⟩ | rfl)
    · cases h; exact ⟨rfl, fun chs => rfl⟩
    · cases h; exact ⟨rfl, fun chs => rfl⟩
    · cases h; exact ⟨rfl, fun chs => rfl⟩

end Sys2Proof.Machine
end

section
/-! The proofs of the family `41_linecode.md`: the search (R151 to R155), the line symbols and the LBITs that complete them (R152, R158
to R161), whole bytes (R163 to R165), and how a candidate ends (R156, R166). -/

namespace Sys2Proof.Machine

/-! ## The search (R151 to R155) -/

/-- A legal configuration's window fits its carrier (R10, R35). -/
theorem patW_le_64 {cfg : Config} (hw : cfg.Wf) : cfg.patW ≤ 64 := by
  obtain ⟨-, ⟨-, hsyncW⟩, -⟩ := hw
  simp only [Config.patW, Config.preambleW]
  omega

/-- A window that matches is full. -/
theorem fill_of_windowIs {cfg : Config} {pat : Window} {ch : Channel} (h : ch.windowIs cfg pat = true) : ch.fill = cfg.patW := by
  rw [Channel.windowIs, Bool.and_eq_true, beq_iff_eq] at h
  exact h.1

/-- The match test by the window's value (R150, R152, R153). -/
theorem matchTest_by_value {cfg : Config} (hw : cfg.Wf) (now : Time) (ch : Channel) :
    ch.matchTest cfg now =
      if ch.fill = 32 + cfg.syncW ∧ ch.sh.toNat = patternValue cfg .man then ch.syncMatch cfg now .man
      else if ch.fill = 32 + cfg.syncW ∧ ch.sh.toNat = patternValue cfg .dir then ch.syncMatch cfg now .dir
      else ch := by
  have hA : ch.windowIs cfg cfg.patA = true ↔ _ := windowIs_iff hw .man
  have hB : ch.windowIs cfg cfg.patB = true ↔ _ := windowIs_iff hw .dir
  simp only [Channel.matchTest, hA, hB]

/-- The match test keeps the search window. -/
theorem matchTest_window (cfg : Config) (now : Time) (ch : Channel) :
    (ch.matchTest cfg now).sh = ch.sh ∧ (ch.matchTest cfg now).fill = ch.fill := by
  rcases matchTest_cases cfg now ch with ⟨-, e⟩ | ⟨-, -, e⟩ | ⟨-, -, e⟩ <;> rw [e] <;> exact ⟨rfl, rfl⟩

/-- Settles O23: the search shift, then the match test by the shifted window's value. -/
theorem lbitInSearchShiftsAndTests : Obligations.LbitInSearchShiftsAndTests := by
  intro s c b hw hs hst ch patW sh fill
  obtain ⟨honly, hout, hchan⟩ := onChan_quiet (f := Channel.lineBit s.cfg c s.now b) hs (lineBit_search hst)
  obtain ⟨hsame, hsameFill⟩ := matchTest_window s.cfg s.now (ch.searchShift s.cfg b)
  have hsh : (ch.searchShift s.cfg b).sh.toNat = sh := searchShift_sh_toNat (patW_le_64 hw) b ch
  have hfill : (ch.searchShift s.cfg b).fill = fill := rfl
  refine ⟨_, exec_lbit c b s, honly, hout, ?_⟩
  rw [hchan, hsame, hsameFill]
  refine ⟨hsh, hfill, ?_⟩
  rw [matchTest_by_value hw, hsh, hfill]
  split_ifs
  · exact ⟨lowBits_toNat _ _, rfl⟩
  · exact ⟨lowBits_toNat _ _, rfl⟩
  · rfl

/-- Settles O25: each LBIT of the run leaves the window short, and so it only shifts. -/
theorem noMatchBeforeTheWindowIsFull : Obligations.NoMatchBeforeTheWindowIsFull := by
  intro cfg c bits ch hw hst hshort
  obtain ⟨sh, e, -⟩ := lineBits_search_short c (patW_le_64 hw) bits ch hst hshort
  exact ⟨sh, e⟩

/-- Settles O26: the steps are the channel's own run over the header. -/
theorem headerStartsACandidate : Obligations.HeaderStartsACandidate := by
  intro s c lp bits last rest hw hstarted hs hin hheader hst hfill
  obtain ⟨t, hrun, hmatched⟩ := header_run hw c lp bits last (s.chan c) hst hfill hheader
  obtain ⟨now, hsteps⟩ := steps_lbitEvents c (bits ++ [last]) s rest hw hstarted hs.1 hs.2 hin
  have hlength : (bits ++ [last]).length = 32 + s.cfg.syncW := by
    rw [← List.length_map Prod.fst, hheader, header_length]
    rfl
  rw [hrun, hlength] at hsteps
  have hchan : (s.setChan c t).chan c = t := State.setChan_chan_same (has_lt hs) t
  refine ⟨_, hsteps, rfl, ⟨rfl, rfl, rfl, rfl, List.length_set, fun d hd => State.setChan_chan_other hd t⟩, List.append_nil _, ?_⟩
  show (s.chan c).Matched lp _ ((s.setChan c t).chan c)
  rw [hchan]
  exact hmatched

/-! ## Sync words as instructions (R152, R153) -/

/-- The pattern that selects a protocol (R150). -/
def syncPattern (cfg : Config) : LineProtocol → Window
  | .man => cfg.patA
  | .dir => cfg.patB

/-- The instruction of a protocol's sync word. -/
def decodeSync (c : ChanNo) : LineProtocol → Instr
  | .man => .syncA c
  | .dir => .syncB c

theorem exec_decodeSync (c : ChanNo) (p : LineProtocol) (s : State) :
    exec (decodeSync c p) s = .next (s.setChan c ((s.chan c).syncSymbol s.cfg s.now p)) := by
  cases p <;> rfl

/-- What a full window holding a protocol's pattern is, in numbers (R150). -/
theorem windowIs_syncPattern_iff {cfg : Config} (hw : cfg.Wf) {ch : Channel} (p : LineProtocol) :
    ch.windowIs cfg (syncPattern cfg p) = true ↔ ch.fill = 32 + cfg.syncW ∧ ch.sh.toNat = patternValue cfg p := by
  cases p
  · exact windowIs_iff hw .man
  · exact windowIs_iff hw .dir

/-- A sync word of either protocol is recognised in SEARCH in a window that holds its pattern, B only where A is not (R153). -/
theorem syncSymbol_due {cfg : Config} {p : LineProtocol} {ch : Channel} (hst : ch.st = .search)
    (hwin : ch.windowIs cfg (syncPattern cfg p) = true) (hfirst : p = .dir → ch.windowIs cfg cfg.patA = false) (now : Time) :
    ch.syncSymbol cfg now p = ch.syncMatch cfg now p := by
  cases p with
  | man => exact if_pos ⟨hst, hwin⟩
  | dir => exact if_pos ⟨hst, hwin, by rw [hfirst rfl]; rfl⟩

/-- A sync word outside SEARCH or without its pattern in the window is not recognised. -/
theorem syncSymbol_not_due {cfg : Config} {p : LineProtocol} {ch : Channel}
    (h : ¬ (ch.st = .search ∧ ch.windowIs cfg (syncPattern cfg p) = true)) (now : Time) : ch.syncSymbol cfg now p = ch := by
  cases p with
  | man => exact if_neg h
  | dir => exact if_neg fun ⟨hst, hwin, _⟩ => h ⟨hst, hwin⟩

/-- A legal configuration's sync word on a full window with its pattern's value starts a candidate, and the window stays (R154). -/
theorem exec_sync_due {s : State} {c : ChanNo} {p : LineProtocol} (hw : s.cfg.Wf) (hs : s.Has c) (hst : (s.chan c).st = .search)
    (hfill : (s.chan c).fill = 32 + s.cfg.syncW) (hsh : (s.chan c).sh.toNat = patternValue s.cfg p) :
    ∃ t, exec (decodeSync c p) s = .next t ∧ s.OnlyChan c t ∧ t.out = s.out ∧
      (s.chan c).Matched p (s.now.toNat % 2 ^ s.cfg.tsW) (t.chan c) ∧
      (t.chan c).sh = (s.chan c).sh ∧ (t.chan c).fill = (s.chan c).fill := by
  have hwin := (windowIs_syncPattern_iff hw p).mpr ⟨hfill, hsh⟩
  have hfirst : p = .dir → (s.chan c).windowIs s.cfg s.cfg.patA = false := by
    rintro rfl
    exact windowIs_patA_of_dir hw hsh
  refine ⟨_, exec_decodeSync c p s, setChan_only .., rfl, ?_⟩
  rw [State.setChan_chan_same (has_lt hs), syncSymbol_due hst hwin hfirst]
  exact ⟨⟨lowBits_toNat _ _, rfl⟩, rfl, rfl⟩

/-- Settles O24: each sync word with its own pattern's value. -/
theorem syncSymbolsStartCandidates : Obligations.SyncSymbolsStartCandidates := fun _ _ hw hs hst hfill =>
  ⟨exec_sync_due (p := .man) hw hs hst hfill, exec_sync_due (p := .dir) hw hs hst hfill⟩

/-- A sync word that is not recognised changes nothing. -/
theorem exec_sync_not_due {s : State} {c : ChanNo} {p : LineProtocol}
    (h : ¬ ((s.chan c).st = .search ∧ (s.chan c).windowIs s.cfg (syncPattern s.cfg p) = true)) : exec (decodeSync c p) s = .next s := by
  rw [exec_decodeSync, syncSymbol_not_due h, State.setChan_chan_self]

/-! ## Pairs and direct bits as instructions (R158 to R161) -/

/-- A pair is due in a Manchester candidate that holds its first half. -/
theorem pairDue_iff {p1 : Bool} {ch : Channel} :
    ch.pairDue p1 = true ↔ ch.st ≠ .search ∧ ch.lp = .man ∧ ch.hv = true ∧ ch.hb = p1 := by
  simp [Channel.pairDue, and_assoc]

/-- A direct bit is due in a direct candidate. -/
theorem directDue_iff {ch : Channel} : ch.directDue = true ↔ ch.st ≠ .search ∧ ch.lp = .dir := by
  simp [Channel.directDue]

/-- A change of a channel that leaves it as it was, without a record, leaves the state as it was. -/
theorem onChan_self {s : State} {c : ChanNo} {f : Channel → Channel × Option Record} (h : f (s.chan c) = (s.chan c, none)) :
    s.onChan c f = s := by
  rw [State.onChan_eq_setChan h, State.setChan_chan_self]

/-- A pair that is not due changes nothing. -/
theorem exec_pair_not_due {s : State} {c : ChanNo} {p1 : Bool} (h : (s.chan c).pairDue p1 = false) (p2 : Bool) :
    exec (decodePair c p1 p2) s = .next s := by
  rw [exec_decodePair, onChan_self (by simp [Channel.pairSymbol, h])]

/-- A direct bit that is not due changes nothing. -/
theorem exec_directBit_not_due {s : State} {c : ChanNo} (h : (s.chan c).directDue = false) (q : Bool) :
    exec (decodeBit c q) s = .next s := by
  rw [exec_decodeBit, onChan_self (by simp [Channel.directSymbol, h])]

/-- Settles O28: the two sync words with what keeps each from being recognised, then the pairs and the direct bits. -/
theorem symbolsNotDueChangeNothing : Obligations.SymbolsNotDueChangeNothing := by
  intro s c
  have outside : (s.chan c).st ≠ .search → ∀ p, exec (decodeSync c p) s = .next s :=
    fun hst p => exec_sync_not_due fun ⟨h, _⟩ => hst h
  have short : (s.chan c).fill ≠ 32 + s.cfg.syncW → ∀ p, exec (decodeSync c p) s = .next s :=
    fun hfill p => exec_sync_not_due fun ⟨_, hwin⟩ => hfill (fill_of_windowIs hwin)
  have other : s.cfg.Wf → ∀ p, (s.chan c).sh.toNat ≠ patternValue s.cfg p → exec (decodeSync c p) s = .next s :=
    fun hw p hsh => exec_sync_not_due fun ⟨_, hwin⟩ => hsh ((windowIs_syncPattern_iff hw p).mp hwin).2
  exact ⟨fun h => ⟨outside h .man, outside h .dir⟩, fun h => ⟨short h .man, short h .dir⟩, fun hw => other hw .man,
    fun hw => other hw .dir, fun p1 p2 h => exec_pair_not_due h p2, fun q h => exec_directBit_not_due h q⟩

/-! ## The LBIT that completes a symbol (R152, R160, R161) -/

/-- LBIT in SEARCH writes its channel with the shifted and tested window, and produces no record. -/
theorem exec_lbit_search {s : State} {c : ChanNo} {b : Bool} (hst : (s.chan c).st = .search) :
    exec (.lbit c b) s = .next (s.setChan c (((s.chan c).searchShift s.cfg b).matchTest s.cfg s.now)) := by
  rw [exec_lbit, State.onChan_eq_setChan (lineBit_search hst)]

/-- An LBIT in SEARCH whose match test finds a pattern is the sync word's instruction on the state with the window shifted. -/
theorem exec_lbit_eq_sync {s : State} {c : ChanNo} {b : Bool} {p : LineProtocol} (hs : s.Has c) (hst : (s.chan c).st = .search)
    (hwin : ((s.chan c).searchShift s.cfg b).windowIs s.cfg (syncPattern s.cfg p) = true)
    (hfirst : p = .dir → ((s.chan c).searchShift s.cfg b).windowIs s.cfg s.cfg.patA = false) :
    exec (.lbit c b) s = exec (decodeSync c p) (s.setChan c ((s.chan c).searchShift s.cfg b)) := by
  have hmatch : ((s.chan c).searchShift s.cfg b).matchTest s.cfg s.now = ((s.chan c).searchShift s.cfg b).syncMatch s.cfg s.now p := by
    cases p with
    | man => exact if_pos hwin
    | dir => exact (if_neg (by rw [hfirst rfl]; decide)).trans (if_pos hwin)
  have hsymbol : ((s.chan c).searchShift s.cfg b).syncSymbol s.cfg s.now p = ((s.chan c).searchShift s.cfg b).syncMatch s.cfg s.now p :=
    syncSymbol_due (ch := (s.chan c).searchShift s.cfg b) hst hwin hfirst s.now
  rw [exec_lbit_search hst, exec_decodeSync, State.setChan_chan_same (has_lt hs), State.setChan_setChan, hmatch,
    State.setChan_cfg, State.setChan_now, hsymbol]

/-- An LBIT with a first half held is the pair's instruction. -/
theorem exec_lbit_eq_pair {s : State} {c : ChanNo} {p1 : Bool} (h : (s.chan c).pairDue p1 = true) (b : Bool) :
    exec (.lbit c b) s = exec (decodePair c p1 b) s := by
  obtain ⟨hst, hlp, hhv, hhb⟩ := pairDue_iff.mp h
  have hchan : (s.chan c).lineBit s.cfg c s.now b = (s.chan c).pairSymbol s.cfg c p1 b := by
    rw [lineBit_man hst hlp, if_pos hhv, hhb, Channel.pairSymbol, if_pos h]
  rw [exec_lbit, exec_decodePair, State.onChan_congr hchan]

/-- An LBIT in a direct candidate is the direct bit's instruction. -/
theorem exec_lbit_eq_directBit {s : State} {c : ChanNo} (h : (s.chan c).directDue = true) (b : Bool) :
    exec (.lbit c b) s = exec (decodeBit c b) s := by
  obtain ⟨hst, hlp⟩ := directDue_iff.mp h
  rw [exec_lbit, exec_decodeBit, State.onChan_congr ((lineBit_dir hst hlp).trans (directSymbol_due h b).symm)]

/-- Settles O27: by what the match test finds in the shifted window, and by what the line decoders hold. -/
theorem lbitCompletesLineSymbols : Obligations.LbitCompletesLineSymbols := by
  intro s c b hs
  refine ⟨fun hst => ?_, fun p1 h => exec_lbit_eq_pair h b, fun h => exec_lbit_eq_directBit h b⟩
  intro u
  have hu : u.chan c = (s.chan c).searchShift s.cfg b := State.setChan_chan_same (has_lt hs) _
  rw [hu]
  refine ⟨fun hA => ?_, fun hA hB => ?_, fun hA hB => ?_⟩
  · exact exec_lbit_eq_sync (p := .man) hs hst hA nofun
  · exact exec_lbit_eq_sync (p := .dir) hs hst hB fun _ => hA
  · have hnone : ((s.chan c).searchShift s.cfg b).matchTest s.cfg s.now = (s.chan c).searchShift s.cfg b := by
      simp [Channel.matchTest, hA, hB]
    rw [exec_lbit_search hst, hnone]

/-- Settles O29: the Manchester decoder latches a first half. -/
theorem firstHalfIsLatched : Obligations.FirstHalfIsLatched := by
  intro s c b hs hst hlp hhv
  have hlatch : (s.chan c).lineBit s.cfg c s.now b = ((s.chan c).latch b, none) := by
    rw [lineBit_man hst hlp, if_neg (by simp [hhv])]
  exact ⟨_, exec_lbit c b s, onChan_quiet hs hlatch⟩

/-! ## Whole bytes (R163 to R165) -/

/-- The data bit of a pair in numbers (R98), with R160's placeholder for a colliding pair. -/
theorem pairData_toNat (pol : ManchPol) (p1 p2 : Bool) :
    (pairData pol p1 p2).toNat = if p1 = p2 then 0 else if pol = .first then p1.toNat else p2.toNat := by
  unfold pairData
  split
  · rfl
  · cases pol <;> rfl

/-- R163, R164: the eighth data bit completes a raw byte, whose frame byte is de-whitened. -/
theorem deliver_eighth (cfg : Config) (c : ChanNo) (d : Bool) {ch : Channel} (hnb : ch.nb = 7) :
    ∃ y : Byte, ch.deliver cfg c d = ({ ch with acc := 0#8, nb := 0 } : Channel).frameByte cfg c y ∧
      y.toNat = ch.nextAcc cfg.bitOrder d.toNat ^^^ ch.lp.mask.toNat := by
  rcases deliver_cases cfg c d ch with ⟨hne, -⟩ | ⟨-, e⟩
  · exact absurd hnb hne
  · have hacc : (addDataBit cfg.bitOrder ch.acc d).toNat = ch.nextAcc cfg.bitOrder d.toNat :=
      (addDataBit_toNat cfg.bitOrder ch.acc d).trans (by cases cfg.bitOrder <;> rfl)
    exact ⟨_, e, by rw [BitVec.toNat_xor, hacc]⟩

/-- Settles O32: the pair or direct bit due delivers the eighth data bit. -/
theorem eighthDataBitCompletesAFrameByte : Obligations.EighthDataBitCompletesAFrameByte := by
  intro s c hs hst hnb ch
  refine ⟨fun hlp hhv p2 => ?_, fun hlp q => ?_⟩
  · have hdue : (s.chan c).pairDue ch.hb = true := pairDue_iff.mpr ⟨hst, hlp, hhv, rfl⟩
    obtain ⟨y, e, hy⟩ := deliver_eighth s.cfg c (pairData s.cfg.manchPol ch.hb p2) (ch := ch.pairFlags ch.hb p2) hnb
    have hsymbol := (pairSymbol_due hdue p2).trans e
    rw [pairData_toNat, Channel.pairFlags_lp, hlp] at hy
    refine ⟨_, y, exec_decodePair c ch.hb p2 s, hy, onChan_only .., ?_, ?_⟩
    · rw [State.onChan_chan_same (has_lt hs), hsymbol]; rfl
    · rw [State.onChan_out, hsymbol]; rfl
  · have hdue : (s.chan c).directDue = true := directDue_iff.mpr ⟨hst, hlp⟩
    obtain ⟨y, e, hy⟩ := deliver_eighth s.cfg c (!q) (ch := ch) hnb
    have hsymbol := (directSymbol_due hdue q).trans e
    have hnot : (!q).toNat = 1 - q.toNat := by cases q <;> rfl
    rw [hnot, hlp] at hy
    refine ⟨_, y, exec_decodeBit c q s, hy, onChan_only .., ?_, ?_⟩
    · rw [State.onChan_chan_same (has_lt hs), hsymbol]
    · rw [State.onChan_out, hsymbol]

/-- Eight inverted data bits assemble to the complement of the byte (R73, R161). -/
theorem assemble_inverted (order : BitOrder) {q : List Bool} (hq : q.length = 8) :
    (q.map (!·)).foldl (addDataBit order) 0#8 = ~~~(q.foldl (addDataBit order) 0#8) := by
  match q, hq with
  | [d0, d1, d2, d3, d4, d5, d6, d7], _ =>
    have hnot : ∀ d : Bool, (!d).toNat + d.toNat = 1 := by decide
    obtain ⟨hmsb, hlsb⟩ := dataBitOrderOfAByte d0 d1 d2 d3 d4 d5 d6 d7
    obtain ⟨hmsb', hlsb'⟩ := dataBitOrderOfAByte (!d0) (!d1) (!d2) (!d3) (!d4) (!d5) (!d6) (!d7)
    have h0 := hnot d0
    have h1 := hnot d1
    have h2 := hnot d2
    have h3 := hnot d3
    have h4 := hnot d4
    have h5 := hnot d5
    have h6 := hnot d6
    have h7 := hnot d7
    apply BitVec.eq_of_toNat_eq
    rw [BitVec.toNat_not]
    cases order
    · rw [hmsb]
      refine hmsb'.trans ?_
      omega
    · rw [hlsb]
      refine hlsb'.trans ?_
      omega

/-- Settles O34: the masks 0xAA and 0x55 are complements. -/
theorem directByteIsLineByteXor55 : Obligations.DirectByteIsLineByteXor55 := by
  refine ⟨fun order q hq => ?_, by decide, by decide⟩
  have hmask : ∀ y : Byte, ~~~y ^^^ LineProtocol.dir.mask = y ^^^ 0x55#8 := by decide
  rw [assemble_inverted order hq, hmask]

/-! ## How a candidate ends (R156, R166, R193) -/

/-- Settles O39: a line bit of a candidate ends it with an outcome, or it goes on. -/
theorem candidateRunsToItsOutcome : Obligations.CandidateRunsToItsOutcome := by
  intro s c b hs hst
  refine ⟨_, exec_lbit c b s, onChan_only .., ?_⟩
  rw [State.onChan_chan_same (has_lt hs), State.onChan_out]
  rcases lineBit_goes (cfg := s.cfg) (c := c) (now := s.now) (b := b) hst with
    ⟨k, hk, ⟨hcounted, hsearch, hrestarted⟩, -⟩ | ⟨hrec, ⟨hst', hgoes⟩, -⟩
  · exact .inl ⟨hsearch, k, hk, hcounted, hsearch, hrestarted⟩
  · rw [hrec, Option.toList_none, List.append_nil]
    exact .inr ⟨hst', rfl, hgoes⟩

/-- Settles O40: of the ways a line bit can end a candidate, a collision leaves MANCH_ERR alone. -/
theorem collidedCandidateEndsAsManchErr : Obligations.CollidedCandidateEndsAsManchErr := by
  intro s c b hs hst hcoll
  refine ⟨_, exec_lbit c b s, onChan_only .., ?_⟩
  rw [State.onChan_chan_same (has_lt hs), State.onChan_out]
  rcases lineBit_goes (cfg := s.cfg) (c := c) (now := s.now) (b := b) hst with
    ⟨k, -, hended, hcollided⟩ | ⟨hrec, ⟨-, hcounts, -⟩, hcollided⟩
  · obtain ⟨rfl, hrec⟩ := hcollided hcoll
    rw [hrec]
    exact ⟨List.append_nil _, .inl hended⟩
  · obtain ⟨hcoll', hst'⟩ := hcollided hcoll
    rw [hrec]
    exact ⟨List.append_nil _, .inr ⟨hst', hcoll', hcounts⟩⟩

/-! ## What no output can show (R42, R166) -/

/-- A channel is alike itself. -/
theorem alike_refl (ch : Channel) : ch.Alike ch := ⟨rfl, rfl, .inr ⟨rfl, rfl, rfl⟩⟩

/-- Channels that are alike stay alike over any line bits and produce the same records. -/
theorem alike_lineBits (cfg : Config) (c : ChanNo) (bits : List (Bool × Time)) {ch ch' : Channel} (h : ch.Alike ch') :
    (Channel.lineBits cfg c bits ch).1.Alike (Channel.lineBits cfg c bits ch').1 ∧
      (Channel.lineBits cfg c bits ch).2 = (Channel.lineBits cfg c bits ch').2 := by
  induction bits generalizing ch ch' with
  | nil => exact ⟨h, rfl⟩
  | cons p rest ih =>
    obtain ⟨hbit, hrec⟩ := alike_lineBit (cfg := cfg) (c := c) (now := p.2) (b := p.1) h
    obtain ⟨halike, hrecs⟩ := ih hbit
    refine ⟨halike, ?_⟩
    simp only [Channel.lineBits, hrec, hrecs]

/-- Settles O41: line bit by line bit, and the data bit of a pair that has just collided. -/
theorem placeholderAndStaleBytesAreUnobservable : Obligations.PlaceholderAndStaleBytesAreUnobservable := by
  refine ⟨fun cfg c bits ch ch' h => alike_lineBits cfg c bits h, fun cfg c p d ch hst => ?_⟩
  have hcoll : (ch.pairFlags p p).coll = true := by rw [pairFlags_self]
  exact alike_deliver (alike_refl (ch.pairFlags p p)) (.inl hcoll) hst

end Sys2Proof.Machine
end

section
/-! The proofs of the family `42_framer.md`: the length field's sixteen line bits (R183), the frame bytes of the body (R187 to R189), the
end of a candidate (R191), and the restart of the search that EOS shares with it (R192). -/

namespace Sys2Proof.Machine

/-! ## The length field's line bits (R183) -/

/-- In the length field fewer than 16 of its line bits have arrived. -/
theorem lenPos_lt_sixteen {ch : Channel} (h : LenOk ch) : lenPos ch < 16 := by
  obtain ⟨-, hlcnt, hnb, hhv⟩ := h
  have hhalf := ch.hv.toNat_le
  unfold lenPos
  cases hp : ch.lp <;> simp only [hp, LineProtocol.lw, LineProtocol.bpd] at hlcnt ⊢
  case man => omega
  case dir =>
    rw [hhv hp, Bool.toNat_false]
    omega

/-- What a sync match starts is a candidate with no line bit of its length field yet (R154). -/
theorem syncMatch_lenOk (cfg : Config) (now : Time) (p : LineProtocol) (ch : Channel) :
    LenOk (ch.syncMatch cfg now p) ∧ lenPos (ch.syncMatch cfg now p) = 0 :=
  have hfield : 0 < p.lw := by cases p <;> decide
  ⟨⟨rfl, hfield, Nat.zero_le 7, fun _ => rfl⟩, Nat.mul_zero p.bpd⟩

/-- Line bits that do not reach the sixteenth leave a candidate in its length field, with no record. -/
theorem lineBits_within_length (cfg : Config) (c : ChanNo) {bits : List (Bool × Time)} {ch : Channel} (h : LenOk ch)
    (hpos : lenPos ch + bits.length < 16) :
    (Channel.lineBits cfg c bits ch).2 = [] ∧ LenOk (Channel.lineBits cfg c bits ch).1 ∧
      (Channel.lineBits cfg c bits ch).1.lp = ch.lp ∧ lenPos (Channel.lineBits cfg c bits ch).1 = lenPos ch + bits.length := by
  induction bits generalizing ch with
  | nil => exact ⟨rfl, h, rfl, rfl⟩
  | cons p rest ih =>
    rw [List.length_cons] at hpos ⊢
    obtain ⟨hrec, ⟨hok, hlp, hmoved⟩ | ⟨hlast, -⟩⟩ := len_lineBit (cfg := cfg) (c := c) (now := p.2) (b := p.1) h
    · obtain ⟨hrecs, hok', hlp', hmoved'⟩ := ih hok (by omega)
      refine ⟨?_, hok', hlp'.trans hlp, hmoved'.trans (by omega)⟩
      simp only [Channel.lineBits, hrec, hrecs, Option.toList_none, List.append_nil]
    · omega

/-- The sixteenth line bit ends the length field, with no record; a candidate it leaves in BODY has had every length byte. -/
theorem lineBit_ends_length (cfg : Config) (c : ChanNo) (now : Time) (b : Bool) {ch : Channel} (h : LenOk ch) (hpos : lenPos ch = 15) :
    (ch.lineBit cfg c now b).2 = none ∧ (ch.lineBit cfg c now b).1.st ≠ .len ∧
      ((ch.lineBit cfg c now b).1.st = .body → (ch.lineBit cfg c now b).1.lcnt = ch.lp.lw) := by
  obtain ⟨hrec, ⟨hok, -, hmoved⟩ | ⟨-, hends⟩⟩ := len_lineBit (cfg := cfg) (c := c) (now := now) (b := b) h
  · have := lenPos_lt_sixteen hok
    omega
  · exact ⟨hrec, hends⟩

/-- A run of line bits and one more. -/
theorem lineBits_concat (cfg : Config) (c : ChanNo) (bits : List (Bool × Time)) (p : Bool × Time) (ch : Channel) :
    Channel.lineBits cfg c (bits.concat p) ch =
      (((Channel.lineBits cfg c bits ch).1.lineBit cfg c p.2 p.1).1,
        (Channel.lineBits cfg c bits ch).2 ++ ((Channel.lineBits cfg c bits ch).1.lineBit cfg c p.2 p.1).2.toList) := by
  simp [List.concat_eq_append, lineBits_append, Channel.lineBits]

/-- Settles O35: fifteen line bits move through the length field one position each, and the sixteenth ends it. -/
theorem lengthFieldTakesSixteenLineBits : Obligations.LengthFieldTakesSixteenLineBits := by
  intro cfg c now p ch bits r
  obtain ⟨hstart, hzero⟩ := syncMatch_lenOk cfg now p ch
  constructor
  · intro hshort
    obtain ⟨hrecs, ⟨hst, hlcnt, -⟩, hlp, -⟩ := lineBits_within_length cfg c hstart (bits := bits) (by omega)
    rw [hlp, Channel.syncMatch_lp] at hlcnt
    exact ⟨hst, hlcnt, hrecs⟩
  · intro hfull
    obtain ⟨first, last, rfl⟩ := (List.eq_nil_or_concat bits).resolve_left (by rintro rfl; cases hfull)
    rw [List.length_concat] at hfull
    obtain ⟨hrecs, hok, hlp, hmoved⟩ := lineBits_within_length cfg c hstart (bits := first) (by omega)
    obtain ⟨hrec, hst, hlcnt⟩ := lineBit_ends_length cfg c last.2 last.1 hok (by omega)
    have hr : r = _ := lineBits_concat cfg c first last (ch.syncMatch cfg now p)
    rw [hrecs, hrec] at hr
    rw [hlp, Channel.syncMatch_lp] at hlcnt
    rw [hr]
    refine ⟨hst, rfl, fun hbody => (hlcnt hbody).trans ?_⟩
    cases p <;> rfl

/-! ## A frame byte in BODY (R181, R187 to R189) -/

/-- Settles O37: of the four things a frame byte can do in BODY, the counter tells the first apart, and at the last byte the invariant
says how many bytes the candidate has. -/
theorem bodyByteOutcomes : Obligations.BodyByteOutcomes := by
  intro cfg c y ch hinv hst f t r
  have hframe : (ch.append y).frame = f := append_frame (inv_wptr_lt hinv (by simp [hst])) y
  have hlength : ch.rem - 1 = 0 → f.length = ch.lp.lw + ch.len.toNat + 2 := fun hrem => by
    obtain ⟨hlen, -⟩ := frame_of_last_byte hinv hst hrem y
    rwa [hframe] at hlen
  rcases frameByte_body (cfg := cfg) (c := c) (y := y) hst with
    ⟨hrem, e⟩ | ⟨hrem, hcoll, e⟩ | ⟨hrem, hcoll, hvalid, e⟩ | ⟨hrem, hcoll, hvalid, e⟩
  all_goals
    have ht : t = _ := congrArg Prod.fst e
    have hr : r = _ := congrArg Prod.snd e
    rw [ht, hr]
  · rw [if_pos (by omega)]
    exact ⟨rfl, rfl, hframe⟩
  all_goals
    rw [if_neg (by omega)]
    refine ⟨hlength hrem, by simp, ?_⟩
  · rw [if_pos hcoll]
    exact ⟨rfl, outcome_ended .manchErr (by decide) (ch.bodyStored y)⟩
  · rw [hframe] at hvalid
    rw [if_neg (by simp [hcoll]), if_pos hvalid, Channel.frameRecord, hframe]
    exact ⟨rfl, outcome_ended .ok (by decide) (ch.bodyStored y)⟩
  · rw [hframe] at hvalid
    rw [if_neg (by simp [hcoll]), if_neg (by simp [hvalid])]
    exact ⟨rfl, outcome_ended .crcFail (by decide) (ch.bodyStored y)⟩

/-! ## The end of a candidate and the restart of the search (R191, R192) -/

/-- Settles O38: the values of the end, and the two fields that an outcome keeps besides. -/
theorem outcomeCountsAndRestarts : Obligations.OutcomeCountsAndRestarts := fun k ch hk =>
  ⟨outcome_ended k hk ch, ch.outcome_len k, ch.outcome_buf k⟩

/-- R192: a second restart changes nothing. -/
@[simp] theorem Channel.restart_restart (ch : Channel) : ch.restart.restart = ch.restart := rfl

/-- EOS is `restart_search` on its channel (R221). -/
theorem exec_eos (c : ChanNo) (s : State) : exec (.eos c) s = .next (s.setChan c (s.chan c).restart) := rfl

/-- Settles O46: EOS writes the restarted channel, and a second one writes the same again. -/
theorem eosRestartsTheSearch : Obligations.EosRestartsTheSearch := by
  intro s c hs
  have hchan : (s.setChan c (s.chan c).restart).chan c = (s.chan c).restart := State.setChan_chan_same (has_lt hs) _
  refine ⟨_, exec_eos c s, setChan_only s c _, rfl, hchan, ?_⟩
  rw [exec_eos, hchan, Channel.restart_restart, State.setChan_setChan]

end Sys2Proof.Machine
end

section
/-! The proofs of the family `43_host_commands.md`: the step that runs a command (R220), CLRC (R223), the GSTATUS read and ILL (R225), and
the illegal words (R228). -/

namespace Sys2Proof.Machine

/-- Settles O10: the configuration is legal and the block has been reset, so the step runs the command. -/
theorem stepRunsTheDecodedCommand : Obligations.StepRunsTheDecodedCommand := fun _ _ _ _ hwf hstarted hin =>
  step_cmd hwf hstarted hin

/-! ## CLRC (R223) -/

/-- R223: clearing the counters a second time changes nothing. -/
@[simp] theorem Channel.clearCounts_clearCounts (ch : Channel) : ch.clearCounts.clearCounts = ch.clearCounts := rfl

/-- CLRC clears the counters of its channel. -/
theorem exec_clrc (c : ChanNo) (s : State) : exec (.clrc c) s = .next (s.setChan c (s.chan c).clearCounts) := rfl

/-- Settles O47: CLRC writes the channel with its counters cleared, and a second one writes the same again. -/
theorem clrcClearsTheCounters : Obligations.ClrcClearsTheCounters := by
  intro s c hs
  have hchan : (s.setChan c (s.chan c).clearCounts).chan c = (s.chan c).clearCounts := State.setChan_chan_same (has_lt hs) _
  refine ⟨_, exec_clrc c s, setChan_only s c _, rfl, hchan, ?_⟩
  rw [exec_clrc, hchan, Channel.clearCounts_clearCounts, State.setChan_setChan]

/-! ## ILL (R225, R228) -/

/-- ILL is bit 0 of GSTATUS (R48). -/
theorem gstatus_getLsbD_zero (s : State) : s.gstatus.getLsbD 0 = s.ill := by
  rw [State.gstatus, BitVec.getLsbD_append, if_pos Nat.one_pos, BitVec.getLsbD_ofBool]
  simp

/-- R225: a GSTATUS read, whatever channel it names, produces one record, whose bit 0 is ILL as it was, and clears ILL. -/
theorem exec_rdreg_gstatus (c : ChanNo) (s : State) :
    ∃ (t : State) (v : BitVec 32),
      exec (.rdreg c 7#3) s = .next t ∧ t.out = s.out ++ [.rdata c 7#3 v] ∧ v.getLsbD 0 = s.ill ∧ t.ill = false :=
  ⟨_, s.gstatus, exec_rdreg c 7#3 s, rfl, gstatus_getLsbD_zero s, rfl⟩

/-- Settles O49: the read after the first finds ILL cleared, and the one after the illegal command finds it set. -/
theorem gstatusReadClearsIll : Obligations.GstatusReadClearsIll := by
  intro s c d w hw
  obtain ⟨t, v, hread, hout, hv, hill⟩ := exec_rdreg_gstatus c s
  obtain ⟨t2, v2, hread2, hout2, hv2, -⟩ := exec_rdreg_gstatus d t
  obtain ⟨u2, v3, hread3, hout3, hv3, hill3⟩ := exec_rdreg_gstatus d { t with ill := true }
  exact ⟨t, t2, { t with ill := true }, u2, v, v2, v3, hread, hout, hv, hill, hread2, hout2, hv2.trans hill,
    exec_of_isIllegal hw t, hread3, hout3, hv3, hill3⟩

/-- Settles O50: each of the three rows is a row of illegal words. -/
theorem illegalWordsSetIllOnly : Obligations.IllegalWordsSetIllOnly := fun s =>
  ⟨fun _ => exec_of_isIllegal rfl s, fun _ => exec_of_isIllegal rfl s, fun _ => exec_of_isIllegal rfl s⟩

end Sys2Proof.Machine
end

section
/-! The proofs of the family `60_exceptions.md`: waiting and back-pressure (R263, R88), and the run that nothing stops (R250, R264). -/

namespace Sys2Proof.Machine

/-- Settles O12: the step with nothing supplied, and the step over a moment of back-pressure. -/
theorem waitingChangesNothing : Obligations.WaitingChangesNothing := fun _ hwf =>
  ⟨step_idle hwf, fun _ hin => step_hold hwf hin⟩

/-- R250, R264: with a legal configuration and after a reset, a step takes one input and adds at most one record. -/
theorem step_runs {s : State} (hwf : s.cfg.Wf) (hstarted : s.started = true) :
    ∃ t, step s = .next t ∧ t.input = s.input.drop 1 ∧ t.cfg = s.cfg ∧ t.started = true ∧
      ∃ r : Option Record, t.out = s.out ++ r.toList := by
  cases hin : s.input with
  | nil => exact ⟨s, step_idle hwf hin, hin, rfl, hstarted, none, (List.append_nil _).symm⟩
  | cons e rest =>
    cases e with
    | hold => exact ⟨_, step_hold hwf hin, rfl, rfl, hstarted, none, (List.append_nil _).symm⟩
    | rst => exact ⟨_, step_rst hwf hin, rfl, rfl, rfl, none, (List.append_nil _).symm⟩
    | cmd w now =>
      obtain ⟨t, ht, hcfg, hinput, -, hst, -, hout⟩ := exec_frame (decode s.cfg.nCh w) { s with input := rest, now := now }
      exact ⟨t, (step_cmd hwf hstarted hin).trans ht, hinput, hcfg, hst.trans hstarted, hout⟩

/-- Settles O13, by induction on the number of steps: the first one runs, and what it leaves the rest can run on. -/
theorem theBlockNeverStops : Obligations.TheBlockNeverStops := by
  intro n
  induction n with
  | zero => exact fun s _ hstarted => ⟨s, rfl, rfl, rfl, hstarted, [], (List.append_nil _).symm, Nat.le_refl 0⟩
  | succ n ih =>
    intro s hwf hstarted
    obtain ⟨t, hstep, hinput, hcfg, ht, r, hout⟩ := step_runs hwf hstarted
    obtain ⟨u, hsteps, hinput', hcfg', hu, new, hout', hnew⟩ := ih t (hcfg ▸ hwf) ht
    refine ⟨u, (steps_succ hstep n).trans hsteps, ?_, hcfg'.trans hcfg, hu, r.toList ++ new, ?_, ?_⟩
    · rw [hinput', hinput, List.drop_drop, Nat.add_comm]
    · rw [hout', hout, List.append_assoc]
    · have hr : r.toList.length ≤ 1 := Option.length_toList_le
      rw [List.length_append]
      omega

end Sys2Proof.Machine
end

section
/-! The proof of the family `70_reset_and_hazards.md`: a command before the first reset (R282, U3). -/

namespace Sys2Proof.Machine

/-- Settles O11: the step's law for a block that has not been reset; the reset state writes `started`. -/
theorem commandBeforeResetIsRefused : Obligations.CommandBeforeResetIsRefused :=
  ⟨fun _ _ _ _ hwf hstarted hin => step_beforeReset hwf hstarted hin, rfl⟩

end Sys2Proof.Machine
end
